-- ==== Sys2Proof/Word.lean ====
section
/-!
DEFINITION. Word.lean: the plain types the block works on: a byte (a Symbol, R7, R11), a bit-string
(R12, first bit of the stream first; true is the bit 1) and a table with one entry per symbol (R29, R34).
-/
namespace Sys2Proof

/-- A byte, 8 bits numbered 7 (most significant) down to 0 (R11); also a Symbol, "one input unit" (R17). -/
abbrev Byte := BitVec 8

/-- A bit-string (R12): a finite sequence of bits, position 0 the first bit in stream order. -/
abbrev Bits := List Bool

/-- A table indexed by the 256 symbol values (R29, R34). -/
abbrev SymTable (α : Type) := Vector α 256

end Sys2Proof
end

