-- ==== Sys2Proof/Config.lean ====
section
/-!
DEFINITION. Config.lean: what an implementation fixes (the OPEN capacities of R9) and the free values
(what the spec leaves unspecified: any value). The free values are opaque constants with no body, so
nothing can be proved of the value they give.
-/
namespace Sys2Proof

/-- The largest capacity a buffer may have, 2^60 bytes (R9, D4). -/
abbrev capMax : Nat := 1152921504606846976

/-- The largest input COMPRESS accepts, 2^32 − 1 bytes (R9 `IN_LEN_MAX_COMPRESS`, R182). -/
abbrev inLenMaxCompress : Nat := 4294967295

/-- The OPEN parameters of R9: the two buffer capacities, each a natural number at most 2^60.
`REG_BASE`, the register stride, `IBUF_BASE` and `OBUF_BASE` are left out: no rule depends on them (R71). -/
structure Params where
  ibufCap : Fin (capMax + 1)
  obufCap : Fin (capMax + 1)
  deriving DecidableEq, Repr

/-- The capacities `State.reset` carries: the largest the spec allows (DESIGN CHOICE, log entry 1).
No statement rests on them. -/
def Params.default : Params := ⟨1152921504606846976, 1152921504606846976⟩

namespace Config

/-- The byte an IBUF offset holds that nothing has written since the last reset (R50: "unspecified (any
bytes)"); first argument: how many resets there were; second: the offset. -/
opaque freeIbufByte : Nat → Nat → Byte

/-- The byte an OBUF offset holds that is unspecified (R62, R262); first argument: how often OBUF became
unspecified; second: the offset. -/
opaque freeObufByte : Nat → Nat → Byte

/-- An unspecified value of a scalar working register (R50, R262, U21) or of an implementation register
the rules give no value (`BITACC`, `BITCNT`, R28); first argument: a fresh number; second: which register. -/
opaque freeWord : Nat → Nat → BitVec 64

/-- An unspecified value of one entry of a working table (U21): a fresh number, the table, the entry. -/
opaque freeEntry : Nat → Nat → Nat → BitVec 64

/-- An unspecified bit-string (U21): a fresh number, which variable, the entry. -/
opaque freeBits : Nat → Nat → Nat → Bits

end Config
end Sys2Proof
end

