-- ==== Sys2Proof/Syntax.lean ====
section
/-!
DEFINITION. Syntax.lean: the operations of `opcode_table.json`, one constructor per row (R103, R104), and
the host's actions on the block (R21, R22, R60, R110, R280). No operation has an operand field: a command
is one byte (R102) and a phase is the value of the sequencer's `PHASE` register (R27).
-/
namespace Sys2Proof

/-- The two formats of the opcode table: a byte the host writes to `CMD`, or the 4-bit `PHASE` register. -/
inductive Format where
  | cmd
  | phase
  deriving DecidableEq, Repr

/-- The 14 operations of the block: four host commands (R103) and ten sequencer phases (R27, R104). -/
inductive Instr where
  | nop
  | compress
  | decompress
  | clear
  | ftBuild
  | treeBuild
  | cbDerive
  | encMap
  | bpPack
  | frameEmit
  | frameParse
  | lenCheck
  | bpUnpack
  | decWalk
  deriving DecidableEq, Repr

/-- The six host registers of R22, by name; their numbers 0 to 5 are in this order. -/
inductive HostReg where
  | cmd
  | status
  | errKind
  | errCause
  | inLen
  | outLen
  deriving DecidableEq, Repr

/-- One thing the outside world does to the block. Register and buffer accesses are those of R22, R60 and
R235, the refused ones among them; `load`, `waitDone` and `copy` are the host-script lines LOAD, WAIT and
COPY of R110; `reset` is the reset input (R280); `tick` lets the sequencer take one step before the host's
next action, so that a list of actions can say when each lands (log entry 5). -/
inductive HostAction where
  | writeCmd (code : Byte)
  | writeInLen (len : BitVec 64)
  | writeStatus (v : Byte)
  | writeErrKind (v : Byte)
  | writeErrCause (v : Byte)
  | writeOutLen (v : BitVec 64)
  | readReg (r : HostReg)
  | writeIbuf (off : Nat) (b : Byte)
  | readIbuf (off : Nat)
  | readObuf (off : Nat)
  | writeObuf (off : Nat) (b : Byte)
  | load (bytes : List Byte)
  | waitDone
  | copy
  | tick
  | reset
  deriving DecidableEq, Repr

end Sys2Proof
end

