-- ==== Sys2Proof/WellFormed.lean ====
section
/-!
DEFINITION. WellFormed.lean: which operation may occur under which value of `OP` (the `op` entries of
`opcode_table.json`, R104; R27: `OP` is `0x00` when idle, `0x01` for COMPRESS, `0x02` for DECOMPRESS).
No operation has operands, so this is the whole of well-formedness.
-/
namespace Sys2Proof

/-- The format of an operation's row (R104). -/
def Instr.format : Instr → Format
  | .nop | .compress | .decompress | .clear => .cmd
  | .ftBuild | .treeBuild | .cbDerive | .encMap | .bpPack | .frameEmit
  | .frameParse | .lenCheck | .bpUnpack | .decWalk => .phase

/-- The `OP` values an operation occurs under: idle for a command (R230), the row's `op` list for a phase. -/
def Instr.opValues : Instr → List Byte
  | .nop | .compress | .decompress | .clear => [0x00#8]
  | .ftBuild | .encMap | .bpPack | .frameEmit => [0x01#8]
  | .treeBuild | .cbDerive => [0x01#8, 0x02#8]
  | .frameParse | .lenCheck | .bpUnpack | .decWalk => [0x02#8]

/-- The check: the operation may occur under this value of `OP`. -/
def Instr.wellFormed (op : Byte) (i : Instr) : Bool := i.opValues.contains op

end Sys2Proof
end

