-- ==== Sys2Proof/Decode.lean ====
section
/-!
DEFINITION. Decode.lean: command bytes and phase codes to operations (R103, R104), total, rejecting by
name; the encoder, from the same rows; and the host's view of the opcode table.
-/
namespace Sys2Proof

/-- Why a code decodes to no operation. -/
inductive Reject where
  /-- a command code 0x04 to 0xFF (R108) -/
  | reservedCommand (code : Byte)
  /-- `PHASE` 7 or 12 to 15 (R27), never entered -/
  | reservedPhase (code : BitVec 4)
  /-- `PHASE` 0, IDLE: no phase runs (R230) -/
  | idlePhase
  deriving DecidableEq, Repr

/-- The code an operation is encoded by: a byte for `CMD`, or a value of the 4-bit `PHASE` register. -/
inductive Code where
  | cmd (c : Byte)
  | phase (p : BitVec 4)
  deriving DecidableEq, Repr

/-- The rows of format `CMD` (R103): mask, match, operation. -/
def cmdRows : List (Byte × Byte × Instr) :=
  [(0xFF#8, 0x00#8, .nop), (0xFF#8, 0x01#8, .compress),
   (0xFF#8, 0x02#8, .decompress), (0xFF#8, 0x03#8, .clear)]

/-- The rows of format `PHASE` (R27, R104): mask, match, operation. -/
def phaseRows : List (BitVec 4 × BitVec 4 × Instr) :=
  [(0xF#4, 0x1#4, .ftBuild), (0xF#4, 0x2#4, .treeBuild), (0xF#4, 0x3#4, .cbDerive),
   (0xF#4, 0x4#4, .encMap), (0xF#4, 0x5#4, .bpPack), (0xF#4, 0x6#4, .frameEmit),
   (0xF#4, 0x8#4, .frameParse), (0xF#4, 0x9#4, .lenCheck), (0xF#4, 0xA#4, .bpUnpack),
   (0xF#4, 0xB#4, .decWalk)]

/-- The command a byte written to `CMD` is (R103); codes 0x04 to 0xFF are reserved (R108). -/
def decodeCmd (c : Byte) : Except Reject Instr :=
  match cmdRows.find? (fun r => c &&& r.1 == r.2.1) with
  | some r => .ok r.2.2
  | none => .error (.reservedCommand c)

/-- The phase a value of `PHASE` stands for (R27). -/
def decodePhase (p : BitVec 4) : Except Reject Instr :=
  if p = 0#4 then .error .idlePhase
  else
    match phaseRows.find? (fun r => p &&& r.1 == r.2.1) with
    | some r => .ok r.2.2
    | none => .error (.reservedPhase p)

/-- Decoding of either format. -/
def decode : Code → Except Reject Instr
  | .cmd c => decodeCmd c
  | .phase p => decodePhase p

/-- The code of each operation, written from R103 and R27. -/
def encode : Instr → Code
  | .nop => .cmd 0x00#8
  | .compress => .cmd 0x01#8
  | .decompress => .cmd 0x02#8
  | .clear => .cmd 0x03#8
  | .ftBuild => .phase 1#4
  | .treeBuild => .phase 2#4
  | .cbDerive => .phase 3#4
  | .encMap => .phase 4#4
  | .bpPack => .phase 5#4
  | .frameEmit => .phase 6#4
  | .frameParse => .phase 8#4
  | .lenCheck => .phase 9#4
  | .bpUnpack => .phase 10#4
  | .decWalk => .phase 11#4

/-- How many bits the opcode table gives a code, 8 or 4 (R104). -/
def Code.width : Code → Nat
  | .cmd _ => 8
  | .phase _ => 4

/-- The code's bits as a number, bit 0 the least significant. -/
def Code.toNat : Code → Nat
  | .cmd c => c.toNat
  | .phase p => p.toNat

/-- The code a row's word stands for. A word of 4 bits or fewer is a value of `PHASE`; a word of a whole
byte is a command code. A row of format `PHASE` rounded up to a whole byte cannot be told from a command
byte by its bits, so a byte that is no command but whose value is a phase the sequencer enters is read as
that row (log entry 6; the block's own `CMD` path, `decodeCmd`, never reads a byte so). -/
def tableCode (nbits w : Nat) : Option Code :=
  if nbits ≤ 4 then
    if w < 16 then some (.phase (BitVec.ofNat 4 w)) else none
  else if w < 4 then some (.cmd (BitVec.ofNat 8 w))
  else if w < 16 ∧ (decodePhase (BitVec.ofNat 4 w)).isOk then some (.phase (BitVec.ofNat 4 w))
  else if w < 256 then some (.cmd (BitVec.ofNat 8 w))
  else none

/-- The operation the decoder reads from an opcode-table word (the host's view of the table). -/
def decodeTableWord (nbits w : Nat) : Option Instr :=
  match tableCode nbits w with
  | none => none
  | some c =>
    match decode c with
    | .ok i => some i
    | .error _ => none

end Sys2Proof
end

