-- ==== Sys2Proof/Machine/State.lean ====
section
/-!
DEFINITION. Machine/State.lean: the state of the block, all of it (R20): six host registers, two byte
buffers, the sequencer's control state, the scalar working registers, the five tables, `BITS`, `ACC` and
`PAYLOAD`; the reasons a step can stop; and the state after reset (R50). Plain data throughout. `CMD`
holds no value between writes (R23), so it is no field.
-/
namespace Sys2Proof.Machine

/-- The two error kinds of the block (R250). -/
inductive ErrKind where
  | corruptFrame
  | invalidInput
  deriving DecidableEq, Repr

/-- The six causes an error is raised by (R252). -/
inductive ErrCause where
  | hdrTrunc
  | tableTrunc
  | lenMismatch
  | trailingBits
  | symcountRange
  | dupSymbol
  deriving DecidableEq, Repr

/-- One entry of the node arena (R31), the document's tagged variant: `Leaf(sym, weight)` or
`Internal(weight, left, right)`, the children by arena index. -/
inductive Node where
  | leaf (sym : Byte) (weight : Nat)
  | internal (weight left right : Nat)
  deriving DecidableEq, Repr

/-- A byte buffer (R60): the bytes something has written, by offset, offsets strictly rising. An offset
that is not listed holds no byte the model knows: its value is free. -/
abbrev Memory := List Host.Cell

/-- The working state (R28 to R37). Quantities are naturals, as R9 allows and R10 and R112 read them: no
operation wraps, and each comment gives the register's width. -/
structure Work where
  /-- `K`, 9 bits: the number of distinct symbols -/
  k : Nat
  /-- `N`, 9 bits: the number of nodes allocated -/
  n : Nat
  /-- `ROOT`, 9 bits: arena index of the root -/
  root : Nat
  /-- `T`, 64 bits: total encoded bits before padding -/
  t : Nat
  /-- `PAD`, 3 bits: the pad length the encoder computed -/
  pad : Nat
  /-- `SC`, 16 bits: the `symbol_count` field read from the Frame -/
  sc : Nat
  /-- `PADF`, 8 bits: the `pad_length` field read from the Frame -/
  padf : Nat
  /-- `PAY_OFF`, 64 bits: offset of the payload in IBUF -/
  payOff : Nat
  /-- `PAY_LEN`, 64 bits: number of payload bytes -/
  payLen : Nat
  /-- `T_EXP`, 64 bits: total encoded bits the symbol table implies -/
  tExp : Nat
  /-- `IN_PTR`, 64 bits: read cursor into IBUF -/
  inPtr : Nat
  /-- `OUT_PTR`, 64 bits: write cursor into OBUF -/
  outPtr : Nat
  /-- `BITACC`, 8 bits: the byte being assembled or taken apart (implementation register) -/
  bitAcc : BitVec 8
  /-- `BITCNT`, 3 bits: bits of `BITACC` already used (implementation register) -/
  bitCnt : BitVec 3
  /-- `PRESENT[s]`, 256 entries of 1 bit (R29) -/
  present : SymTable Bool
  /-- `COUNT[s]`, 256 entries of 32 bits (R29) -/
  count : SymTable Nat
  /-- `ORDER[j]`, the leaf-order list, up to 256 entries of 8 bits, meaningful for `j < K` (R29) -/
  order : List Byte
  /-- `NODE[n]`, the node arena, up to 511 entries, entries `n < N` allocated (R31) -/
  node : List Node
  /-- `PQ`, the priority queue: a set of arena indices (R32) -/
  pq : List Nat
  /-- `CODE_VALID[s]`, 256 entries of 1 bit (R34) -/
  codeValid : SymTable Bool
  /-- `CODE_LEN[s]`, 256 entries of 8 bits (R34) -/
  codeLen : SymTable Nat
  /-- `CODE[s]`, 256 bit-strings of up to 255 bits (R34) -/
  code : SymTable Bits
  /-- `BITS` (R36) -/
  bits : Bits
  /-- `ACC`, the decoder's accumulator (R37) -/
  acc : Bits
  /-- `PAYLOAD`, the packed payload bytes between BP_PACK and FRAME_EMIT (R165) -/
  payload : List Byte
  deriving DecidableEq, Repr

/-- The state of the machine. The first eleven fields are the spec's (R20); those after them are the
model's own: the open parameters (R38: not state of the block), the host as an agent (R21) and the
counters the free values are taken from. -/
structure State where
  /-- `STATUS`, 8 bits: bit 0 BUSY, bit 1 DONE, bit 2 ERR, bits 7:3 read as 0 (R24) -/
  status : BitVec 8
  /-- `ERR_KIND`, 8 bits (R25, R251) -/
  errKind : BitVec 8
  /-- `ERR_CAUSE`, 8 bits (R25, R252) -/
  errCause : BitVec 8
  /-- `IN_LEN`, 64 bits (R26) -/
  inLen : BitVec 64
  /-- `OUT_LEN`, 64 bits (R26) -/
  outLen : BitVec 64
  /-- IBUF (R60, R61) -/
  ibuf : Memory
  /-- OBUF (R60, R62) -/
  obuf : Memory
  /-- `PHASE`, 4 bits, the block's program counter (R27) -/
  phase : BitVec 4
  /-- `OP`, 8 bits, the latched command (R27) -/
  op : BitVec 8
  /-- the working registers and tables (R28 to R37) -/
  work : Work
  /-- the hand-off of R74 (c) and R285 is pending: an operation was started and no `STATUS` read has
  returned DONE = 1 since -/
  handoff : Bool
  /-- MODEL: the capacities `IBUF_CAP`, `OBUF_CAP` (R9), which nothing changes -/
  params : Params
  /-- MODEL: the host's pending actions, the next one first (R21) -/
  hostQueue : List HostAction
  /-- MODEL: the value the host's last read returned -/
  hostData : BitVec 64
  /-- MODEL: how often IBUF became unspecified (resets) -/
  ibufEpoch : Nat
  /-- MODEL: how often OBUF became unspecified -/
  obufEpoch : Nat
  /-- MODEL: how many free values of the working state were taken -/
  freeSeq : Nat
  deriving DecidableEq, Repr

/-- Why the machine stops with a fault. Every one of them is a use of a value that does not exist, which
the spec says no rule makes: R51 asks the model to fault there rather than return a value. All are SAFE:
the model stops where nothing is stated, and no state reached from an idle one by the rules meets them. -/
inductive Fault where
  /-- FT_BUILD, ENC_MAP, FRAME_PARSE, BP_UNPACK: `MemRead(IBUF, addr, n)` with `addr + n > IN_LEN`
  (R66: not defined) or beyond `IBUF_CAP` (R60: no byte exists there). Safe. -/
  | readOutsideInput
  /-- TREE_BUILD, FRAME_EMIT, LEN_CHECK: `ORDER[j]` for a `j < K` that was never written (R29). Safe. -/
  | orderEntryAbsent
  /-- TREE_BUILD, FRAME_EMIT, LEN_CHECK: `COUNT[s]` with `PRESENT[s] = 0` (R51). Safe. -/
  | countEntryAbsent
  /-- ENC_MAP, LEN_CHECK: `CODE[s]` or `CODE_LEN[s]` with `CODE_VALID[s] = 0` (R51). Safe. -/
  | codeEntryInvalid
  /-- CB_DERIVE: `NODE[n]` with `n ≥ N` (R51). Safe. -/
  | nodeEntryUnallocated
  /-- CB_DERIVE: the walk goes deeper than there are nodes, so the arena is no tree (R31). Safe. -/
  | arenaNotATree
  /-- TREE_BUILD with `K = 0` (R136: "a fault of the model"). Safe. -/
  | treeOfEmptyTable
  /-- TREE_BUILD entered with `N ≠ 0` or `PQ ≠ {}` (R130's precondition). Safe. -/
  | queueNotEmpty
  /-- TREE_BUILD: `PQ` does not end with a single element (R130, step 3). Safe. -/
  | queueNotSingleton
  /-- BP_PACK: `T` is not the length of `BITS` (R165: `T = len(BITS)`). Safe. -/
  | bitCountMismatch
  /-- FRAME_EMIT: `PAYLOAD` has no byte `j` for some `j < ceil(T / 8)` (R188). Safe. -/
  | payloadTooShort
  /-- BP_UNPACK with `PADF > 7` or more pad bits than payload bits (R173: partial). Safe. -/
  | unpackOutsidePrecondition
  /-- any phase under an `OP` value its row does not list (R104). Safe. -/
  | phaseUnderWrongOp
  deriving DecidableEq, Repr

/-- Why a step has no meaning. "Refuse" is the spec's own word (R18): "the model gives the situation no
meaning; no claim can be made about it". All are SAFE: they err toward unprovable. -/
inductive Refusal where
  /-- an operation whose meaning is not written yet: no arm uses it -/
  | notModelled (mnemonic : String)
  /-- the four commands: a write to `CMD` while `STATUS.BUSY = 1` (R284) -/
  | commandWhileBusy
  /-- a write of a command code 0x04 to 0xFF (R108) -/
  | reservedCommand (code : Byte)
  /-- a host access other than a `STATUS` read while BUSY = 1 (R235, R285) -/
  | accessWhileBusy
  /-- a host access R74 (c) or R285 forbids, after the end of the operation and before a `STATUS` read
  returned DONE = 1 -/
  | accessBeforeDoneRead
  /-- a read of `CMD` (R22, R235) -/
  | readOfCommand
  /-- a write of `STATUS`, `ERR_KIND`, `ERR_CAUSE` or `OUT_LEN` (R235) -/
  | writeOfReadOnly
  /-- a host access to a buffer offset at or beyond the capacity (R60, U47) -/
  | offsetBeyondCapacity
  /-- a host read of IBUF or write of OBUF: R60 gives the host neither -/
  | accessNotGiven
  /-- COMPRESS, DECOMPRESS: a start with `IN_LEN > IBUF_CAP` (R26, R63) -/
  | inputBeyondIbuf
  /-- COMPRESS: a start with `IN_LEN > 2^32 − 1` (R182) -/
  | inputBeyondCompressLimit
  /-- COMPRESS, DECOMPRESS: an operation that would write OBUF at or beyond `OBUF_CAP`, from its start; and
  FRAME_EMIT, DEC_WALK entered in a state no start leads to (R63, R67) -/
  | resultBeyondObuf
  /-- the sequencer in a phase R27 says is never entered (7, 12 to 15; or 0 while BUSY = 1) -/
  | phaseNotEntered (code : BitVec 4)
  deriving DecidableEq, Repr

/-- The working state `State.reset` names: every register 0, every table empty (DESIGN CHOICE, log
entry 2: R50 leaves it unspecified). -/
def Work.zero : Work where
  k := 0
  n := 0
  root := 0
  t := 0
  pad := 0
  sc := 0
  padf := 0
  payOff := 0
  payLen := 0
  tExp := 0
  inPtr := 0
  outPtr := 0
  bitAcc := 0
  bitCnt := 0
  present := Vector.replicate 256 false
  count := Vector.replicate 256 0
  order := []
  node := []
  pq := []
  codeValid := Vector.replicate 256 false
  codeLen := Vector.replicate 256 0
  code := Vector.replicate 256 []
  bits := []
  acc := []
  payload := []

/-- The machine right after reset (R50, R280): `STATUS`, `ERR_KIND`, `ERR_CAUSE`, `IN_LEN`, `OUT_LEN` and
`OP` are 0 and `PHASE` is IDLE; no byte of either buffer is known; the working state and the model's own
fields hold the values log entries 1 to 3 name. -/
def State.reset : State where
  status := 0x00#8
  errKind := 0x00#8
  errCause := 0x00#8
  inLen := 0#64
  outLen := 0#64
  ibuf := []
  obuf := []
  phase := 0#4
  op := 0x00#8
  work := Work.zero
  handoff := false
  params := Params.default
  hostQueue := []
  hostData := 0#64
  ibufEpoch := 0
  obufEpoch := 0
  freeSeq := 0

end Sys2Proof.Machine
end

