-- ==== Sys2Proof/Machine/Flags.lean ====
section
/-!
DEFINITION. Machine/Flags.lean: the three condition flags of the block, bits 0 to 2 of `STATUS` (R24).
Writing a flag leaves the other seven bits of `STATUS` as they were.
-/
namespace Sys2Proof.Machine

/-- `v` with bit `i` set to `b`. -/
def putBit (v : BitVec 8) (i : Nat) (b : Bool) : BitVec 8 :=
  if b then v ||| ((1#8) <<< i) else v &&& ~~~((1#8) <<< i)

/-- `STATUS.BUSY`, bit 0 (R24): an operation is in progress. -/
def State.busy (s : State) : Bool := s.status.getLsbD 0

/-- `STATUS.DONE`, bit 1 (R24): the last operation has ended and its result registers are valid. -/
def State.done (s : State) : Bool := s.status.getLsbD 1

/-- `STATUS.ERR`, bit 2 (R24): the last operation ended with an error. -/
def State.err (s : State) : Bool := s.status.getLsbD 2

/-- `STATUS.BUSY <- busy; STATUS.DONE <- done; STATUS.ERR <- err` (R189, R219, R232, R233, R262). -/
def State.withFlags (s : State) (busy done err : Bool) : State :=
  { s with status := putBit (putBit (putBit s.status 0 busy) 1 done) 2 err }

end Sys2Proof.Machine
end

