-- ==== Sys2Proof/Machine/Operands.lean ====
section
/-!
DEFINITION. Machine/Operands.lean: the operands an operation reaches: entries of the working tables
(R29 to R34), the host registers by number (R22), bytes of a buffer and their order (R13, R64, R65).
-/
namespace Sys2Proof.Machine

/-! ### Tables indexed by symbol (R29, R34) -/

/-- Entry `s` of a symbol table. -/
def SymTable.at {α : Type} (t : SymTable α) (s : Byte) : α := t[s.toNat]'(s.isLt)

/-- `t[s] <- v`. -/
def SymTable.put {α : Type} (t : SymTable α) (s : Byte) (v : α) : SymTable α := t.set s.toNat v s.isLt

/-- The table whose entry `s` is `f s`. -/
def SymTable.tabulate {α : Type} (f : Byte → α) : SymTable α :=
  ⟨⟨(List.range 256).map (fun i => f (BitVec.ofNat 8 i))⟩, by simp⟩

/-- The 256 symbol values, ascending. -/
def allSymbols : List Byte := (List.range 256).map (BitVec.ofNat 8)

/-- `ORDER[j] <- s`: entries above `j` hold nothing any more (R29: meaningful only for `j < K`). -/
def Work.setOrder (w : Work) (j : Nat) (s : Byte) : Work := { w with order := w.order.take j ++ [s] }

/-- The key `s` with its count: a read of `COUNT[s]`, which R51 allows only where `PRESENT[s] = 1`. -/
def Work.entryOf (w : Work) (s : Byte) : Except Fault (Byte × Nat) :=
  if SymTable.at w.present s then .ok (s, SymTable.at w.count s) else .error .countEntryAbsent

/-- The reads of `COUNT[s]` for the symbols of a list, in its order. -/
def Work.entriesOf (w : Work) : List Byte → Except Fault (List (Byte × Nat))
  | [] => .ok []
  | s :: rest =>
    match w.entryOf s with
    | .error e => .error e
    | .ok p =>
      match w.entriesOf rest with
      | .error e => .error e
      | .ok ps => .ok (p :: ps)

/-- The frequency table in leaf order, `(ORDER[j], COUNT[ORDER[j]])` for `j` in `0 .. K − 1` (R29). -/
def Work.table (w : Work) : Except Fault (List (Byte × Nat)) :=
  if w.order.length < w.k then .error .orderEntryAbsent else w.entriesOf (w.order.take w.k)

/-- The allocated entries of the node arena, `NODE[0 .. N)` (R31). -/
def Work.arena (w : Work) : List Node := w.node.take w.n

/-- A read of `CODE[s]` and `CODE_LEN[s]`, which R51 allows only where `CODE_VALID[s] = 1`. -/
def Work.codeOf (w : Work) (s : Byte) : Except Fault (Bits × Nat) :=
  if SymTable.at w.codeValid s then .ok (SymTable.at w.code s, SymTable.at w.codeLen s)
  else .error .codeEntryInvalid

/-- `REV(b)` (R34): the symbol whose valid code is `b`. Two symbols never share a code (R155). -/
def Work.rev (w : Work) (b : Bits) : Option Byte :=
  allSymbols.find? (fun s => SymTable.at w.codeValid s && SymTable.at w.code s == b)

/-! ### Byte order and bit order (R13, R64, R65) -/

/-- `BE16(v)`: `v[15:8], v[7:0]`. -/
def be16Bytes (v : Nat) : List Byte := [BitVec.ofNat 8 (v / 2 ^ 8), BitVec.ofNat 8 v]

/-- `BE32(v)`: `v[31:24], v[23:16], v[15:8], v[7:0]`. -/
def be32Bytes (v : Nat) : List Byte :=
  [BitVec.ofNat 8 (v / 2 ^ 24), BitVec.ofNat 8 (v / 2 ^ 16), BitVec.ofNat 8 (v / 2 ^ 8), BitVec.ofNat 8 v]

/-- `be16(b0, b1) = b0 × 256 + b1`. -/
def be16 (b0 b1 : Byte) : Nat := b0.toNat * 256 + b1.toNat

/-- `be32(b0, b1, b2, b3) = b0 × 2^24 + b1 × 2^16 + b2 × 2^8 + b3`. -/
def be32 (b0 b1 b2 b3 : Byte) : Nat :=
  b0.toNat * 2 ^ 24 + b1.toNat * 2 ^ 16 + b2.toNat * 2 ^ 8 + b3.toNat

/-- The 8 bits of a byte, bit 7 first (R65). -/
def byteBits (b : Byte) : Bits :=
  [b.getLsbD 7, b.getLsbD 6, b.getLsbD 5, b.getLsbD 4, b.getLsbD 3, b.getLsbD 2, b.getLsbD 1, b.getLsbD 0]

/-- The byte whose bit `7 − i` is bit `i` of the string, for a string of 8 bits (R65, R165). -/
def bitsByte (bs : Bits) : Byte := BitVec.ofNat 8 (bs.foldl (fun n b => 2 * n + b.toNat) 0)

/-! ### Buffers (R60) -/

/-- The byte something has written at an offset, if any. -/
def Memory.get? : Memory → Nat → Option Byte
  | [], _ => none
  | (x, v) :: rest, a => if a = x then some v else Memory.get? rest a

/-- A write of one byte; the list stays sorted by offset, one entry an offset. -/
def Memory.set : Memory → Nat → Byte → Memory
  | [], a, b => [(a, b)]
  | (x, v) :: rest, a, b =>
    if a < x then (a, b) :: (x, v) :: rest
    else if a = x then (a, b) :: rest
    else (x, v) :: Memory.set rest a b

/-- The bytes `bs` written at offsets `a, a + 1, ...`, in ascending order (R67). -/
def Memory.write : Memory → Nat → List Byte → Memory
  | m, _, [] => m
  | m, a, b :: bs => Memory.write (Memory.set m a b) (a + 1) bs

/-- What is left of a buffer when every byte at offset `n` and above becomes unspecified (R62). -/
def Memory.below (m : Memory) (n : Nat) : Memory := m.filter (fun c => decide (c.1 < n))

/-- The canonical form: offsets strictly rising. An unlisted offset has no value of its own, so no entry
can repeat one. -/
abbrev Memory.wf (m : Memory) : Prop := m.Pairwise (fun c d => c.1 < d.1)

/-- Every listed byte lies inside a buffer of `cap` bytes (R60). -/
abbrev Memory.within (m : Memory) (cap : Nat) : Prop := ∀ c ∈ m, c.1 < cap

/-- `IBUF[off]`: the byte written there, or the unspecified byte the offset holds (R50, R61). -/
def State.ibufByte (s : State) (off : Nat) : Byte :=
  match s.ibuf.get? off with
  | some b => b
  | none => Config.freeIbufByte s.ibufEpoch off

/-- `OBUF[off]`: the byte written there, or the unspecified byte the offset holds (R62). -/
def State.obufByte (s : State) (off : Nat) : Byte :=
  match s.obuf.get? off with
  | some b => b
  | none => Config.freeObufByte s.obufEpoch off

/-- `IBUF[addr .. addr + n)`. -/
def State.ibufBytes (s : State) (addr n : Nat) : List Byte := (List.range n).map (fun i => s.ibufByte (addr + i))

/-- `OBUF[addr .. addr + n)`. -/
def State.obufBytes (s : State) (addr n : Nat) : List Byte := (List.range n).map (fun i => s.obufByte (addr + i))

/-- The operation's input, `IBUF[0 .. IN_LEN)` (R26). -/
def State.input (s : State) : List Byte := s.ibufBytes 0 s.inLen.toNat

/-- The operation's result, `OBUF[0 .. OUT_LEN)` (R26). -/
def State.output (s : State) : List Byte := s.obufBytes 0 s.outLen.toNat

/-! ### Host registers (R22) -/

/-- The register's number (R22). -/
def HostReg.number : HostReg → Nat
  | .cmd => 0
  | .status => 1
  | .errKind => 2
  | .errCause => 3
  | .inLen => 4
  | .outLen => 5

/-- The value a read of a host register returns, zero-extended (R235); `CMD` has none (R22). -/
def State.regValue (s : State) : HostReg → Option (BitVec 64)
  | .cmd => none
  | .status => some (s.status.setWidth 64)
  | .errKind => some (s.errKind.setWidth 64)
  | .errCause => some (s.errCause.setWidth 64)
  | .inLen => some s.inLen
  | .outLen => some s.outLen

end Sys2Proof.Machine
end

