-- ==== Sys2Proof/Machine/Ops.lean ====
section
/-!
DEFINITION. Machine/Ops.lean: the operations every phase and command is written with: the buffer accesses
`MemRead` and `MemWrite` (R66, R67), the start of an operation (R51, R232, R233), its end (R189, R219), and
the error entry `raise` (R262) with the return from it (R234, R264).
-/
namespace Sys2Proof.Machine

/-- What a step of this machine answers. -/
abbrev Result := Host.Outcome State Fault Refusal

/-- The code of phase IDLE and of the phases a start enters (R27). -/
abbrev phaseIdle : BitVec 4 := 0#4
abbrev phaseFtBuild : BitVec 4 := 1#4
abbrev phaseTreeBuild : BitVec 4 := 2#4
abbrev phaseCbDerive : BitVec 4 := 3#4
abbrev phaseEncMap : BitVec 4 := 4#4
abbrev phaseBpPack : BitVec 4 := 5#4
abbrev phaseFrameEmit : BitVec 4 := 6#4
abbrev phaseFrameParse : BitVec 4 := 8#4
abbrev phaseLenCheck : BitVec 4 := 9#4
abbrev phaseBpUnpack : BitVec 4 := 10#4
abbrev phaseDecWalk : BitVec 4 := 11#4

/-- `OP` while COMPRESS is in progress, and while DECOMPRESS is (R27). -/
abbrev opCompress : Byte := 0x01#8
abbrev opDecompress : Byte := 0x02#8

/-! ### Buffer accesses -/

/-- `MemRead(IBUF, addr, n)` (R66): defined only when `addr + n ≤ IN_LEN`; and no byte of IBUF exists at
or beyond its capacity (R60). -/
def State.memRead (s : State) (addr n : Nat) : Except Fault (List Byte) :=
  if addr + n ≤ s.inLen.toNat ∧ addr + n ≤ s.params.ibufCap.val then .ok (s.ibufBytes addr n)
  else .error .readOutsideInput

/-- `MemWrite(OBUF, addr, n, v)` (R67): defined only when `addr + n ≤ OBUF_CAP`. -/
def State.memWrite (s : State) (addr : Nat) (v : List Byte) : Option State :=
  if addr + v.length ≤ s.params.obufCap.val then some { s with obuf := s.obuf.write addr v } else none

/-! ### Free values of the working state -/

/-- A node of the arena nobody has allocated: any node (U21). -/
def freeNode (seq i : Nat) : Node :=
  if (Config.freeEntry seq 20 i).getLsbD 0 then
    .leaf ((Config.freeEntry seq 21 i).setWidth 8) ((Config.freeEntry seq 22 i).toNat % 2 ^ 40)
  else
    .internal ((Config.freeEntry seq 22 i).toNat % 2 ^ 40) ((Config.freeEntry seq 23 i).toNat % 2 ^ 9)
      ((Config.freeEntry seq 24 i).toNat % 2 ^ 9)

/-- The working state after the end of an operation or an error: unspecified, any value of each register's
width (R262, U21). Every value is a free value; the number names the moment. -/
def Work.free (seq : Nat) : Work where
  k := (Config.freeWord seq 0).toNat % 2 ^ 9
  n := (Config.freeWord seq 1).toNat % 2 ^ 9
  root := (Config.freeWord seq 2).toNat % 2 ^ 9
  t := (Config.freeWord seq 3).toNat
  pad := (Config.freeWord seq 4).toNat % 2 ^ 3
  sc := (Config.freeWord seq 5).toNat % 2 ^ 16
  padf := (Config.freeWord seq 6).toNat % 2 ^ 8
  payOff := (Config.freeWord seq 7).toNat
  payLen := (Config.freeWord seq 8).toNat
  tExp := (Config.freeWord seq 9).toNat
  inPtr := (Config.freeWord seq 10).toNat
  outPtr := (Config.freeWord seq 11).toNat
  bitAcc := (Config.freeWord seq 12).setWidth 8
  bitCnt := (Config.freeWord seq 13).setWidth 3
  present := SymTable.tabulate (fun s => (Config.freeEntry seq 14 s.toNat).getLsbD 0)
  count := SymTable.tabulate (fun s => (Config.freeEntry seq 15 s.toNat).toNat % 2 ^ 32)
  order := (List.range 256).map (fun i => (Config.freeEntry seq 16 i).setWidth 8)
  node := (List.range 511).map (freeNode seq)
  pq := (List.range 511).filter (fun i => (Config.freeEntry seq 17 i).getLsbD 0)
  codeValid := SymTable.tabulate (fun s => (Config.freeEntry seq 18 s.toNat).getLsbD 0)
  codeLen := SymTable.tabulate (fun s => (Config.freeEntry seq 19 s.toNat).toNat % 2 ^ 8)
  code := SymTable.tabulate (fun s => (Config.freeBits seq 0 s.toNat).take 255)
  bits := Config.freeBits seq 1 0
  acc := Config.freeBits seq 2 0
  payload := (Config.freeBits seq 3 0).zipIdx.map (fun p => (Config.freeEntry seq 25 p.2).setWidth 8)

/-- A working state in which `BITACC` and `BITCNT` are free: BP_PACK and BP_UNPACK write them (R28), and
the rules, stated over `BITS` (R36), give them no value. -/
def Work.freeBitRegs (w : Work) (seq : Nat) : Work :=
  { w with bitAcc := (Config.freeWord seq 12).setWidth 8, bitCnt := (Config.freeWord seq 13).setWidth 3 }

/-! ### Start of an operation -/

/-- R51: what the start of every operation makes empty; every other register and table entry keeps its
value, which no phase reads before it is written. -/
def Work.emptied (w : Work) : Work :=
  { w with
    present := Vector.replicate 256 false
    codeValid := Vector.replicate 256 false
    k := 0
    n := 0
    pq := []
    bits := []
    acc := []
    inPtr := 0
    outPtr := 0 }

/-- The start of COMPRESS and of DECOMPRESS, one step (R232, R233): the flags, the result registers, `OP`,
the working state and the first phase; the hand-off of R74 begins. -/
def State.start (s : State) (op : Byte) (phase : BitVec 4) : State :=
  { s.withFlags true false false with
    errKind := 0x00#8
    errCause := 0x00#8
    outLen := 0#64
    op := op
    work := s.work.emptied
    phase := phase
    handoff := true }

/-! ### End of an operation -/

/-- The end of a successful operation, one step (R189, R219): `OUT_LEN <- OUT_PTR`, the error registers
and flags, `OP` and `PHASE`. OBUF is unspecified from `OUT_LEN` on (R62), the working state altogether. -/
def State.finish (s : State) : State :=
  { s.withFlags false true false with
    outLen := BitVec.ofNat 64 s.work.outPtr
    errKind := 0x00#8
    errCause := 0x00#8
    op := 0x00#8
    phase := phaseIdle
    obuf := s.obuf.below s.work.outPtr
    obufEpoch := s.obufEpoch + 1
    work := Work.free s.freeSeq
    freeSeq := s.freeSeq + 1 }

/-! ### Errors -/

/-- The kind a cause belongs to (R252). -/
def ErrCause.kind : ErrCause → ErrKind
  | .hdrTrunc | .tableTrunc | .lenMismatch | .trailingBits => .corruptFrame
  | .symcountRange | .dupSymbol => .invalidInput

/-- The value of `ERR_KIND` (R251). -/
def ErrKind.code : ErrKind → BitVec 8
  | .corruptFrame => 1#8
  | .invalidInput => 2#8

/-- The value of `ERR_CAUSE` (R252). -/
def ErrCause.code : ErrCause → BitVec 8
  | .hdrTrunc => 1#8
  | .tableTrunc => 2#8
  | .lenMismatch => 3#8
  | .trailingBits => 4#8
  | .symcountRange => 5#8
  | .dupSymbol => 6#8

/-- TAKING AN EXCEPTION: the error entry of R262, one step. The kind and cause codes, `OUT_LEN`, the flags,
`OP` and `PHASE`; nothing is saved and control goes to the host. OBUF and the working state become
unspecified; IBUF and `IN_LEN` are unchanged. -/
def State.raise (s : State) (c : ErrCause) : State :=
  { s.withFlags false true true with
    errKind := c.kind.code
    errCause := c.code
    outLen := 0#64
    op := 0x00#8
    phase := phaseIdle
    obuf := []
    obufEpoch := s.obufEpoch + 1
    work := Work.free s.freeSeq
    freeSeq := s.freeSeq + 1 }

/-- THE RETURN FROM AN EXCEPTION, as far as the block has one (R264): what CLEAR does (R234):
`DONE`, `ERR`, `ERR_KIND`, `ERR_CAUSE` and `OUT_LEN` become 0. -/
def State.acknowledge (s : State) : State :=
  { s with
    status := putBit (putBit s.status 1 false) 2 false
    errKind := 0x00#8
    errCause := 0x00#8
    outLen := 0#64 }

/-! ### Reset -/

/-- The reset input (R280), at any time: the state of R50. The parameters are no state of the block, and
the host's own fields are not reset with it. Both buffers hold unspecified bytes afterwards. -/
def State.onReset (s : State) : State :=
  { State.reset with
    params := s.params
    hostQueue := s.hostQueue
    hostData := s.hostData
    ibufEpoch := s.ibufEpoch + 1
    obufEpoch := s.obufEpoch + 1
    freeSeq := s.freeSeq }

/-! ### Sequencing -/

/-- A phase with the working state it leaves and the phase that comes next (R184, R202). -/
def State.advance (s : State) (w : Work) (phase : BitVec 4) : State := { s with work := w, phase := phase }

/-- A phase occurs only under the `OP` values of its row (R104). -/
def underOp (i : Instr) (s : State) (r : Result) : Result :=
  if i.wellFormed s.op then r else .fault .phaseUnderWrongOp

/-- A command is executed only while `STATUS.BUSY = 0` (R230, R284). -/
def whenIdle (s : State) (r : Result) : Result := if s.busy then .refused .commandWhileBusy else r

end Sys2Proof.Machine
end

