-- ==== Sys2Proof/Machine/FrequencyTable.lean ====
section
/-!
DEFINITION. Machine/FrequencyTable.lean: frequency_table, the phase FT_BUILD (R120 to R123).
-/
namespace Sys2Proof.Machine

/-- One iteration of FT_BUILD's loop for the symbol `s` (R120). -/
def Work.countByte (w : Work) (s : Byte) : Work :=
  let w :=
    if SymTable.at w.present s then w
    else
      { w.setOrder w.k s with
        present := SymTable.put w.present s true
        count := SymTable.put w.count s 0
        k := w.k + 1 }
  { w with count := SymTable.put w.count s (SymTable.at w.count s + 1) }

/-- FT_BUILD (R120), with its sequencing (R184): every byte of the input is counted, in ascending offset
order; an empty input skips to FRAME_EMIT with `PAD = T = 0` (R122). The rule's precondition is an empty table
(R51, which every start sets up); on a table that is not empty, to which no start leads and the spec gives no
meaning, the loop counts on top of what is there (DESIGN CHOICE, log entry 20). -/
def execFtBuild (s : State) : Result :=
  underOp .ftBuild s <|
    match s.memRead 0 s.inLen.toNat with
    | .error e => .fault e
    | .ok x =>
      let w := { x.foldl Work.countByte s.work with inPtr := s.inLen.toNat }
      if w.k = 0 then .next (s.advance { w with pad := 0, t := 0 } phaseFrameEmit)
      else .next (s.advance w phaseTreeBuild)

end Sys2Proof.Machine
end

