-- ==== Sys2Proof/Machine/TreeBuilder.lean ====
section
/-!
DEFINITION. Machine/TreeBuilder.lean: the tree builder, the phase TREE_BUILD (R130 to R138). The tree is a
function of the leaves alone (R137), so it is written as one.
-/
namespace Sys2Proof.Machine

/-- `NODE[n].weight` of an entry (R31). -/
def Node.weight : Node → Nat
  | .leaf _ w => w
  | .internal w _ _ => w

/-- The children of an entry, left first (R31). -/
def Node.children : Node → List Nat
  | .leaf _ _ => []
  | .internal _ l r => [l, r]

/-- `weight(n)` in an arena. Every index in `PQ` is allocated, so the last case is never used. -/
def weightAt (arena : List Node) (n : Nat) : Nat :=
  match arena[n]? with
  | some nd => nd.weight
  | none => 0

/-- The order of `extract_min` (R133): smaller weight first, and at equal weights the smaller index. -/
def extractedBefore (arena : List Node) (i j : Nat) : Bool :=
  decide (weightAt arena i < weightAt arena j) || (weightAt arena i == weightAt arena j && decide (i < j))

/-- The index of `PQ` whose pair `(weight(n), n)` is smallest (R133). -/
def minIndex (arena : List Node) : List Nat → Option Nat
  | [] => none
  | i :: rest =>
    match minIndex arena rest with
    | none => some i
    | some j => some (if extractedBefore arena i j then i else j)

/-- `extract_min(PQ)` (R133): the index, and `PQ` without it. -/
def extractMin (arena : List Node) (pq : List Nat) : Option (Nat × List Nat) :=
  match minIndex arena pq with
  | none => none
  | some i => some (i, pq.erase i)

/-- The leaves in leaf order (R131): leaf `j` is arena entry `j`. -/
def leafNodes (leaves : List (Byte × Nat)) : List Node := leaves.map (fun p => .leaf p.1 p.2)

/-- The greedy merge (R130 step 2, R134): while `PQ` holds two or more indices, the two first extracted
become the children of a new node, which enters `PQ` with the next index. The first argument bounds the
number of merges; `K − 1` are made. -/
def mergeNodes : Nat → List Node → List Nat → List Node × List Nat
  | 0, arena, pq => (arena, pq)
  | fuel + 1, arena, pq =>
    match extractMin arena pq with
    | none => (arena, pq)
    | some (a, pq1) =>
      match extractMin arena pq1 with
      | none => (arena, pq)
      | some (b, pq2) =>
        mergeNodes fuel (arena ++ [.internal (weightAt arena a + weightAt arena b) a b])
          (pq2 ++ [arena.length])

/-- The arena and the final `PQ` of the tree of these leaves (R130). -/
def buildTree (leaves : List (Byte × Nat)) : List Node × List Nat :=
  mergeNodes leaves.length (leafNodes leaves) (List.range leaves.length)

/-- TREE_BUILD (R130), with its sequencing (R184, R202). A call with `K = 0` is a fault of the model
(R136), and so is one whose other preconditions do not hold. -/
def execTreeBuild (s : State) : Result :=
  underOp .treeBuild s <|
    if s.work.k = 0 then .fault .treeOfEmptyTable
    else if s.work.n ≠ 0 ∨ s.work.pq ≠ [] then .fault .queueNotEmpty
    else
      match s.work.table with
      | .error e => .fault e
      | .ok leaves =>
        match buildTree leaves with
        | (arena, [root]) =>
          .next (s.advance { s.work with node := arena, n := arena.length, pq := [root], root := root }
            phaseCbDerive)
        | _ => .fault .queueNotSingleton

end Sys2Proof.Machine
end

