-- ==== Sys2Proof/Machine/Codebook.lean ====
section
/-!
DEFINITION. Machine/Codebook.lean: the codebook, the phase CB_DERIVE (R150 to R157).
-/
namespace Sys2Proof.Machine

/-- `visit(n, p)` (R150): the leaves below node `n`, each with its path: "0" to the left, "1" to the right
(R151). The first argument bounds the depth; in a tree no path is longer than the arena. -/
def visit (arena : List Node) : Nat → Nat → Bits → Except Fault (List (Byte × Bits))
  | 0, _, _ => .error .arenaNotATree
  | fuel + 1, n, p =>
    match arena[n]? with
    | none => .error .nodeEntryUnallocated
    | some (.leaf sym _) => .ok [(sym, p)]
    | some (.internal _ l r) =>
      match visit arena fuel l (p ++ [false]) with
      | .error e => .error e
      | .ok left =>
        match visit arena fuel r (p ++ [true]) with
        | .error e => .error e
        | .ok right => .ok (left ++ right)

/-- The codes of a tree (R150): when the root is a leaf the fixed one-bit code "0" (R152), else the paths. -/
def deriveCodes (arena : List Node) (root : Nat) : Except Fault (List (Byte × Bits)) :=
  match arena[root]? with
  | none => .error .nodeEntryUnallocated
  | some (.leaf sym _) => .ok [(sym, [false])]
  | some (.internal _ _ _) => visit arena arena.length root []

/-- `assign(s, p)` (R150): both mappings at once (R154). -/
def Work.assign (w : Work) (a : Byte × Bits) : Work :=
  { w with
    codeValid := SymTable.put w.codeValid a.1 true
    codeLen := SymTable.put w.codeLen a.1 a.2.length
    code := SymTable.put w.code a.1 a.2 }

/-- CB_DERIVE (R150), with its sequencing: ENC_MAP follows in COMPRESS (R184), LEN_CHECK in DECOMPRESS
(R202). A code valid before it that the tree does not assign stays, though no start leads to one (DESIGN CHOICE,
log entry 20). -/
def execCbDerive (s : State) : Result :=
  underOp .cbDerive s <|
    match deriveCodes s.work.arena s.work.root with
    | .error e => .fault e
    | .ok codes =>
      .next (s.advance (codes.foldl Work.assign s.work)
        (if s.op = opCompress then phaseEncMap else phaseLenCheck))

end Sys2Proof.Machine
end

