-- ==== Sys2Proof/Machine/BitPacker.lean ====
section
/-!
DEFINITION. Machine/BitPacker.lean: bit_packer and bit_unpacker, the phases BP_PACK and BP_UNPACK
(R165 to R173).
-/
namespace Sys2Proof.Machine

/-- `(8 − T mod 8) mod 8` (R166). -/
def padOf (t : Nat) : Nat := (8 - t % 8) % 8

/-- The bytes of a bit-string whose length is a multiple of 8, first bit in bit 7 (R65, R165). -/
def packBytes : Bits → List Byte
  | b0 :: b1 :: b2 :: b3 :: b4 :: b5 :: b6 :: b7 :: rest =>
    bitsByte [b0, b1, b2, b3, b4, b5, b6, b7] :: packBytes rest
  | _ => []

/-- `pack(bitstring)` (R165): zero bits on the right up to a multiple of 8, then one byte per 8 bits. -/
def pack (bs : Bits) : List Byte := packBytes (bs ++ List.replicate (padOf bs.length) false)

/-- The bits of a byte sequence, each byte MSB-first (R170). -/
def bytesBits (x : List Byte) : Bits := x.flatMap byteBits

/-- `unpack(bytes, pad_length)` (R170); partial: defined only for `pad_length ≤ 7` and at most the number
of bits there are (R173). -/
def unpack (x : List Byte) (pad : Nat) : Option Bits :=
  if pad ≤ 7 ∧ pad ≤ 8 * x.length then some ((bytesBits x).take (8 * x.length - pad)) else none

/-- One bit shifted into `BITACC` from the right, counted in `BITCNT`; at the eighth the byte is emitted
(R167). The triple is the bytes emitted, `BITACC`, `BITCNT`. -/
def packBit (st : List Byte × Byte × Nat) (b : Bool) : List Byte × Byte × Nat :=
  let acc := (st.2.1 <<< 1) ||| (BitVec.ofBool b).setWidth 8
  if st.2.2 = 7 then (st.1 ++ [acc], acc, 0) else (st.1, acc, st.2.2 + 1)

/-- The streaming form of the packer (R167): the payload and the pad length. No phase uses it; it is the
form the spec calls equivalent to `pack`. -/
def packStream (bs : Bits) : List Byte × Nat :=
  let st := bs.foldl packBit ([], 0#8, 0)
  if st.2.2 = 0 then (st.1, 0) else (st.1 ++ [st.2.1 <<< (8 - st.2.2)], 8 - st.2.2)

/-- BP_PACK (R165), with its sequencing (R184). -/
def execBpPack (s : State) : Result :=
  underOp .bpPack s <|
    if s.work.bits.length ≠ s.work.t then .fault .bitCountMismatch
    else
      let w := { s.work with pad := padOf s.work.t, payload := pack s.work.bits }
      .next ({ s with freeSeq := s.freeSeq + 1 }.advance (w.freeBitRegs s.freeSeq) phaseFrameEmit)

/-- BP_UNPACK (R170), with its sequencing (R202). Only the bits before the last `PADF` are kept, whatever
the dropped bits are (R171). -/
def execBpUnpack (s : State) : Result :=
  underOp .bpUnpack s <|
    match s.memRead s.work.payOff s.work.payLen with
    | .error e => .fault e
    | .ok pay =>
      match unpack pay s.work.padf with
      | none => .fault .unpackOutsidePrecondition
      | some bs =>
        let w := { s.work with bits := bs, inPtr := s.work.payOff + s.work.payLen }
        .next ({ s with freeSeq := s.freeSeq + 1 }.advance (w.freeBitRegs s.freeSeq) phaseDecWalk)

end Sys2Proof.Machine
end

