-- ==== Sys2Proof/Machine/Decoder.lean ====
section
/-!
DEFINITION. Machine/Decoder.lean: the decoder datapath, the phases FRAME_PARSE, LEN_CHECK and DEC_WALK
(R204 to R219).
-/
namespace Sys2Proof.Machine

/-- The entries of a Frame's symbol table (R95, R97): a symbol and its count for every 5 bytes. -/
def tableEntries : List Byte → List (Byte × Nat)
  | s :: c0 :: c1 :: c2 :: c3 :: rest => (s, be32 c0 c1 c2 c3) :: tableEntries rest
  | _ => []

/-- FRAME_PARSE's loop from entry `j` on (R204): `PRESENT`, `COUNT` and `ORDER` of each entry, or none at
the first symbol already present (R207). -/
def Work.addEntries : Work → Nat → List (Byte × Nat) → Option Work
  | w, _, [] => some w
  | w, j, (s, c) :: rest =>
    if SymTable.at w.present s then none
    else
      Work.addEntries
        { w.setOrder j s with present := SymTable.put w.present s true, count := SymTable.put w.count s c }
        (j + 1) rest

/-- FRAME_PARSE (R204), with its sequencing (R202): the checks in the order of R203, the first that fails
raises; an empty table skips to LEN_CHECK (R209). A symbol marked present before it counts as seen, though no
start leads to one (DESIGN CHOICE, log entry 20). -/
def execFrameParse (s : State) : Result :=
  underOp .frameParse s <|
    if s.inLen.toNat < 3 then .next (s.raise .hdrTrunc)
    else
      match s.memRead 0 2, s.memRead 2 1 with
      | .ok [h0, h1], .ok [h2] =>
        let sc := be16 h0 h1
        if sc > 256 then .next (s.raise .symcountRange)
        else if s.inLen.toNat < 3 + 5 * sc then .next (s.raise .tableTrunc)
        else
          match s.memRead 3 (5 * sc) with
          | .error e => .fault e
          | .ok tab =>
            match s.work.addEntries 0 (tableEntries tab) with
            | none => .next (s.raise .dupSymbol)
            | some w =>
              let w :=
                { w with
                  sc := sc
                  padf := h2.toNat
                  k := sc
                  payOff := 3 + 5 * sc
                  payLen := s.inLen.toNat - (3 + 5 * sc)
                  inPtr := 3 + 5 * sc }
              if sc = 0 then .next (s.advance { w with tExp := 0 } phaseLenCheck)
              else .next (s.advance w phaseTreeBuild)
      | _, _ => .fault .readOutsideInput

/-- `Σ COUNT[s] × CODE_LEN[s]` over the entries of a table (R210). -/
def Work.impliedBits (w : Work) : List (Byte × Nat) → Except Fault Nat
  | [] => .ok 0
  | (s, c) :: rest =>
    match w.codeOf s with
    | .error e => .error e
    | .ok (_, len) =>
      match w.impliedBits rest with
      | .error e => .error e
      | .ok t => .ok (c * len + t)

/-- LEN_CHECK (R210), with its sequencing (R202). The comparison is made without subtraction (R112). -/
def execLenCheck (s : State) : Result :=
  underOp .lenCheck s <|
    match s.work.table with
    | .error e => .fault e
    | .ok table =>
      match s.work.impliedBits table with
      | .error e => .fault e
      | .ok tExp =>
        if s.work.padf > 7 then .next (s.raise .lenMismatch)
        else if 8 * s.work.payLen ≠ tExp + s.work.padf then .next (s.raise .lenMismatch)
        else .next (s.advance { s.work with tExp := tExp } phaseBpUnpack)

/-- DEC_WALK's loop (R214): the symbols emitted and the accumulator at the end. The lookup is made after
every single bit. -/
def walk (rev : Bits → Option Byte) : Bits → Bits → List Byte × Bits
  | acc, [] => ([], acc)
  | acc, b :: rest =>
    match rev (acc ++ [b]) with
    | some s =>
      let r := walk rev [] rest
      (s :: r.1, r.2)
    | none => walk rev (acc ++ [b]) rest

/-- DEC_WALK (R214), then the end of the operation (R202, R219) or the error entry. A symbol that would be
written at or beyond `OBUF_CAP` refuses the operation (R63, R214, R67); a DECOMPRESS that was started meets no
such symbol, since its start tests for it (`decompressFits`). -/
def execDecWalk (s : State) : Result :=
  underOp .decWalk s <|
    let r := walk s.work.rev [] s.work.bits
    match s.memWrite 0 r.1 with
    | none => .refused .resultBeyondObuf
    | some s' =>
      if r.2 ≠ [] then .next (s'.raise .trailingBits)
      else .next { s' with work := { s.work with acc := r.2, outPtr := r.1.length } }.finish

end Sys2Proof.Machine
end

