-- ==== Sys2Proof/Machine/Encoder.lean ====
section
/-!
DEFINITION. Machine/Encoder.lean: the encoder datapath, the phases ENC_MAP and FRAME_EMIT (R186 to R189),
and the layout of a Frame (R92 to R96).
-/
namespace Sys2Proof.Machine

/-- The codes of a byte sequence in order, concatenated, and the sum of their lengths (R186). -/
def Work.mapBytes (w : Work) : List Byte → Except Fault (Bits × Nat)
  | [] => .ok ([], 0)
  | s :: rest =>
    match w.codeOf s with
    | .error e => .error e
    | .ok (p, len) =>
      match w.mapBytes rest with
      | .error e => .error e
      | .ok (bs, t) => .ok (p ++ bs, len + t)

/-- ENC_MAP (R186), with its sequencing (R184): the input is read a second time, in ascending order. -/
def execEncMap (s : State) : Result :=
  underOp .encMap s <|
    match s.memRead 0 s.inLen.toNat with
    | .error e => .fault e
    | .ok x =>
      match s.work.mapBytes x with
      | .error e => .fault e
      | .ok (bs, t) => .next (s.advance { s.work with bits := bs, t := t, inPtr := s.inLen.toNat } phaseBpPack)

/-- One entry of a Frame's symbol table (R95): the symbol, then its count big-endian. -/
def entryBytes (p : Byte × Nat) : List Byte := p.1 :: be32Bytes p.2

/-- The bytes of a Frame (R92): `symbol_count`, `pad_length`, the symbol table, the payload. -/
def frameBytes (table : List (Byte × Nat)) (pad : Nat) (payload : List Byte) : List Byte :=
  be16Bytes table.length ++ [BitVec.ofNat 8 pad] ++ table.flatMap entryBytes ++ payload

/-- FRAME_EMIT (R188), then the end of the operation (R184, R189). A Frame longer than `OBUF_CAP` is
refused (R63). -/
def execFrameEmit (s : State) : Result :=
  underOp .frameEmit s <|
    match s.work.table with
    | .error e => .fault e
    | .ok table =>
      let p := (s.work.t + 7) / 8
      if s.work.payload.length < p then .fault .payloadTooShort
      else
        let frame := frameBytes table s.work.pad (s.work.payload.take p)
        match s.memWrite 0 frame with
        | none => .refused .resultBeyondObuf
        | some s' => .next { s' with work := { s.work with outPtr := 3 + 5 * s.work.k + p } }.finish

end Sys2Proof.Machine
end

