-- ==== Sys2Proof/Machine/Codec.lean ====
section
/-!
DEFINITION. Machine/Codec.lean: the two operations as functions of a byte sequence, `compress` (R180) and
`decompress` (R200). They are written over lists, without the block's registers and tables; the commands
use them to say which results fit in OBUF (R63), and the phases are to be shown to compute them.
-/
namespace Sys2Proof.Machine

/-- One more occurrence of `s` in a frequency table kept in order of first occurrence (R123). -/
def bumpCount : List (Byte × Nat) → Byte → List (Byte × Nat)
  | [], s => [(s, 1)]
  | (t, c) :: rest, s => if t = s then (t, c + 1) :: rest else (t, c) :: bumpCount rest s

/-- FT_BUILD as a function (R120): each distinct byte with its count, in order of first occurrence. -/
def countSymbols (x : List Byte) : List (Byte × Nat) := x.foldl bumpCount []

/-- The codes of the tree of a table (R130, R150); an empty table has none (R122, R209). -/
def codesOf (table : List (Byte × Nat)) : List (Byte × Bits) :=
  match buildTree table with
  | (arena, [root]) =>
    match deriveCodes arena root with
    | .ok codes => codes
    | .error _ => []
  | _ => []

/-- The code of a symbol. Every byte of an input has one (R121, R35 (i)). -/
def codeIn (codes : List (Byte × Bits)) (s : Byte) : Bits :=
  match codes.find? (fun a => a.1 == s) with
  | some a => a.2
  | none => []

/-- `REV` of a code table (R34). -/
def revIn (codes : List (Byte × Bits)) (b : Bits) : Option Byte :=
  match codes.find? (fun a => a.2 == b) with
  | some a => some a.1
  | none => none

/-- The codes of the bytes of `x`, concatenated in order (R180, R186). -/
def encodeBits (codes : List (Byte × Bits)) (x : List Byte) : Bits := x.flatMap (codeIn codes)

/-- `compress` (R180), which the spec defines for at most `2^32 − 1` bytes only. On a longer sequence the model
gives a value too, with each count's low 32 bits in the table (DESIGN CHOICE, log entry 19: nothing of it is the
spec's); COMPRESS refuses such an input before it is used (R182). -/
def compress (x : List Byte) : List Byte :=
  let table := countSymbols x
  if table = [] then [0x00#8, 0x00#8, 0x00#8]
  else
    let bs := encodeBits (codesOf table) x
    frameBytes table (padOf bs.length) (pack bs)

/-- A Frame taken apart (R92): its symbol table, its `pad_length` field and its payload. -/
structure Parsed where
  table : List (Byte × Nat)
  padf : Nat
  payload : List Byte
  deriving DecidableEq, Repr

/-- The header and table checks and the fields of a Frame (R200, R203). -/
def parseFrame : List Byte → Except ErrCause Parsed
  | h0 :: h1 :: h2 :: rest =>
    if be16 h0 h1 > 256 then .error .symcountRange
    else if rest.length < 5 * be16 h0 h1 then .error .tableTrunc
    else
      let table := tableEntries (rest.take (5 * be16 h0 h1))
      if (table.map Prod.fst).Nodup then .ok ⟨table, h2.toNat, rest.drop (5 * be16 h0 h1)⟩
      else .error .dupSymbol
  | _ => .error .hdrTrunc

/-- `T_EXP` of a table under a code table (R200, R210). -/
def impliedLength (codes : List (Byte × Bits)) (table : List (Byte × Nat)) : Nat :=
  (table.map (fun p => p.2 * (codeIn codes p.1).length)).sum

/-- The bits of a Frame's payload and the codes to read them with, once LEN_CHECK has passed (R200). -/
def openFrame (f : List Byte) : Except ErrCause (List (Byte × Bits) × Bits) :=
  match parseFrame f with
  | .error e => .error e
  | .ok h =>
    let codes := codesOf h.table
    if h.padf > 7 ∨ 8 * h.payload.length ≠ impliedLength codes h.table + h.padf then .error .lenMismatch
    else
      match unpack h.payload h.padf with
      | none => .error .lenMismatch
      | some bs => .ok (codes, bs)

/-- The symbols the walk over a Frame's payload emits, whether or not bits are left over at its end: what
DEC_WALK writes to OBUF (R214). A Frame that does not open emits none. -/
def emittedSymbols (f : List Byte) : List Byte :=
  match openFrame f with
  | .error _ => []
  | .ok (codes, bs) => (walk (revIn codes) [] bs).1

/-- The node reached from node `n` by a path, "0" to the left and "1" to the right (R151). -/
def follow (arena : List Node) : Nat → Bits → Option Nat
  | n, [] => some n
  | n, b :: p =>
    match arena[n]? with
    | some (.internal _ l r) => follow arena (if b then r else l) p
    | _ => none

/-- The tree-walk form of DEC_WALK (R216): from `ROOT`, a bit selects a child; at a leaf its symbol is
emitted and the walk returns to `ROOT`. When `ROOT` is itself a leaf, "0" emits it and "1" enters a dead
state that lasts to the end. The symbols emitted, and whether the walk ends at `ROOT`. No phase uses it;
it is the form the spec calls the same as the lookup. -/
def treeWalk (arena : List Node) (root : Nat) : Nat → Bits → List Byte × Bool
  | n, [] => ([], n == root)
  | n, b :: rest =>
    match arena[n]? with
    | some (.leaf s _) =>
      if b then ([], false)
      else
        let r := treeWalk arena root root rest
        (s :: r.1, r.2)
    | some (.internal _ l r) =>
      match arena[if b then r else l]? with
      | some (.leaf s _) =>
        let q := treeWalk arena root root rest
        (s :: q.1, q.2)
      | _ => treeWalk arena root (if b then r else l) rest
    | none => ([], false)

/-- `decompress` (R200). -/
def decompress (f : List Byte) : Except ErrCause (List Byte) :=
  match openFrame f with
  | .error e => .error e
  | .ok (codes, bs) =>
    let r := walk (revIn codes) [] bs
    if r.2 ≠ [] then .error .trailingBits else .ok r.1

end Sys2Proof.Machine
end

