-- ==== Sys2Proof/Machine/HostCommands.lean ====
section
/-!
DEFINITION. Machine/HostCommands.lean: the four host commands (R231 to R234).
-/
namespace Sys2Proof.Machine

/-- NOP (R231): no state changes. -/
def execNop (s : State) : Result := whenIdle s (.next s)

/-- COMPRESS (R232): the start, when the preconditions hold, else refused. -/
def execCompress (s : State) : Result :=
  whenIdle s <|
    if s.params.ibufCap.val < s.inLen.toNat then .refused .inputBeyondIbuf
    else if inLenMaxCompress < s.inLen.toNat then .refused .inputBeyondCompressLimit
    else if s.params.obufCap.val < (compress s.input).length then .refused .resultBeyondObuf
    else .next (s.start opCompress phaseFtBuild)

/-- Whether every byte DECOMPRESS would write has a place in OBUF (R63: an operation that would write beyond it
"is refused from its start"): the bytes of a Frame that decodes (R233), and those a failing walk emits before
it raises (R214; DEDUCED, log entry 10). -/
def decompressFits (s : State) : Bool := decide ((emittedSymbols s.input).length ≤ s.params.obufCap.val)

/-- DECOMPRESS (R233): the start, when the preconditions hold, else refused. A Frame that is too short is an
error of the operation, no refusal. -/
def execDecompress (s : State) : Result :=
  whenIdle s <|
    if s.params.ibufCap.val < s.inLen.toNat then .refused .inputBeyondIbuf
    else if decompressFits s then .next (s.start opDecompress phaseFrameParse)
    else .refused .resultBeyondObuf

/-- CLEAR (R234): the result of the last operation is acknowledged; nothing else changes. -/
def execClear (s : State) : Result := whenIdle s (.next s.acknowledge)

end Sys2Proof.Machine
end

