-- ==== Sys2Proof/Machine/Dispatch.lean ====
section
/-!
DEFINITION. Machine/Dispatch.lean: one arm per operation of the opcode table, each one call of its meaning.
-/
namespace Sys2Proof.Machine
open Sys2Proof

def exec (i : Instr) (s : State) : Host.Outcome State Fault Refusal :=
  match i with
  | .nop => Sys2Proof.Machine.execNop s
  | .compress => Sys2Proof.Machine.execCompress s
  | .decompress => Sys2Proof.Machine.execDecompress s
  | .clear => Sys2Proof.Machine.execClear s
  | .ftBuild => Sys2Proof.Machine.execFtBuild s
  | .treeBuild => Sys2Proof.Machine.execTreeBuild s
  | .cbDerive => Sys2Proof.Machine.execCbDerive s
  | .encMap => Sys2Proof.Machine.execEncMap s
  | .bpPack => Sys2Proof.Machine.execBpPack s
  | .frameEmit => Sys2Proof.Machine.execFrameEmit s
  | .frameParse => Sys2Proof.Machine.execFrameParse s
  | .lenCheck => Sys2Proof.Machine.execLenCheck s
  | .bpUnpack => Sys2Proof.Machine.execBpUnpack s
  | .decWalk => Sys2Proof.Machine.execDecWalk s

end Sys2Proof.Machine
end

