-- ==== Sys2Proof/Machine/HostAccess.lean ====
section
/-!
DEFINITION. Machine/HostAccess.lean: the two agents' moves (R21): one phase of the sequencer, and one
action of the host (R230, R235, R280, R284, R285; LOAD, WAIT and COPY of R110); and where the next
operation is fetched from.
-/
namespace Sys2Proof.Machine

/-- The sequencer's move (R21, R184, R202): while BUSY = 1 it runs the phase in `PHASE`; an idle block
changes no state of its own accord (R230). -/
def sequencerMove (s : State) : Result :=
  if s.busy then
    match decodePhase s.phase with
    | .ok i => exec i s
    | .error _ => .refused (.phaseNotEntered s.phase)
  else .next s

/-- A host write of `CMD` (R23, R230): refused while busy (R284) and for a reserved code (R108). -/
def writeCmd (c : Byte) (s : State) : Result :=
  if s.busy then .refused .commandWhileBusy
  else
    match decodeCmd c with
    | .ok i => exec i s
    | .error _ => .refused (.reservedCommand c)

/-- An access the host may make while idle, and not between the start of an operation and a `STATUS` read
that returns DONE = 1 (R74 (c), R285). -/
def afterHandoff (s : State) (r : Result) : Result :=
  if s.busy then .refused .accessWhileBusy
  else if s.handoff then .refused .accessBeforeDoneRead
  else r

/-- The value a host read returns; a `STATUS` read that returns DONE = 1 ends the hand-off (R74 (b)). -/
def State.answer (s : State) (v : BitVec 64) : State := { s with hostData := v }

/-- A host read of a register (R235): `STATUS` at any time; the others while idle and once the hand-off has
ended (R74 (c), R285); `CMD` never (R22). -/
def readReg (r : HostReg) (s : State) : Result :=
  match r with
  | .cmd => .refused .readOfCommand
  | .status => .next { s.answer (s.status.setWidth 64) with handoff := s.handoff && !s.done }
  | .inLen => afterHandoff s (.next (s.answer s.inLen))
  | .errKind => afterHandoff s (.next (s.answer (s.errKind.setWidth 64)))
  | .errCause => afterHandoff s (.next (s.answer (s.errCause.setWidth 64)))
  | .outLen => afterHandoff s (.next (s.answer s.outLen))

/-- The bytes `x` written to IBUF from offset 0 and their number to `IN_LEN`: LOAD (R110). -/
def State.loaded (s : State) (x : List Byte) : State :=
  { s with ibuf := s.ibuf.write 0 x, inLen := BitVec.ofNat 64 x.length }

/-- Whether the bytes of a LOAD or COPY have a place in IBUF (R60, U47). -/
def loadInput (x : List Byte) (s : State) : Result :=
  if x.length ≤ s.params.ibufCap.val then .next (s.loaded x) else .refused .offsetBeyondCapacity

/-- One action of the host; `s` no longer holds it in its queue, `held` still does. `waitDone` reads
`STATUS` (WAIT, R110): while DONE = 0 the action stays and the sequencer moves. -/
def hostMove (a : HostAction) (held s : State) : Result :=
  match a with
  | .writeCmd c => writeCmd c s
  | .writeInLen len => afterHandoff s (.next { s with inLen := len })
  | .writeStatus _ => .refused .writeOfReadOnly
  | .writeErrKind _ => .refused .writeOfReadOnly
  | .writeErrCause _ => .refused .writeOfReadOnly
  | .writeOutLen _ => .refused .writeOfReadOnly
  | .readReg r => readReg r s
  | .writeIbuf off b =>
    afterHandoff s <|
      if off < s.params.ibufCap.val then .next { s with ibuf := s.ibuf.set off b }
      else .refused .offsetBeyondCapacity
  | .readIbuf _ => .refused .accessNotGiven
  | .readObuf off =>
    afterHandoff s <|
      if off < s.params.obufCap.val then .next (s.answer ((s.obufByte off).setWidth 64))
      else .refused .offsetBeyondCapacity
  | .writeObuf _ _ => .refused .accessNotGiven
  | .load bytes => afterHandoff s (loadInput bytes s)
  | .waitDone => if s.done then readReg .status s else sequencerMove held
  | .copy => afterHandoff s (loadInput s.output s)
  | .tick => sequencerMove s
  | .reset => .next s.onReset

/-- One step of the machine (R21): the host's next action if it has one, else the sequencer's move. -/
def machineMove (s : State) : Result :=
  match s.hostQueue with
  | [] => sequencerMove s
  | a :: rest => hostMove a s { s with hostQueue := rest }

/-- The state whose very next step runs the operation an opcode-table word stands for: a command as the
host's next action; a phase as the sequencer's, under an `OP` its row lists, with BUSY = 1 (R27). -/
def placeTableWord (s : State) (nbits w : Nat) : State :=
  match tableCode nbits w with
  | some (.cmd c) => { s with hostQueue := .writeCmd c :: s.hostQueue }
  | some (.phase p) =>
    let op :=
      match decodePhase p with
      | .ok i => if i.wellFormed s.op then s.op else i.opValues.headD s.op
      | .error _ => s.op
    { s.withFlags true false false with
      phase := p
      op := op
      handoff := true
      hostQueue := .tick :: s.hostQueue }
  | none => s

end Sys2Proof.Machine
end

