-- ==== Sys2Proof/Machine/Step.lean ====
section
/-!
DEFINITION. Machine/Step.lean: one step of the machine, and the placement of an opcode-table word where the
next step finds it.
-/
namespace Sys2Proof.Machine

/-- One step: `machineMove`. -/
def step (s : State) : Host.Outcome State Fault Refusal := machineMove s

/-- `s` with an opcode-table word placed so that the very next step runs it: `placeTableWord`. -/
def State.withFetchWord (s : State) (nbits w : Nat) : State := placeTableWord s nbits w

end Sys2Proof.Machine
end

