-- ==== Sys2Proof/Safety.lean ====
section
/-!
DEFINITION. Safety.lean: the terms the statements use: many steps, the invariants of the machine (R24, R25,
R27, R60), what a step may leave unchanged, and when an operation may start.
-/
namespace Sys2Proof.Machine

/-- `n` steps, stopping at the first fault or refusal. -/
def runSteps : Nat → State → Result
  | 0, s => .next s
  | n + 1, s =>
    match step s with
    | .next t => runSteps n t
    | .fault f => .fault f
    | .refused r => .refused r

/-- The error codes that are produced (R251, R252): a cause with the code of its kind. -/
abbrev ErrCodesLegal (kind cause : BitVec 8) : Prop :=
  (kind = 1#8 ∧ (cause = 1#8 ∨ cause = 2#8 ∨ cause = 3#8 ∨ cause = 4#8)) ∨
    (kind = 2#8 ∧ (cause = 5#8 ∨ cause = 6#8))

/-- The phases each operation passes through (R27, R104): `PHASE` and `OP` of a busy block. -/
abbrev PhaseLegal (op : Byte) (phase : BitVec 4) : Prop :=
  (op = opCompress ∧ (phase = 1#4 ∨ phase = 2#4 ∨ phase = 3#4 ∨ phase = 4#4 ∨ phase = 5#4 ∨ phase = 6#4)) ∨
    (op = opDecompress ∧
      (phase = 8#4 ∨ phase = 2#4 ∨ phase = 3#4 ∨ phase = 9#4 ∨ phase = 10#4 ∨ phase = 11#4))

/-- The host-visible state of a busy block (R232, R233): `STATUS = 0x01`, no result. -/
abbrev BusyState (s : State) : Prop :=
  s.status = 0x01#8 ∧ s.errKind = 0#8 ∧ s.errCause = 0#8 ∧ s.outLen = 0#64 ∧ s.handoff = true ∧
    PhaseLegal s.op s.phase

/-- The host-visible state of an idle block: nothing pending (R50, R234), a success (R189, R219) or an
error (R262). -/
abbrev IdleState (s : State) : Prop :=
  s.phase = phaseIdle ∧ s.op = 0x00#8 ∧
    ((s.status = 0x00#8 ∧ s.errKind = 0#8 ∧ s.errCause = 0#8 ∧ s.outLen = 0#64) ∨
      (s.status = 0x02#8 ∧ s.errKind = 0#8 ∧ s.errCause = 0#8 ∧ s.outLen.toNat ≤ s.params.obufCap.val) ∨
      (s.status = 0x06#8 ∧ ErrCodesLegal s.errKind s.errCause ∧ s.outLen = 0#64))

/-- The control invariant (R24, R25, R27): the block is busy in a phase of its operation, or idle with one
of the three kinds of result. -/
abbrev CtrlInv (s : State) : Prop := BusyState s ∨ IdleState s

/-- The buffer invariant (R60): both buffers canonical and inside their capacities. -/
abbrev BufInv (s : State) : Prop :=
  s.ibuf.wf ∧ s.ibuf.within s.params.ibufCap.val ∧ s.obuf.wf ∧ s.obuf.within s.params.obufCap.val

/-- The working state an operation starts with (R51). -/
abbrev WorkEmpty (w : Work) : Prop :=
  w.k = 0 ∧ w.n = 0 ∧ w.pq = [] ∧ w.bits = [] ∧ w.acc = [] ∧ w.inPtr = 0 ∧ w.outPtr = 0 ∧
    (∀ b : Byte, SymTable.at w.present b = false) ∧ (∀ b : Byte, SymTable.at w.codeValid b = false)

/-- What no phase and no command changes: the input and its length, the capacities and the host's side. -/
def KeepsInput (s t : State) : Prop :=
  t.inLen = s.inLen ∧ (∀ a, t.ibufByte a = s.ibufByte a) ∧ t.params = s.params ∧
    t.hostQueue = s.hostQueue ∧ t.hostData = s.hostData

/-- What a phase that neither ends the operation nor raises leaves unchanged: all of the above, the host
registers, `OP`, the hand-off and every byte of OBUF. -/
def KeepsHostSide (s t : State) : Prop :=
  KeepsInput s t ∧ t.status = s.status ∧ t.errKind = s.errKind ∧ t.errCause = s.errCause ∧
    t.outLen = s.outLen ∧ t.op = s.op ∧ t.handoff = s.handoff ∧ (∀ a, t.obufByte a = s.obufByte a)

/-- The end of a successful operation as the host sees it (R189, R219). -/
def EndedWell (t : State) : Prop :=
  t.busy = false ∧ t.done = true ∧ t.err = false ∧ t.errKind = 0#8 ∧ t.errCause = 0#8 ∧ t.op = 0x00#8 ∧
    t.phase = phaseIdle

/-- The state the error entry leaves, as the host sees it (R262). -/
def EndedInError (c : ErrCause) (t : State) : Prop :=
  t.busy = false ∧ t.done = true ∧ t.err = true ∧ t.errKind = c.kind.code ∧ t.errCause = c.code ∧
    t.outLen = 0#64 ∧ t.op = 0x00#8 ∧ t.phase = phaseIdle

/-- The preconditions of COMPRESS (R232). -/
abbrev CompressAllowed (s : State) : Prop :=
  s.busy = false ∧ s.inLen.toNat ≤ s.params.ibufCap.val ∧ s.inLen.toNat ≤ inLenMaxCompress ∧
    (compress s.input).length ≤ s.params.obufCap.val

/-- The preconditions of DECOMPRESS (R233), the bound of R63 on what it would write among them: the decoded
bytes, or those a failing walk emits (log entry 10). -/
abbrev DecompressAllowed (s : State) : Prop :=
  s.busy = false ∧ s.inLen.toNat ≤ s.params.ibufCap.val ∧
    (emittedSymbols s.input).length ≤ s.params.obufCap.val

/-! ### The Frame in IBUF (R92, R95, R97) -/

/-- The `symbol_count` field of the Frame in IBUF. -/
abbrev State.frameSc (s : State) : Nat := be16 (s.ibufByte 0) (s.ibufByte 1)

/-- The symbol of entry `j` of the Frame in IBUF. -/
abbrev State.frameSymbol (s : State) (j : Nat) : Byte := s.ibufByte (3 + 5 * j)

/-- The count of entry `j` of the Frame in IBUF. -/
abbrev State.frameCount (s : State) (j : Nat) : Nat :=
  be32 (s.ibufByte (4 + 5 * j)) (s.ibufByte (5 + 5 * j)) (s.ibufByte (6 + 5 * j)) (s.ibufByte (7 + 5 * j))

/-- The symbols of the Frame in IBUF, in the order of its entries. -/
abbrev State.frameSymbols (s : State) : List Byte := (List.range s.frameSc).map s.frameSymbol

/-- The `symbol_count` field of a Frame given as bytes. -/
abbrev scOf (f : List Byte) : Nat := be16 (f.getD 0 0#8) (f.getD 1 0#8)

/-- The symbols of a Frame given as bytes. -/
abbrev symbolsOf (f : List Byte) : List Byte := (List.range (scOf f)).map (fun j => f.getD (3 + 5 * j) 0#8)

/-! ### Host actions by what they touch -/

/-- The host actions that write IBUF or `IN_LEN`, the reset input among them (R26, R50). -/
def HostAction.writesInput : HostAction → Bool
  | .writeInLen _ | .writeIbuf _ _ | .load _ | .copy | .reset => true
  | .writeCmd _ | .writeStatus _ | .writeErrKind _ | .writeErrCause _ | .writeOutLen _ | .readReg _
  | .readIbuf _ | .readObuf _ | .writeObuf _ _ | .waitDone | .tick => false

/-- The host actions that can change the result of the last operation: a `CMD` write and reset (R290). -/
def HostAction.endsResult : HostAction → Bool
  | .writeCmd _ | .reset => true
  | .writeInLen _ | .writeStatus _ | .writeErrKind _ | .writeErrCause _ | .writeOutLen _ | .readReg _
  | .writeIbuf _ _ | .readIbuf _ | .readObuf _ | .writeObuf _ _ | .load _ | .waitDone | .copy | .tick => false

end Sys2Proof.Machine
end

