-- ==== Sys2Proof/Certificates/Slice0/Obligations.lean ====
section
/-!
DEFINITION. Certificates/Slice0/Obligations.lean: the statements about the machine, each a Prop, each after
the rule of the spec its docstring names.
-/
open Sys2Proof Sys2Proof.Machine

/-! ### Codes -/

/-- R103, R108: the four command codes, and every other byte is reserved. -/
def Obligations.CommandByteDecodesAsItsRow : Prop :=
  decodeCmd 0x00#8 = .ok .nop ∧ decodeCmd 0x01#8 = .ok .compress ∧ decodeCmd 0x02#8 = .ok .decompress ∧
    decodeCmd 0x03#8 = .ok .clear ∧ ∀ c : Byte, 4 ≤ c.toNat → decodeCmd c = .error (.reservedCommand c)

/-- R27: the ten phase codes; 0 is IDLE; 7 and 12 to 15 are never entered. -/
def Obligations.PhaseCodeDecodesAsItsRow : Prop :=
  decodePhase 1#4 = .ok .ftBuild ∧ decodePhase 2#4 = .ok .treeBuild ∧ decodePhase 3#4 = .ok .cbDerive ∧
    decodePhase 4#4 = .ok .encMap ∧ decodePhase 5#4 = .ok .bpPack ∧ decodePhase 6#4 = .ok .frameEmit ∧
    decodePhase 8#4 = .ok .frameParse ∧ decodePhase 9#4 = .ok .lenCheck ∧
    decodePhase 10#4 = .ok .bpUnpack ∧ decodePhase 11#4 = .ok .decWalk ∧
    decodePhase 0#4 = .error .idlePhase ∧
    ∀ p : BitVec 4, p = 7#4 ∨ 12 ≤ p.toNat → decodePhase p = .error (.reservedPhase p)

/-- R103, R104: no bit of a code is dropped, in either direction: decoding the code of an operation gives
it back, and a code that decodes to an operation is that operation's code. -/
def Obligations.EncodedOperationDecodesToItself : Prop :=
  (∀ i : Instr, decode (encode i) = .ok i) ∧ ∀ (c : Code) (i : Instr), decode c = .ok i → encode i = c

/-! ### Steps -/

/-- R21, R27: while BUSY = 1 a step of the sequencer runs the operation that `PHASE` stands for; with no
host action pending, with a `tick`, or with a WAIT whose DONE is still 0. -/
def Obligations.StepRunsTheDecodedPhase : Prop :=
  ∀ (s : State) (i : Instr), s.busy = true → decodePhase s.phase = .ok i →
    (s.hostQueue = [] → step s = exec i s) ∧
    (∀ rest, s.hostQueue = .tick :: rest → step s = exec i { s with hostQueue := rest }) ∧
    (∀ rest, s.hostQueue = .waitDone :: rest → s.done = false → step s = exec i s)

/-- R23, R230: a `CMD` write of a command code while BUSY = 0 executes that command. -/
def Obligations.StepRunsTheWrittenCommand : Prop :=
  ∀ (s : State) (c : Byte) (rest : List HostAction) (i : Instr), s.hostQueue = .writeCmd c :: rest →
    s.busy = false → decodeCmd c = .ok i → step s = exec i { s with hostQueue := rest }

/-- R284, R108: a `CMD` write while BUSY = 1 is refused, and so is a reserved code. -/
def Obligations.CommandWriteIsRefused : Prop :=
  ∀ (s : State) (c : Byte) (rest : List HostAction), s.hostQueue = .writeCmd c :: rest →
    (s.busy = true → step s = .refused .commandWhileBusy) ∧
    (s.busy = false → 4 ≤ c.toNat → step s = .refused (.reservedCommand c))

/-- R230: "While idle the block changes no state of its own accord." -/
def Obligations.IdleBlockChangesNothing : Prop :=
  ∀ s : State, s.busy = false →
    (s.hostQueue = [] → step s = .next s) ∧
    (∀ rest, s.hostQueue = .tick :: rest → step s = .next { s with hostQueue := rest })

/-! ### Reset -/

/-- R280, R50: reset at any time, idle or busy. That the capacities and the rest of the host's actions stay is
the model's choice (log entry 16), no rule of the spec. -/
def Obligations.ResetEntersTheResetState : Prop :=
  ∀ (s : State) (rest : List HostAction), s.hostQueue = .reset :: rest →
    ∃ t, step s = .next t ∧ t.status = 0x00#8 ∧ t.errKind = 0x00#8 ∧ t.errCause = 0x00#8 ∧
      t.inLen = 0#64 ∧ t.outLen = 0#64 ∧ t.phase = phaseIdle ∧ t.op = 0x00#8 ∧
      (∀ a, t.ibufByte a = Config.freeIbufByte t.ibufEpoch a) ∧
      (∀ a, t.obufByte a = Config.freeObufByte t.obufEpoch a) ∧
      t.params = s.params ∧ t.hostQueue = rest

/-- The two invariants hold right after reset. -/
def Obligations.ResetStateMeetsTheInvariants : Prop := CtrlInv State.reset ∧ BufInv State.reset

/-! ### Invariants -/

/-- R24, R25, R27: every step keeps the control invariant: `STATUS` is 0x00, 0x01, 0x02 or 0x06; BUSY = 1
exactly while `PHASE` is a phase of the operation in `OP`; a result, an error and their codes go together. -/
def Obligations.StepKeepsTheControlInvariant : Prop :=
  ∀ s t : State, CtrlInv s → step s = .next t → CtrlInv t

/-- R60, R63: every step keeps both buffers canonical and inside their capacities. -/
def Obligations.StepKeepsTheBuffersCanonical : Prop :=
  ∀ s t : State, BufInv s → step s = .next t → BufInv t

/-! ### The host's accesses -/

/-- R74 (c), R235, R285: what the host may not do, and is refused for. A read of IBUF and a write of OBUF, to
which R60 gives the host no right, are refused at any time (log entry 15). -/
def Obligations.HostMisuseIsRefused : Prop :=
  ∀ (s : State) (a : HostAction) (rest : List HostAction), s.hostQueue = a :: rest →
    (a = .readReg .cmd → step s = .refused .readOfCommand) ∧
    (∀ v, a = .writeStatus v ∨ a = .writeErrKind v ∨ a = .writeErrCause v →
      step s = .refused .writeOfReadOnly) ∧
    (∀ v, a = .writeOutLen v → step s = .refused .writeOfReadOnly) ∧
    (∀ off b, a = .writeObuf off b → step s = .refused .accessNotGiven) ∧
    (∀ off, a = .readIbuf off → step s = .refused .accessNotGiven) ∧
    (a = .copy ∨ a = .readReg .errKind ∨ a = .readReg .errCause ∨ a = .readReg .inLen ∨
        a = .readReg .outLen ∨ (∃ v, a = .writeInLen v) ∨ (∃ x, a = .load x) ∨ (∃ off, a = .readObuf off) ∨
        (∃ off b, a = .writeIbuf off b) →
      (s.busy = true → step s = .refused .accessWhileBusy) ∧
      (s.busy = false → s.handoff = true → step s = .refused .accessBeforeDoneRead))

/-- R235: a read of `STATUS`, at any time, returns the register and changes nothing in the block; DONE is
not cleared by reading. Only the hand-off of R74 (b) ends, when the value read has DONE = 1. -/
def Obligations.StatusReadHasNoSideEffect : Prop :=
  ∀ (s : State) (rest : List HostAction), s.hostQueue = .readReg .status :: rest →
    step s = .next { s with
      hostQueue := rest, hostData := s.status.setWidth 64, handoff := s.handoff && !s.done }

/-- R235, R60: while idle and with the hand-off over, a read of a register or of an OBUF byte returns its
value and changes nothing in the block; an OBUF offset at or beyond the capacity is refused. While idle with
the hand-off pending, R74 (c) allows none of these reads, `IN_LEN` among them. -/
def Obligations.IdleReadsReturnTheValue : Prop :=
  (∀ (s : State) (a : HostAction) (rest : List HostAction), s.busy = false → s.handoff = true →
    s.hostQueue = a :: rest →
    a = .readReg .errKind ∨ a = .readReg .errCause ∨ a = .readReg .inLen ∨ a = .readReg .outLen ∨
      (∃ off, a = .readObuf off) → step s = .refused .accessBeforeDoneRead) ∧
  ∀ (s : State) (rest : List HostAction), s.busy = false → s.handoff = false →
    (s.hostQueue = .readReg .errKind :: rest →
      step s = .next { s with hostQueue := rest, hostData := s.errKind.setWidth 64 }) ∧
    (s.hostQueue = .readReg .errCause :: rest →
      step s = .next { s with hostQueue := rest, hostData := s.errCause.setWidth 64 }) ∧
    (s.hostQueue = .readReg .inLen :: rest →
      step s = .next { s with hostQueue := rest, hostData := s.inLen }) ∧
    (s.hostQueue = .readReg .outLen :: rest →
      step s = .next { s with hostQueue := rest, hostData := s.outLen }) ∧
    ∀ off, s.hostQueue = .readObuf off :: rest →
      (off < s.params.obufCap.val →
        step s = .next { s with hostQueue := rest, hostData := (s.obufByte off).setWidth 64 }) ∧
      (s.params.obufCap.val ≤ off → step s = .refused .offsetBeyondCapacity)

/-- R110 (LOAD, COPY), R60, R287: the bytes the host moves become the operation's input; every other byte of
IBUF, OBUF and everything else stay; bytes that have no place in IBUF are refused. -/
def Obligations.LoadAndCopyWriteTheInput : Prop :=
  ∀ (s : State) (x : List Byte) (rest : List HostAction), s.busy = false → s.handoff = false → s.ibuf.wf →
    (s.hostQueue = .load x :: rest ∨ (s.hostQueue = .copy :: rest ∧ x = s.output)) →
    (x.length ≤ s.params.ibufCap.val →
      ∃ t, step s = .next t ∧ t.input = x ∧ (∀ a, x.length ≤ a → t.ibufByte a = s.ibufByte a) ∧
        t = { s with hostQueue := rest, ibuf := t.ibuf, inLen := t.inLen }) ∧
    (s.params.ibufCap.val < x.length → step s = .refused .offsetBeyondCapacity)

/-- R26, R60: host writes of one IBUF byte and of `IN_LEN`. -/
def Obligations.InputWritesLand : Prop :=
  ∀ (s : State) (rest : List HostAction), s.busy = false → s.handoff = false → s.ibuf.wf →
    (∀ v, s.hostQueue = .writeInLen v :: rest → step s = .next { s with hostQueue := rest, inLen := v }) ∧
    (∀ off b, s.hostQueue = .writeIbuf off b :: rest → off < s.params.ibufCap.val →
      ∃ t, step s = .next t ∧ t.ibufByte off = b ∧ (∀ a, a ≠ off → t.ibufByte a = s.ibufByte a) ∧
        t = { s with hostQueue := rest, ibuf := t.ibuf }) ∧
    (∀ off b, s.hostQueue = .writeIbuf off b :: rest → s.params.ibufCap.val ≤ off →
      step s = .refused .offsetBeyondCapacity)

/-- R110 (WAIT): the host reads `STATUS` until DONE = 1; while it is 0 the block moves. -/
def Obligations.WaitEndsAtDone : Prop :=
  ∀ (s : State) (rest : List HostAction), s.hostQueue = .waitDone :: rest →
    (s.done = true →
      step s = .next { s with hostQueue := rest, hostData := s.status.setWidth 64, handoff := false }) ∧
    (s.done = false → step s = sequencerMove s)

/-! ### Host commands -/

/-- R231: NOP, `CMD = 0x00`, is legal in any idle state and changes nothing; R284: written while busy it is
refused. -/
def Obligations.NopChangesNothing : Prop :=
  decodeCmd 0x00#8 = .ok .nop ∧
    ∀ s : State, (s.busy = false → exec .nop s = .next s) ∧
      (s.busy = true → exec .nop s = .refused .commandWhileBusy)

/-- R234: CLEAR, `CMD = 0x03`, in any idle state clears DONE, ERR, `ERR_KIND`, `ERR_CAUSE` and `OUT_LEN`, and nothing else: the other bits of
`STATUS`, both buffers, `IN_LEN` and the rest of the state stay. -/
def Obligations.ClearAcknowledgesTheResult : Prop :=
  decodeCmd 0x03#8 = .ok .clear ∧ ∀ s : State, s.busy = false →
    ∃ t, exec .clear s = .next t ∧ t.done = false ∧ t.err = false ∧
      (∀ i, i ≠ 1 → i ≠ 2 → t.status.getLsbD i = s.status.getLsbD i) ∧
      t = { s with status := t.status, errKind := 0x00#8, errCause := 0x00#8, outLen := 0#64 }

/-- R232, R51: the start of COMPRESS under its preconditions. -/
def Obligations.CompressStartsTheEncoder : Prop :=
  ∀ s : State, CompressAllowed s →
    ∃ t, exec .compress s = .next t ∧ t.busy = true ∧ t.done = false ∧ t.err = false ∧
      t.errKind = 0x00#8 ∧ t.errCause = 0x00#8 ∧ t.outLen = 0#64 ∧ t.op = 0x01#8 ∧ t.phase = 1#4 ∧
      WorkEmpty t.work ∧ KeepsInput s t ∧ (∀ a, t.obufByte a = s.obufByte a)

/-- R233, R51, R63: the start of DECOMPRESS under its preconditions. For a Frame that decodes, the bytes that
must fit are the result (R233); for one that does not, those its walk emits (log entry 10). -/
def Obligations.DecompressStartsTheDecoder : Prop :=
  (∀ f y : List Byte, decompress f = .ok y → emittedSymbols f = y) ∧
  ∀ s : State, DecompressAllowed s →
    ∃ t, exec .decompress s = .next t ∧ t.busy = true ∧ t.done = false ∧ t.err = false ∧
      t.errKind = 0x00#8 ∧ t.errCause = 0x00#8 ∧ t.outLen = 0#64 ∧ t.op = 0x02#8 ∧ t.phase = 8#4 ∧
      WorkEmpty t.work ∧ KeepsInput s t ∧ (∀ a, t.obufByte a = s.obufByte a)

/-- R26, R63, R182, R232, R233, R284: the starts that are refused. That R63 refuses a DECOMPRESS whose failing
walk would write beyond OBUF is the model's reading where R233 is laxer (log entry 10). -/
def Obligations.StartOutsideItsBoundsIsRefused : Prop :=
  (∀ s : State, s.busy = true →
    exec .compress s = .refused .commandWhileBusy ∧ exec .decompress s = .refused .commandWhileBusy) ∧
  (∀ s : State, s.busy = false → s.params.ibufCap.val < s.inLen.toNat →
    exec .compress s = .refused .inputBeyondIbuf ∧ exec .decompress s = .refused .inputBeyondIbuf) ∧
  (∀ s : State, s.busy = false → s.inLen.toNat ≤ s.params.ibufCap.val → inLenMaxCompress < s.inLen.toNat →
    exec .compress s = .refused .inputBeyondCompressLimit) ∧
  (∀ s : State, s.busy = false → s.inLen.toNat ≤ s.params.ibufCap.val → s.inLen.toNat ≤ inLenMaxCompress →
    s.params.obufCap.val < (compress s.input).length → exec .compress s = .refused .resultBeyondObuf) ∧
  (∀ (s : State) (y : List Byte), s.busy = false → s.inLen.toNat ≤ s.params.ibufCap.val →
    decompress s.input = .ok y → s.params.obufCap.val < y.length →
    exec .decompress s = .refused .resultBeyondObuf) ∧
  (∀ s : State, s.busy = false → s.inLen.toNat ≤ s.params.ibufCap.val →
    s.params.obufCap.val < (emittedSymbols s.input).length →
    exec .decompress s = .refused .resultBeyondObuf)

/-! ### The encoder's phases -/

/-- R120 to R123: FT_BUILD on an empty table counts the input: the keys are the distinct symbols, in order of
first occurrence, each with the number of times it occurs. The value of `IN_PTR` afterwards is the model's
inference (log entry 8) and is not stated. -/
def Obligations.FrequencyTableCountsTheInput : Prop :=
  ∀ s : State, s.op = opCompress → s.inLen.toNat ≤ s.params.ibufCap.val → s.work.k = 0 →
    (∀ b : Byte, SymTable.at s.work.present b = false) →
    ∃ t, exec .ftBuild s = .next t ∧ t.work.k = s.input.eraseDups.length ∧
      t.work.order.take t.work.k = s.input.eraseDups ∧
      (∀ b : Byte, SymTable.at t.work.present b = decide (b ∈ s.input)) ∧
      (∀ b ∈ s.input, SymTable.at t.work.count b = s.input.count b) ∧
      ((t.work.order.take t.work.k).map (fun b => SymTable.at t.work.count b)).sum = s.inLen.toNat ∧
      (s.input = [] → t.phase = phaseFrameEmit) ∧ (s.input ≠ [] → t.phase = phaseTreeBuild) ∧
      KeepsHostSide s t ∧
      t.work = { s.work with
        k := t.work.k, order := t.work.order, present := t.work.present, count := t.work.count,
        inPtr := t.work.inPtr,
        pad := if s.input = [] then 0 else s.work.pad,
        t := if s.input = [] then 0 else s.work.t }

/-- R133: `extract_min` removes the index whose pair (weight, index) is smallest: smallest weight first, and
among equal weights the smallest index. -/
def Obligations.ExtractMinTakesTheLightestEarliest : Prop :=
  ∀ (arena : List Node) (pq : List Nat), pq ≠ [] →
    ∃ i, extractMin arena pq = some (i, pq.erase i) ∧ i ∈ pq ∧
      ∀ j ∈ pq, j ≠ i →
        weightAt arena i < weightAt arena j ∨ (weightAt arena i = weightAt arena j ∧ i < j)

/-- R130 to R134, R139: TREE_BUILD leaves the arena of the Huffman tree: the leaves in leaf order, then
`K − 1` internal nodes, each the merge of the two nodes first extracted from those not yet merged. -/
def Obligations.TreeBuildMakesTheHuffmanArena : Prop :=
  ∀ (s : State) (leaves : List (Byte × Nat)), s.op = opCompress ∨ s.op = opDecompress →
    1 ≤ s.work.k → s.work.n = 0 → s.work.pq = [] → s.work.table = .ok leaves →
    ∃ t, exec .treeBuild s = .next t ∧ t.work.n = 2 * s.work.k - 1 ∧ t.work.node.length = t.work.n ∧
      t.work.root = 2 * s.work.k - 2 ∧ t.work.pq = [t.work.root] ∧
      (∀ (j : Nat) (p : Byte × Nat), leaves[j]? = some p → t.work.node[j]? = some (Node.leaf p.1 p.2)) ∧
      (∀ i, s.work.k ≤ i → i < t.work.n → ∃ w l r, t.work.node[i]? = some (Node.internal w l r) ∧
        l < i ∧ r < i ∧ w = weightAt t.work.node l + weightAt t.work.node r ∧
        extractedBefore t.work.node l r = true ∧
        ∀ j, j < i → j ∉ (t.work.node.take (i + 1)).flatMap Node.children →
          extractedBefore t.work.node r j = true) ∧
      (t.work.node.flatMap Node.children).Perm (List.range (2 * s.work.k - 2)) ∧
      weightAt t.work.node t.work.root = (leaves.map Prod.snd).sum ∧
      t.phase = phaseCbDerive ∧ KeepsHostSide s t ∧
      t.work = { s.work with
        node := t.work.node, n := t.work.n, pq := t.work.pq, root := t.work.root }

/-- R150 to R152, R184, R202: CB_DERIVE on the arena of a tree gives every leaf's symbol a code and no other
symbol: the path from `ROOT` to the leaf, or "0" when the root is the only leaf. -/
def Obligations.CodebookAssignsEveryLeafItsPath : Prop :=
  ∀ (s : State) (leaves : List (Byte × Nat)) (root : Nat), s.op = opCompress ∨ s.op = opDecompress →
    (leaves.map Prod.fst).Nodup → leaves ≠ [] → buildTree leaves = (s.work.arena, [root]) →
    s.work.root = root → (∀ b : Byte, SymTable.at s.work.codeValid b = false) →
    ∃ t, exec .cbDerive s = .next t ∧
      (∀ b : Byte, SymTable.at t.work.codeValid b = true ↔ b ∈ leaves.map Prod.fst) ∧
      (∀ b ∈ leaves.map Prod.fst, SymTable.at t.work.codeLen b = (SymTable.at t.work.code b).length) ∧
      (leaves.length = 1 → ∀ b ∈ leaves.map Prod.fst, SymTable.at t.work.code b = [false]) ∧
      (2 ≤ leaves.length → ∀ p ∈ leaves, ∃ n,
        follow s.work.arena root (SymTable.at t.work.code p.1) = some n ∧
          s.work.arena[n]? = some (Node.leaf p.1 p.2)) ∧
      (s.op = opCompress → t.phase = phaseEncMap) ∧ (s.op = opDecompress → t.phase = phaseLenCheck) ∧
      KeepsHostSide s t ∧
      t.work = { s.work with
        codeValid := t.work.codeValid, codeLen := t.work.codeLen, code := t.work.code }

/-- R155: no code is a prefix of another symbol's code, and no two symbols have the same code. -/
def Obligations.CodesArePrefixFree : Prop :=
  ∀ (table : List (Byte × Nat)) (a b : Byte × Bits), a ∈ codesOf table → b ∈ codesOf table →
    a.1 ≠ b.1 → ¬ a.2 <+: b.2

/-- The bounds of 42_codebook.md on code lengths (a rule the spec marks as derived): one bit when there is one
symbol; else 1 to `K − 1` bits, and the longest code has at least `log2 K`. -/
def Obligations.CodeLengthsAreBounded : Prop :=
  ∀ table : List (Byte × Nat), (table.map Prod.fst).Nodup →
    ((codesOf table).map Prod.fst).Perm (table.map Prod.fst) ∧
    (∀ p, table = [p] → codesOf table = [(p.1, [false])]) ∧
    (2 ≤ table.length →
      (∀ a ∈ codesOf table, 1 ≤ a.2.length ∧ a.2.length ≤ table.length - 1) ∧
      ∃ a ∈ codesOf table, table.length ≤ 2 ^ a.2.length)

/-- The completeness of the codes (42_codebook.md, a rule the spec marks as derived): with two or more symbols
the codes satisfy `Σ 2^(−CODE_LEN[s]) = 1`. -/
def Obligations.CodesAreComplete : Prop :=
  ∀ table : List (Byte × Nat), 2 ≤ table.length →
    ((codesOf table).map (fun a => ((1 : ℚ) / 2) ^ a.2.length)).sum = 1

/-- R186: ENC_MAP concatenates the codes of the input bytes in order and adds up their lengths, when every
byte has a code. -/
def Obligations.EncoderMapsBytesToCodes : Prop :=
  ∀ s : State, s.op = opCompress → s.inLen.toNat ≤ s.params.ibufCap.val →
    (∀ b ∈ s.input, SymTable.at s.work.codeValid b = true) →
    ∃ t, exec .encMap s = .next t ∧ t.work.bits = s.input.flatMap (fun b => SymTable.at s.work.code b) ∧
      t.work.t = (s.input.map (fun b => SymTable.at s.work.codeLen b)).sum ∧
      t.phase = phaseBpPack ∧ KeepsHostSide s t ∧
      t.work = { s.work with bits := t.work.bits, t := t.work.t, inPtr := t.work.inPtr }

/-- R51, R136, R29, R31: a read of a table entry that holds nothing faults: TREE_BUILD with `K = 0`; a code with
`CODE_VALID = 0` in ENC_MAP and LEN_CHECK; a count with `PRESENT = 0`, and a leaf-order entry that was never
written, in the three phases that read the table; a node at or beyond `N` that CB_DERIVE comes to, be it the
root or further down. Which fault is named is the model's (log entry 14). -/
def Obligations.ReadsOfNothingFault : Prop :=
  (∀ s : State, s.op = opCompress ∨ s.op = opDecompress → s.work.k = 0 →
    exec .treeBuild s = .fault .treeOfEmptyTable) ∧
  (∀ s : State, s.op = opCompress → s.inLen.toNat ≤ s.params.ibufCap.val →
    (∃ b ∈ s.input, SymTable.at s.work.codeValid b = false) → exec .encMap s = .fault .codeEntryInvalid) ∧
  (∀ (s : State) (table : List (Byte × Nat)), s.op = opDecompress → s.work.table = .ok table →
    (∃ p ∈ table, SymTable.at s.work.codeValid p.1 = false) →
    exec .lenCheck s = .fault .codeEntryInvalid) ∧
  (∀ s : State, s.work.k ≤ s.work.order.length →
    (∃ b ∈ s.work.order.take s.work.k, SymTable.at s.work.present b = false) →
    (s.op = opCompress ∨ s.op = opDecompress → s.work.n = 0 → s.work.pq = [] →
      exec .treeBuild s = .fault .countEntryAbsent) ∧
    (s.op = opCompress → exec .frameEmit s = .fault .countEntryAbsent) ∧
    (s.op = opDecompress → exec .lenCheck s = .fault .countEntryAbsent)) ∧
  (∀ s : State, s.work.order.length < s.work.k →
    (s.op = opCompress ∨ s.op = opDecompress → s.work.n = 0 → s.work.pq = [] →
      exec .treeBuild s = .fault .orderEntryAbsent) ∧
    (s.op = opCompress → exec .frameEmit s = .fault .orderEntryAbsent) ∧
    (s.op = opDecompress → exec .lenCheck s = .fault .orderEntryAbsent)) ∧
  (∀ s : State, s.op = opCompress ∨ s.op = opDecompress →
    (s.work.n ≤ s.work.root → exec .cbDerive s = .fault .nodeEntryUnallocated) ∧
    (∀ (p : Bits) (m : Nat), follow s.work.arena s.work.root p = some m → s.work.n ≤ m →
      ∃ f, exec .cbDerive s = .fault f))

/-- R165, R166: BP_PACK pads with the fewest zero bits to whole bytes and places bit `i` of the padded string
in bit `7 − (i mod 8)` of payload byte `i div 8`. `BITACC` and `BITCNT` are free (log entry 4). -/
def Obligations.PackerPadsToWholeBytes : Prop :=
  ∀ s : State, s.op = opCompress → s.work.bits.length = s.work.t →
    ∃ t, exec .bpPack s = .next t ∧ t.work.pad < 8 ∧ 8 * t.work.payload.length = s.work.t + t.work.pad ∧
      (∀ (i : Nat) (b : Byte), t.work.payload[i / 8]? = some b →
        (s.work.bits ++ List.replicate t.work.pad false)[i]? = some (b.getLsbD (7 - i % 8))) ∧
      t.phase = phaseFrameEmit ∧ KeepsHostSide s t ∧
      t.work = { s.work with
        pad := t.work.pad, payload := t.work.payload, bitAcc := t.work.bitAcc, bitCnt := t.work.bitCnt }

/-- The streaming form of the packer, through `BITACC` and `BITCNT` (43_bit_packer.md, a rule the spec marks
as derived), gives the same payload and pad length. -/
def Obligations.StreamingPackerEqualsPack : Prop :=
  ∀ b : Bits, packStream b = (pack b, padOf b.length)

/-- R172: "`unpack(pack(b), pad_length) == b` for any bit-string `b` and the pad length computed during
packing." -/
def Obligations.UnpackInvertsPack : Prop := ∀ b : Bits, unpack (pack b) (padOf b.length) = some b

/-- R188, R189, R92: FRAME_EMIT writes the Frame: `symbol_count`, `pad_length`, the entries in leaf order,
the payload, and ends the operation with `OUT_LEN` its length. Bytes of OBUF beyond it are unspecified. -/
def Obligations.FrameEmitWritesTheFrame : Prop :=
  ∀ (s : State) (table : List (Byte × Nat)), s.op = opCompress → s.work.table = .ok table →
    s.work.k ≤ 256 → (∀ p ∈ table, p.2 < 2 ^ 32) → s.work.pad ≤ 7 →
    (s.work.t + 7) / 8 ≤ s.work.payload.length →
    3 + 5 * s.work.k + (s.work.t + 7) / 8 ≤ s.params.obufCap.val → s.obuf.wf →
    ∃ t, exec .frameEmit s = .next t ∧ EndedWell t ∧
      t.outLen.toNat = 3 + 5 * s.work.k + (s.work.t + 7) / 8 ∧
      be16 (t.obufByte 0) (t.obufByte 1) = s.work.k ∧ (t.obufByte 2).toNat = s.work.pad ∧
      (∀ (j : Nat) (p : Byte × Nat), table[j]? = some p → t.obufByte (3 + 5 * j) = p.1 ∧
        be32 (t.obufByte (4 + 5 * j)) (t.obufByte (5 + 5 * j)) (t.obufByte (6 + 5 * j))
          (t.obufByte (7 + 5 * j)) = p.2) ∧
      (∀ j, j < (s.work.t + 7) / 8 → s.work.payload[j]? = some (t.obufByte (3 + 5 * s.work.k + j))) ∧
      KeepsInput s t ∧ t.handoff = s.handoff

/-- R63, R188, R214: a Frame or an output that would be written at or beyond `OBUF_CAP` is refused. -/
def Obligations.ResultBeyondTheBufferIsRefused : Prop :=
  (∀ (s : State) (table : List (Byte × Nat)), s.op = opCompress → s.work.table = .ok table →
    (s.work.t + 7) / 8 ≤ s.work.payload.length →
    s.params.obufCap.val < 3 + 5 * s.work.k + (s.work.t + 7) / 8 →
    exec .frameEmit s = .refused .resultBeyondObuf) ∧
  (∀ s : State, s.op = opDecompress → s.params.obufCap.val < (walk s.work.rev [] s.work.bits).1.length →
    exec .decWalk s = .refused .resultBeyondObuf)

/-! ### The decoder's phases -/

/-- R204, R206, R209: FRAME_PARSE of a Frame whose header and table are sound. -/
def Obligations.FrameParseReadsHeaderAndTable : Prop :=
  ∀ s : State, s.op = opDecompress → s.inLen.toNat ≤ s.params.ibufCap.val → 3 ≤ s.inLen.toNat →
    s.frameSc ≤ 256 → 3 + 5 * s.frameSc ≤ s.inLen.toNat → s.frameSymbols.Nodup →
    (∀ b : Byte, SymTable.at s.work.present b = false) →
    ∃ t, exec .frameParse s = .next t ∧ t.work.sc = s.frameSc ∧ t.work.k = s.frameSc ∧
      t.work.padf = (s.ibufByte 2).toNat ∧ t.work.payOff = 3 + 5 * s.frameSc ∧
      t.work.payLen = s.inLen.toNat - (3 + 5 * s.frameSc) ∧
      t.work.order.take s.frameSc = s.frameSymbols ∧
      (∀ b : Byte, SymTable.at t.work.present b = decide (b ∈ s.frameSymbols)) ∧
      (∀ j, j < s.frameSc → SymTable.at t.work.count (s.frameSymbol j) = s.frameCount j) ∧
      (s.frameSc = 0 → t.work.tExp = 0 ∧ t.phase = phaseLenCheck) ∧
      (s.frameSc ≠ 0 → t.work.tExp = s.work.tExp ∧ t.phase = phaseTreeBuild) ∧
      KeepsHostSide s t ∧
      t.work = { s.work with
        sc := t.work.sc, padf := t.work.padf, k := t.work.k, payOff := t.work.payOff,
        payLen := t.work.payLen, tExp := t.work.tExp, inPtr := t.work.inPtr,
        present := t.work.present, count := t.work.count, order := t.work.order }

/-- R203, R204, R207: FRAME_PARSE raises the first check that fails, in the order HDR_TRUNC, SYMCOUNT_RANGE,
TABLE_TRUNC, DUP_SYMBOL. -/
def Obligations.FrameParseRaisesTheFirstFailure : Prop :=
  ∀ s : State, s.op = opDecompress → s.inLen.toNat ≤ s.params.ibufCap.val →
    (∀ b : Byte, SymTable.at s.work.present b = false) →
    (s.inLen.toNat < 3 →
      ∃ t, exec .frameParse s = .next t ∧ EndedInError .hdrTrunc t ∧ KeepsInput s t) ∧
    (3 ≤ s.inLen.toNat → 256 < s.frameSc →
      ∃ t, exec .frameParse s = .next t ∧ EndedInError .symcountRange t ∧ KeepsInput s t) ∧
    (3 ≤ s.inLen.toNat → s.frameSc ≤ 256 → s.inLen.toNat < 3 + 5 * s.frameSc →
      ∃ t, exec .frameParse s = .next t ∧ EndedInError .tableTrunc t ∧ KeepsInput s t) ∧
    (3 ≤ s.inLen.toNat → s.frameSc ≤ 256 → 3 + 5 * s.frameSc ≤ s.inLen.toNat → ¬ s.frameSymbols.Nodup →
      ∃ t, exec .frameParse s = .next t ∧ EndedInError .dupSymbol t ∧ KeepsInput s t)

/-- R210: LEN_CHECK goes on exactly when `PADF ≤ 7` and `8 × PAY_LEN = T_EXP + PADF`, and else raises
CorruptFrameError(LEN_MISMATCH). -/
def Obligations.LenCheckComparesTheLengths : Prop :=
  ∀ (s : State) (table : List (Byte × Nat)) (tExp : Nat), s.op = opDecompress →
    s.work.table = .ok table → (∀ p ∈ table, SymTable.at s.work.codeValid p.1 = true) →
    tExp = (table.map (fun p => p.2 * SymTable.at s.work.codeLen p.1)).sum →
    (s.work.padf ≤ 7 ∧ 8 * s.work.payLen = tExp + s.work.padf →
      ∃ t, exec .lenCheck s = .next t ∧ t.work = { s.work with tExp := tExp } ∧ t.phase = phaseBpUnpack ∧
        KeepsHostSide s t) ∧
    (¬ (s.work.padf ≤ 7 ∧ 8 * s.work.payLen = tExp + s.work.padf) →
      ∃ t, exec .lenCheck s = .next t ∧ EndedInError .lenMismatch t ∧ KeepsInput s t)

/-- R210, corner cases: the two tests of LEN_CHECK together say that the payload length and the pad length are
the values the encoder writes. -/
def Obligations.LenCheckMeansTheEncodersLengths : Prop :=
  ∀ payLen padf tExp : Nat,
    (padf ≤ 7 ∧ 8 * payLen = tExp + padf) ↔ (payLen = (tExp + 7) / 8 ∧ padf = padOf tExp)

/-- R170, R171: BP_UNPACK expands the payload MSB-first and drops the last `PADF` bits unexamined. -/
def Obligations.UnpackerDropsThePadBits : Prop :=
  ∀ s : State, s.op = opDecompress → s.work.padf ≤ 7 → s.work.padf ≤ 8 * s.work.payLen →
    s.work.payOff + s.work.payLen ≤ s.inLen.toNat →
    s.work.payOff + s.work.payLen ≤ s.params.ibufCap.val →
    ∃ t, exec .bpUnpack s = .next t ∧ t.work.bits.length = 8 * s.work.payLen - s.work.padf ∧
      (∀ i, i < 8 * s.work.payLen - s.work.padf →
        t.work.bits[i]? = some ((s.ibufByte (s.work.payOff + i / 8)).getLsbD (7 - i % 8))) ∧
      t.phase = phaseDecWalk ∧ KeepsHostSide s t ∧
      t.work = { s.work with
        bits := t.work.bits, inPtr := t.work.inPtr, bitAcc := t.work.bitAcc, bitCnt := t.work.bitCnt }

/-- R214, R215, R219, R262: DEC_WALK writes the symbols it emits to OBUF and ends the operation, or raises
CorruptFrameError(TRAILING_BITS) when bits are left over. -/
def Obligations.DecWalkEmitsOrRaises : Prop :=
  ∀ (s : State) (out : List Byte) (acc : Bits), s.op = opDecompress →
    walk s.work.rev [] s.work.bits = (out, acc) → out.length ≤ s.params.obufCap.val → s.obuf.wf →
    (acc = [] → ∃ t, exec .decWalk s = .next t ∧ EndedWell t ∧ t.outLen.toNat = out.length ∧
      t.output = out ∧ KeepsInput s t ∧ t.handoff = s.handoff) ∧
    (acc ≠ [] → ∃ t, exec .decWalk s = .next t ∧ EndedInError .trailingBits t ∧ KeepsInput s t ∧
      t.handoff = s.handoff)

/-- R214: the walk cuts the bit-string at the shortest matches: every piece is a code no shorter prefix of
which is one, and no prefix of what is left over is a code. -/
def Obligations.WalkCutsAtTheShortestMatch : Prop :=
  ∀ (rev : Bits → Option Byte) (bits : Bits), ∃ pieces : List (Bits × Byte),
    bits = pieces.flatMap Prod.fst ++ (walk rev [] bits).2 ∧
    (walk rev [] bits).1 = pieces.map Prod.snd ∧
    (∀ p ∈ pieces, p.1 ≠ [] ∧ rev p.1 = some p.2 ∧
      ∀ q, q <+: p.1 → q ≠ [] → q ≠ p.1 → rev q = none) ∧
    ∀ q, q <+: (walk rev [] bits).2 → q ≠ [] → rev q = none

/-- R193, R214: a concatenation of codes of one table decodes to the symbols it was made of. -/
def Obligations.WalkInvertsTheCodes : Prop :=
  ∀ (table : List (Byte × Nat)) (y : List Byte), (table.map Prod.fst).Nodup →
    (∀ b ∈ y, b ∈ table.map Prod.fst) →
    walk (revIn (codesOf table)) [] (encodeBits (codesOf table) y) = (y, [])

/-- The tree-walk form of DEC_WALK (45_decoder_decompress.md, a rule the spec marks as derived) emits the same
symbols and ends cleanly in the same cases as the lookup. -/
def Obligations.TreeWalkEqualsTheLookup : Prop :=
  ∀ (table : List (Byte × Nat)) (arena : List Node) (root : Nat) (bits : Bits),
    (table.map Prod.fst).Nodup → table ≠ [] → buildTree table = (arena, [root]) →
    treeWalk arena root root bits =
      ((walk (revIn (codesOf table)) [] bits).1, (walk (revIn (codesOf table)) [] bits).2.isEmpty)

/-- R262, R251, R252: the error entry: the codes of the cause and its kind, `OUT_LEN = 0`, the flags, IDLE;
IBUF and `IN_LEN` unchanged; every byte of OBUF and the working state unspecified (a free value). The form of
the free working state, `Work.free`, is the model's choice (log entry 11). -/
def Obligations.ErrorEntryReportsTheCause : Prop :=
  ∀ (s : State) (c : ErrCause), EndedInError c (s.raise c) ∧ KeepsInput s (s.raise c) ∧
    (∀ a, (s.raise c).obufByte a = Config.freeObufByte (s.raise c).obufEpoch a) ∧
    (s.raise c).work = Work.free s.freeSeq ∧
    (c.kind.code, c.code) = (match c with
      | .hdrTrunc => (1#8, 1#8)
      | .tableTrunc => (1#8, 2#8)
      | .lenMismatch => (1#8, 3#8)
      | .trailingBits => (1#8, 4#8)
      | .symcountRange => (2#8, 5#8)
      | .dupSymbol => (2#8, 6#8))

/-! ### Frames -/

/-- R26, R28, R61, R62: what each operation leaves unchanged on the host's side. The six phases that neither
end the operation nor raise leave every host register, both buffers and the hand-off as they were; the two
that may raise do so unless they raise; the last phase of each operation and the commands leave the input. -/
def Obligations.OperationsKeepTheHostSide : Prop :=
  (∀ (i : Instr) (s t : State),
    i = .ftBuild ∨ i = .treeBuild ∨ i = .cbDerive ∨ i = .encMap ∨ i = .bpPack ∨ i = .bpUnpack →
    exec i s = .next t → KeepsHostSide s t) ∧
  (∀ (i : Instr) (s t : State), i = .frameParse ∨ i = .lenCheck → exec i s = .next t →
    KeepsHostSide s t ∨ (∃ c, EndedInError c t ∧ KeepsInput s t ∧ t.handoff = s.handoff)) ∧
  (∀ s t : State, exec .frameEmit s = .next t → EndedWell t ∧ KeepsInput s t ∧ t.handoff = s.handoff) ∧
  (∀ s t : State, exec .decWalk s = .next t →
    (EndedWell t ∨ EndedInError .trailingBits t) ∧ KeepsInput s t ∧ t.handoff = s.handoff) ∧
  (∀ (i : Instr) (s t : State), i = .nop ∨ i = .compress ∨ i = .decompress ∨ i = .clear →
    exec i s = .next t → KeepsInput s t ∧ ∀ a, t.obufByte a = s.obufByte a)

/-- R28, R29, R31, R34: each phase that goes on writes only the working registers and tables its rule names;
every other one keeps its value. -/
def Obligations.PhasesWriteTheirOwnRegisters : Prop :=
  ∀ s t : State,
    (exec .ftBuild s = .next t → t.work = { s.work with
      k := t.work.k, order := t.work.order, present := t.work.present, count := t.work.count,
      inPtr := t.work.inPtr, pad := t.work.pad, t := t.work.t }) ∧
    (exec .treeBuild s = .next t → t.work = { s.work with
      node := t.work.node, n := t.work.n, pq := t.work.pq, root := t.work.root }) ∧
    (exec .cbDerive s = .next t → t.work = { s.work with
      codeValid := t.work.codeValid, codeLen := t.work.codeLen, code := t.work.code }) ∧
    (exec .encMap s = .next t → t.work = { s.work with
      bits := t.work.bits, t := t.work.t, inPtr := t.work.inPtr }) ∧
    (exec .bpPack s = .next t → t.work = { s.work with
      pad := t.work.pad, payload := t.work.payload, bitAcc := t.work.bitAcc, bitCnt := t.work.bitCnt }) ∧
    (exec .frameParse s = .next t → t.phase ≠ phaseIdle → t.work = { s.work with
      sc := t.work.sc, padf := t.work.padf, k := t.work.k, payOff := t.work.payOff,
      payLen := t.work.payLen, tExp := t.work.tExp, inPtr := t.work.inPtr,
      present := t.work.present, count := t.work.count, order := t.work.order }) ∧
    (exec .lenCheck s = .next t → t.phase ≠ phaseIdle → t.work = { s.work with tExp := t.work.tExp }) ∧
    (exec .bpUnpack s = .next t → t.work = { s.work with
      bits := t.work.bits, inPtr := t.work.inPtr, bitAcc := t.work.bitAcc, bitCnt := t.work.bitCnt })

/-! ### Rules of the whole machine -/

/-- R26, R61: the block never writes IBUF or `IN_LEN`: a step changes them only when the host's action does. -/
def Obligations.BlockNeverWritesItsInput : Prop :=
  ∀ s t : State, step s = .next t → (∀ a rest, s.hostQueue = a :: rest → HostAction.writesInput a = false) →
    t.inLen = s.inLen ∧ ∀ a, t.ibufByte a = s.ibufByte a

/-- R290: while the block is idle the result stands until the next `CMD` write or reset. -/
def Obligations.ResultStandsWhileIdle : Prop :=
  ∀ s t : State, s.busy = false → step s = .next t →
    (∀ a rest, s.hostQueue = a :: rest → HostAction.endsResult a = false) →
    t.status = s.status ∧ t.errKind = s.errKind ∧ t.errCause = s.errCause ∧ t.outLen = s.outLen ∧
      t.phase = s.phase ∧ t.op = s.op ∧ ∀ a, t.obufByte a = s.obufByte a

/-- R250, R251, R252: an error arises only in a phase of DECOMPRESS, and it reports one of the two kinds with a
cause of that kind. -/
def Obligations.OnlyDecompressRaises : Prop :=
  ∀ s t : State, step s = .next t → s.err = false → t.err = true →
    s.op = opDecompress ∧ s.busy = true ∧ ErrCodesLegal t.errKind t.errCause

/-! ### Whole operations -/

/-- R180, R184, R189, R232, R237: a COMPRESS that may start runs without a fault or a refusal through the
phases of R184 and ends with `OBUF[0 .. OUT_LEN) = compress(IBUF[0 .. IN_LEN))` and `STATUS = 0x02`. -/
def Obligations.CompressRunsToItsResult : Prop :=
  ∀ s : State, IdleState s → BufInv s → s.hostQueue = [] → CompressAllowed s →
    ∃ s1, exec .compress s = .next s1 ∧
      ∀ n, ∃ t, runSteps n s1 = .next t ∧
        t.phase = (if s.input = [] then [1#4, 6#4] else [1#4, 2#4, 3#4, 4#4, 5#4, 6#4]).getD n 0#4 ∧
        KeepsInput s t ∧
        (t.phase ≠ phaseIdle → t.status = 0x01#8) ∧
        (t.phase = phaseIdle → t.status = 0x02#8 ∧ t.errKind = 0x00#8 ∧ t.errCause = 0x00#8 ∧
          t.op = 0x00#8 ∧ t.outLen.toNat = (compress s.input).length ∧ t.output = compress s.input)

/-- R200, R202, R219, R233, R237, R262: a DECOMPRESS that may start ends, when the Frame decodes, with
`OBUF[0 .. OUT_LEN) = decompress(IBUF[0 .. IN_LEN))` and `STATUS = 0x02`; and else with `STATUS = 0x06`,
`OUT_LEN = 0` and the codes of the error. When it may start is as `DecompressAllowed` says (log entry 10). -/
def Obligations.DecompressRunsToItsResult : Prop :=
  ∀ s : State, IdleState s → BufInv s → s.hostQueue = [] → DecompressAllowed s →
    ∃ s1, exec .decompress s = .next s1 ∧
      (∀ y, decompress s.input = .ok y → ∀ n, ∃ t, runSteps n s1 = .next t ∧
        t.phase = (if s.frameSc = 0 then [8#4, 9#4, 10#4, 11#4]
          else [8#4, 2#4, 3#4, 9#4, 10#4, 11#4]).getD n 0#4 ∧
        KeepsInput s t ∧
        (t.phase ≠ phaseIdle → t.status = 0x01#8) ∧
        (t.phase = phaseIdle → t.status = 0x02#8 ∧ t.errKind = 0x00#8 ∧ t.errCause = 0x00#8 ∧
          t.op = 0x00#8 ∧ t.outLen.toNat = y.length ∧ t.output = y)) ∧
      (∀ c, decompress s.input = .error c →
        ∀ n, ∃ t, runSteps n s1 = .next t ∧ KeepsInput s t ∧
          (t.phase ≠ phaseIdle → t.status = 0x01#8) ∧
          (6 ≤ n → t.phase = phaseIdle) ∧
          (t.phase = phaseIdle → t.status = 0x06#8 ∧ t.errKind = c.kind.code ∧ t.errCause = c.code ∧
            t.op = 0x00#8 ∧ t.outLen = 0#64))

/-- R193: "for all byte sequences b (including empty), `decompress(compress(b)) == b`", for the inputs
COMPRESS accepts (R182). -/
def Obligations.DecompressInvertsCompress : Prop :=
  ∀ x : List Byte, x.length ≤ inLenMaxCompress → decompress (compress x) = .ok x

/-- R211: "truncating the payload of a valid Frame by one byte causes `decompress` to fail with
`CorruptFrameError`, never to return wrong bytes silently". -/
def Obligations.TruncatedPayloadIsDetected : Prop :=
  ∀ f y : List Byte, decompress f = .ok y → 3 + 5 * scOf f < f.length →
    decompress f.dropLast = .error .lenMismatch

/-- R91, R194 and the sum of 44_encoder_compress.md for `T` (a rule the spec marks as derived): the length of a
Frame. For more than `2^32 − 1` bytes, where R180 defines no `compress`, it is about the model's own value (log
entry 19). -/
def Obligations.FrameLengthFormula : Prop :=
  ∀ (x : List Byte) (t : Nat), t = impliedLength (codesOf (countSymbols x)) (countSymbols x) →
    (countSymbols x).length = x.eraseDups.length ∧
    (encodeBits (codesOf (countSymbols x)) x).length = t ∧
    (compress x).length = 3 + 5 * x.eraseDups.length + (t + 7) / 8

/-- The weaker size bound of 44_encoder_compress.md, which needs no optimality (rules the spec marks as
derived): every byte takes at least one bit and at most `K − 1`. For more than `2^32 − 1` bytes, where R180
defines no `compress`, it is about the model's own value (log entry 19). -/
def Obligations.FrameSizeIsBounded : Prop :=
  ∀ (x : List Byte) (k t : Nat), k = x.eraseDups.length →
    t = (encodeBits (codesOf (countSymbols x)) x).length →
    x.length ≤ t ∧ (k = 1 → t = x.length) ∧
    (2 ≤ k → t ≤ (k - 1) * x.length ∧ (compress x).length ≤ 3 + 5 * k + ((k - 1) * x.length + 7) / 8)

/-- The bound of 45_decoder_decompress.md on the size of the output (a rule the spec marks as derived), and the
same for what the walk over any byte sequence emits, decoding or not: so with the `OBUF_CAP` of which R63 says
that it always suffices, no Frame is refused for its length and every illegal one ends in its error. -/
def Obligations.OutputSizeIsBounded : Prop :=
  (∀ f y : List Byte, decompress f = .ok y → y.length ≤ 8 * (f.length - 3)) ∧
  (∀ f : List Byte, (emittedSymbols f).length ≤ 8 * (f.length - 3)) ∧
  ∀ s : State, s.busy = false → s.inLen.toNat ≤ s.params.ibufCap.val →
    8 * (s.inLen.toNat - 3) ≤ s.params.obufCap.val → DecompressAllowed s

/-- R100, R122, R209: the Frame of the empty input is `00 00 00`; it decodes to the empty sequence, and no
other Frame with `symbol_count = 0` decodes. -/
def Obligations.EmptyFrameIsTheOnlyOneWithoutSymbols : Prop :=
  compress [] = [0x00#8, 0x00#8, 0x00#8] ∧ decompress [0x00#8, 0x00#8, 0x00#8] = .ok [] ∧
    ∀ f y : List Byte, scOf f = 0 → decompress f = .ok y → f = [0x00#8, 0x00#8, 0x00#8] ∧ y = []

/-- R203, R258: which of the first four errors a byte sequence reports, in the fixed order of the checks. -/
def Obligations.DecompressChecksInOrder : Prop :=
  ∀ f : List Byte,
    (decompress f = .error .hdrTrunc ↔ f.length < 3) ∧
    (decompress f = .error .symcountRange ↔ 3 ≤ f.length ∧ 256 < scOf f) ∧
    (decompress f = .error .tableTrunc ↔ 3 ≤ f.length ∧ scOf f ≤ 256 ∧ f.length < 3 + 5 * scOf f) ∧
    (decompress f = .error .dupSymbol ↔
      3 ≤ f.length ∧ scOf f ≤ 256 ∧ 3 + 5 * scOf f ≤ f.length ∧ ¬ (symbolsOf f).Nodup)
end

