-- ==== Sys2Proof/Laws/Memory.lean ====
section
/-!
SUPPORT. Laws/Memory.lean: the laws of a buffer: a read after a write, and every operation keeps the
canonical form and the capacity.
-/
namespace Sys2Proof.Machine

@[simp] theorem Memory.get?_nil (a : Nat) : Memory.get? [] a = none := rfl

/-- A byte below every listed offset is not listed. -/
theorem Memory.get?_eq_none_of_lt {m : Memory} {a : Nat} (h : ∀ c ∈ m, a < c.1) : m.get? a = none := by
  induction m with
  | nil => rfl
  | cons c rest ih =>
    have hc := h c (by simp)
    simp only [Memory.get?, if_neg (Nat.ne_of_lt hc)]
    exact ih fun d hd => h d (by simp [hd])

/-- A read after a write: the byte written at that offset, every other byte as before. -/
theorem Memory.get?_set {m : Memory} (hm : m.wf) (a b : Nat) (v : Byte) :
    (m.set a v).get? b = if b = a then some v else m.get? b := by
  induction m with
  | nil => by_cases h : b = a <;> simp [Memory.set, Memory.get?, h]
  | cons c rest ih =>
    obtain ⟨x, w⟩ := c
    obtain ⟨hx, hr⟩ := List.pairwise_cons.1 hm
    simp only [Memory.set]
    split
    · by_cases h : b = a <;> simp [Memory.get?, h]
    · split
      · next h => subst h; by_cases h' : b = a <;> simp [Memory.get?, h']
      · next h1 h2 =>
        simp only [Memory.get?, ih hr]
        by_cases hbx : b = x
        · subst hbx
          simp [Ne.symm h2]
        · simp [hbx]

/-- The offsets a write lists: the old ones and the one written. -/
theorem Memory.mem_set {m : Memory} {a : Nat} {v : Byte} {c : Host.Cell} (h : c ∈ m.set a v) :
    c.1 = a ∨ c ∈ m := by
  induction m with
  | nil => simp_all [Memory.set]
  | cons d rest ih =>
    obtain ⟨x, w⟩ := d
    simp only [Memory.set] at h
    split at h
    · rcases List.mem_cons.1 h with rfl | h
      · exact .inl rfl
      · exact .inr h
    · split at h
      · rcases List.mem_cons.1 h with rfl | h
        · exact .inl rfl
        · exact .inr (by simp [h])
      · rcases List.mem_cons.1 h with rfl | h
        · exact .inr (by simp)
        · rcases ih h with h | h
          · exact .inl h
          · exact .inr (by simp [h])

theorem Memory.wf_set {m : Memory} (hm : m.wf) (a : Nat) (v : Byte) : (m.set a v).wf := by
  induction m with
  | nil => simp [Memory.set, Memory.wf]
  | cons d rest ih =>
    obtain ⟨x, w⟩ := d
    obtain ⟨hx, hr⟩ := List.pairwise_cons.1 hm
    simp only [Memory.set]
    split
    · next h =>
      refine List.pairwise_cons.2 ⟨?_, hm⟩
      intro c hc
      rcases List.mem_cons.1 hc with rfl | hc
      · exact h
      · exact Nat.lt_trans h (hx c hc)
    · split
      · next h => subst h; exact List.pairwise_cons.2 ⟨hx, hr⟩
      · next h1 h2 =>
        refine List.pairwise_cons.2 ⟨?_, ih hr⟩
        intro c hc
        rcases Memory.mem_set hc with h | h
        · show x < c.1
          omega
        · exact hx c h

theorem Memory.within_set {m : Memory} {cap a : Nat} (hm : m.within cap) (ha : a < cap) (v : Byte) :
    (m.set a v).within cap := by
  intro c hc
  rcases Memory.mem_set hc with h | h
  · omega
  · exact hm c h

theorem Memory.wf_write {m : Memory} (hm : m.wf) (a : Nat) (bs : List Byte) : (m.write a bs).wf := by
  induction bs generalizing m a with
  | nil => exact hm
  | cons b bs ih => exact ih (Memory.wf_set hm a b) (a + 1)

theorem Memory.within_write {m : Memory} {cap a : Nat} {bs : List Byte} (hm : m.within cap)
    (h : a + bs.length ≤ cap) : (m.write a bs).within cap := by
  induction bs generalizing m a with
  | nil => exact hm
  | cons b bs ih =>
    simp only [List.length_cons] at h
    exact ih (Memory.within_set hm (by omega) b) (by omega)

/-- The bytes a write of several bytes leaves: the bytes written, in order, and every other as before. -/
theorem Memory.get?_write {m : Memory} (hm : m.wf) (a : Nat) (bs : List Byte) (b : Nat) :
    (m.write a bs).get? b = if a ≤ b ∧ b < a + bs.length then bs[b - a]? else m.get? b := by
  induction bs generalizing m a with
  | nil =>
    simp [Memory.write]
  | cons c bs ih =>
    simp only [Memory.write, ih (Memory.wf_set hm a c), Memory.get?_set hm, List.length_cons]
    by_cases h : b = a
    · subst h
      simp
    · by_cases h1 : a + 1 ≤ b ∧ b < a + 1 + bs.length
      · have h2 : a ≤ b ∧ b < a + (bs.length + 1) := by omega
        rw [if_pos h1, if_pos h2, show b - a = (b - (a + 1)) + 1 by omega, List.getElem?_cons_succ]
      · have h2 : ¬(a ≤ b ∧ b < a + (bs.length + 1)) := by omega
        rw [if_neg h1, if_neg h, if_neg h2]

theorem Memory.wf_below {m : Memory} (hm : m.wf) (n : Nat) : (m.below n).wf := List.Pairwise.filter _ hm

theorem Memory.within_below {m : Memory} {cap : Nat} (hm : m.within cap) (n : Nat) :
    (m.below n).within cap := fun c hc => hm c (List.mem_filter.1 hc).1

/-- Below `n` nothing is forgotten. -/
theorem Memory.get?_below (m : Memory) (n b : Nat) :
    (m.below n).get? b = if b < n then m.get? b else none := by
  induction m with
  | nil => simp [Memory.below]
  | cons c rest ih =>
    obtain ⟨x, w⟩ := c
    by_cases hx : x < n
    · have : Memory.below ((x, w) :: rest) n = (x, w) :: Memory.below rest n := by simp [Memory.below, hx]
      rw [this]
      simp only [Memory.get?, ih]
      by_cases hb : b = x
      · subst hb; simp [hx]
      · simp [hb]
    · have : Memory.below ((x, w) :: rest) n = Memory.below rest n := by simp [Memory.below, hx]
      rw [this, ih]
      by_cases hb : b = x
      · subst hb; simp [hx]
      · simp [Memory.get?, hb]

theorem State.reset_ibuf_wf : State.reset.ibuf.wf := List.Pairwise.nil

theorem State.reset_obuf_wf : State.reset.obuf.wf := List.Pairwise.nil

end Sys2Proof.Machine
end

