-- ==== Sys2Proof/Laws/State.lean ====
section
/-!
SUPPORT. Laws/State.lean: one lemma per field per named update of the state, each true by rfl, so that no
proof unfolds an update.
-/
namespace Sys2Proof.Machine

/-! ### withFlags -/

@[simp] theorem State.withFlags_status (s : State) (x y z : Bool) : (s.withFlags x y z).status = putBit (putBit (putBit s.status 0 x) 1 y) 2 z := rfl
@[simp] theorem State.withFlags_errKind (s : State) (x y z : Bool) : (s.withFlags x y z).errKind = s.errKind := rfl
@[simp] theorem State.withFlags_errCause (s : State) (x y z : Bool) : (s.withFlags x y z).errCause = s.errCause := rfl
@[simp] theorem State.withFlags_inLen (s : State) (x y z : Bool) : (s.withFlags x y z).inLen = s.inLen := rfl
@[simp] theorem State.withFlags_outLen (s : State) (x y z : Bool) : (s.withFlags x y z).outLen = s.outLen := rfl
@[simp] theorem State.withFlags_ibuf (s : State) (x y z : Bool) : (s.withFlags x y z).ibuf = s.ibuf := rfl
@[simp] theorem State.withFlags_obuf (s : State) (x y z : Bool) : (s.withFlags x y z).obuf = s.obuf := rfl
@[simp] theorem State.withFlags_phase (s : State) (x y z : Bool) : (s.withFlags x y z).phase = s.phase := rfl
@[simp] theorem State.withFlags_op (s : State) (x y z : Bool) : (s.withFlags x y z).op = s.op := rfl
@[simp] theorem State.withFlags_work (s : State) (x y z : Bool) : (s.withFlags x y z).work = s.work := rfl
@[simp] theorem State.withFlags_handoff (s : State) (x y z : Bool) : (s.withFlags x y z).handoff = s.handoff := rfl
@[simp] theorem State.withFlags_params (s : State) (x y z : Bool) : (s.withFlags x y z).params = s.params := rfl
@[simp] theorem State.withFlags_hostQueue (s : State) (x y z : Bool) : (s.withFlags x y z).hostQueue = s.hostQueue := rfl
@[simp] theorem State.withFlags_hostData (s : State) (x y z : Bool) : (s.withFlags x y z).hostData = s.hostData := rfl
@[simp] theorem State.withFlags_ibufEpoch (s : State) (x y z : Bool) : (s.withFlags x y z).ibufEpoch = s.ibufEpoch := rfl
@[simp] theorem State.withFlags_obufEpoch (s : State) (x y z : Bool) : (s.withFlags x y z).obufEpoch = s.obufEpoch := rfl
@[simp] theorem State.withFlags_freeSeq (s : State) (x y z : Bool) : (s.withFlags x y z).freeSeq = s.freeSeq := rfl

/-! ### advance -/

@[simp] theorem State.advance_status (s : State) (w : Work) (p : BitVec 4) : (s.advance w p).status = s.status := rfl
@[simp] theorem State.advance_errKind (s : State) (w : Work) (p : BitVec 4) : (s.advance w p).errKind = s.errKind := rfl
@[simp] theorem State.advance_errCause (s : State) (w : Work) (p : BitVec 4) : (s.advance w p).errCause = s.errCause := rfl
@[simp] theorem State.advance_inLen (s : State) (w : Work) (p : BitVec 4) : (s.advance w p).inLen = s.inLen := rfl
@[simp] theorem State.advance_outLen (s : State) (w : Work) (p : BitVec 4) : (s.advance w p).outLen = s.outLen := rfl
@[simp] theorem State.advance_ibuf (s : State) (w : Work) (p : BitVec 4) : (s.advance w p).ibuf = s.ibuf := rfl
@[simp] theorem State.advance_obuf (s : State) (w : Work) (p : BitVec 4) : (s.advance w p).obuf = s.obuf := rfl
@[simp] theorem State.advance_phase (s : State) (w : Work) (p : BitVec 4) : (s.advance w p).phase = p := rfl
@[simp] theorem State.advance_op (s : State) (w : Work) (p : BitVec 4) : (s.advance w p).op = s.op := rfl
@[simp] theorem State.advance_work (s : State) (w : Work) (p : BitVec 4) : (s.advance w p).work = w := rfl
@[simp] theorem State.advance_handoff (s : State) (w : Work) (p : BitVec 4) : (s.advance w p).handoff = s.handoff := rfl
@[simp] theorem State.advance_params (s : State) (w : Work) (p : BitVec 4) : (s.advance w p).params = s.params := rfl
@[simp] theorem State.advance_hostQueue (s : State) (w : Work) (p : BitVec 4) : (s.advance w p).hostQueue = s.hostQueue := rfl
@[simp] theorem State.advance_hostData (s : State) (w : Work) (p : BitVec 4) : (s.advance w p).hostData = s.hostData := rfl
@[simp] theorem State.advance_ibufEpoch (s : State) (w : Work) (p : BitVec 4) : (s.advance w p).ibufEpoch = s.ibufEpoch := rfl
@[simp] theorem State.advance_obufEpoch (s : State) (w : Work) (p : BitVec 4) : (s.advance w p).obufEpoch = s.obufEpoch := rfl
@[simp] theorem State.advance_freeSeq (s : State) (w : Work) (p : BitVec 4) : (s.advance w p).freeSeq = s.freeSeq := rfl

/-! ### start -/

@[simp] theorem State.start_status (s : State) (o : Byte) (p : BitVec 4) : (s.start o p).status = (s.withFlags true false false).status := rfl
@[simp] theorem State.start_errKind (s : State) (o : Byte) (p : BitVec 4) : (s.start o p).errKind = 0x00#8 := rfl
@[simp] theorem State.start_errCause (s : State) (o : Byte) (p : BitVec 4) : (s.start o p).errCause = 0x00#8 := rfl
@[simp] theorem State.start_inLen (s : State) (o : Byte) (p : BitVec 4) : (s.start o p).inLen = s.inLen := rfl
@[simp] theorem State.start_outLen (s : State) (o : Byte) (p : BitVec 4) : (s.start o p).outLen = 0#64 := rfl
@[simp] theorem State.start_ibuf (s : State) (o : Byte) (p : BitVec 4) : (s.start o p).ibuf = s.ibuf := rfl
@[simp] theorem State.start_obuf (s : State) (o : Byte) (p : BitVec 4) : (s.start o p).obuf = s.obuf := rfl
@[simp] theorem State.start_phase (s : State) (o : Byte) (p : BitVec 4) : (s.start o p).phase = p := rfl
@[simp] theorem State.start_op (s : State) (o : Byte) (p : BitVec 4) : (s.start o p).op = o := rfl
@[simp] theorem State.start_work (s : State) (o : Byte) (p : BitVec 4) : (s.start o p).work = s.work.emptied := rfl
@[simp] theorem State.start_handoff (s : State) (o : Byte) (p : BitVec 4) : (s.start o p).handoff = true := rfl
@[simp] theorem State.start_params (s : State) (o : Byte) (p : BitVec 4) : (s.start o p).params = s.params := rfl
@[simp] theorem State.start_hostQueue (s : State) (o : Byte) (p : BitVec 4) : (s.start o p).hostQueue = s.hostQueue := rfl
@[simp] theorem State.start_hostData (s : State) (o : Byte) (p : BitVec 4) : (s.start o p).hostData = s.hostData := rfl
@[simp] theorem State.start_ibufEpoch (s : State) (o : Byte) (p : BitVec 4) : (s.start o p).ibufEpoch = s.ibufEpoch := rfl
@[simp] theorem State.start_obufEpoch (s : State) (o : Byte) (p : BitVec 4) : (s.start o p).obufEpoch = s.obufEpoch := rfl
@[simp] theorem State.start_freeSeq (s : State) (o : Byte) (p : BitVec 4) : (s.start o p).freeSeq = s.freeSeq := rfl

/-! ### finish -/

@[simp] theorem State.finish_status (s : State) : (s.finish).status = (s.withFlags false true false).status := rfl
@[simp] theorem State.finish_errKind (s : State) : (s.finish).errKind = 0x00#8 := rfl
@[simp] theorem State.finish_errCause (s : State) : (s.finish).errCause = 0x00#8 := rfl
@[simp] theorem State.finish_inLen (s : State) : (s.finish).inLen = s.inLen := rfl
@[simp] theorem State.finish_outLen (s : State) : (s.finish).outLen = BitVec.ofNat 64 s.work.outPtr := rfl
@[simp] theorem State.finish_ibuf (s : State) : (s.finish).ibuf = s.ibuf := rfl
@[simp] theorem State.finish_obuf (s : State) : (s.finish).obuf = s.obuf.below s.work.outPtr := rfl
@[simp] theorem State.finish_phase (s : State) : (s.finish).phase = phaseIdle := rfl
@[simp] theorem State.finish_op (s : State) : (s.finish).op = 0x00#8 := rfl
@[simp] theorem State.finish_work (s : State) : (s.finish).work = Work.free s.freeSeq := rfl
@[simp] theorem State.finish_handoff (s : State) : (s.finish).handoff = s.handoff := rfl
@[simp] theorem State.finish_params (s : State) : (s.finish).params = s.params := rfl
@[simp] theorem State.finish_hostQueue (s : State) : (s.finish).hostQueue = s.hostQueue := rfl
@[simp] theorem State.finish_hostData (s : State) : (s.finish).hostData = s.hostData := rfl
@[simp] theorem State.finish_ibufEpoch (s : State) : (s.finish).ibufEpoch = s.ibufEpoch := rfl
@[simp] theorem State.finish_obufEpoch (s : State) : (s.finish).obufEpoch = s.obufEpoch + 1 := rfl
@[simp] theorem State.finish_freeSeq (s : State) : (s.finish).freeSeq = s.freeSeq + 1 := rfl

/-! ### raise -/

@[simp] theorem State.raise_status (s : State) (c : ErrCause) : (s.raise c).status = (s.withFlags false true true).status := rfl
@[simp] theorem State.raise_errKind (s : State) (c : ErrCause) : (s.raise c).errKind = c.kind.code := rfl
@[simp] theorem State.raise_errCause (s : State) (c : ErrCause) : (s.raise c).errCause = c.code := rfl
@[simp] theorem State.raise_inLen (s : State) (c : ErrCause) : (s.raise c).inLen = s.inLen := rfl
@[simp] theorem State.raise_outLen (s : State) (c : ErrCause) : (s.raise c).outLen = 0#64 := rfl
@[simp] theorem State.raise_ibuf (s : State) (c : ErrCause) : (s.raise c).ibuf = s.ibuf := rfl
@[simp] theorem State.raise_obuf (s : State) (c : ErrCause) : (s.raise c).obuf = [] := rfl
@[simp] theorem State.raise_phase (s : State) (c : ErrCause) : (s.raise c).phase = phaseIdle := rfl
@[simp] theorem State.raise_op (s : State) (c : ErrCause) : (s.raise c).op = 0x00#8 := rfl
@[simp] theorem State.raise_work (s : State) (c : ErrCause) : (s.raise c).work = Work.free s.freeSeq := rfl
@[simp] theorem State.raise_handoff (s : State) (c : ErrCause) : (s.raise c).handoff = s.handoff := rfl
@[simp] theorem State.raise_params (s : State) (c : ErrCause) : (s.raise c).params = s.params := rfl
@[simp] theorem State.raise_hostQueue (s : State) (c : ErrCause) : (s.raise c).hostQueue = s.hostQueue := rfl
@[simp] theorem State.raise_hostData (s : State) (c : ErrCause) : (s.raise c).hostData = s.hostData := rfl
@[simp] theorem State.raise_ibufEpoch (s : State) (c : ErrCause) : (s.raise c).ibufEpoch = s.ibufEpoch := rfl
@[simp] theorem State.raise_obufEpoch (s : State) (c : ErrCause) : (s.raise c).obufEpoch = s.obufEpoch + 1 := rfl
@[simp] theorem State.raise_freeSeq (s : State) (c : ErrCause) : (s.raise c).freeSeq = s.freeSeq + 1 := rfl

/-! ### acknowledge -/

@[simp] theorem State.acknowledge_status (s : State) : (s.acknowledge).status = putBit (putBit s.status 1 false) 2 false := rfl
@[simp] theorem State.acknowledge_errKind (s : State) : (s.acknowledge).errKind = 0x00#8 := rfl
@[simp] theorem State.acknowledge_errCause (s : State) : (s.acknowledge).errCause = 0x00#8 := rfl
@[simp] theorem State.acknowledge_inLen (s : State) : (s.acknowledge).inLen = s.inLen := rfl
@[simp] theorem State.acknowledge_outLen (s : State) : (s.acknowledge).outLen = 0#64 := rfl
@[simp] theorem State.acknowledge_ibuf (s : State) : (s.acknowledge).ibuf = s.ibuf := rfl
@[simp] theorem State.acknowledge_obuf (s : State) : (s.acknowledge).obuf = s.obuf := rfl
@[simp] theorem State.acknowledge_phase (s : State) : (s.acknowledge).phase = s.phase := rfl
@[simp] theorem State.acknowledge_op (s : State) : (s.acknowledge).op = s.op := rfl
@[simp] theorem State.acknowledge_work (s : State) : (s.acknowledge).work = s.work := rfl
@[simp] theorem State.acknowledge_handoff (s : State) : (s.acknowledge).handoff = s.handoff := rfl
@[simp] theorem State.acknowledge_params (s : State) : (s.acknowledge).params = s.params := rfl
@[simp] theorem State.acknowledge_hostQueue (s : State) : (s.acknowledge).hostQueue = s.hostQueue := rfl
@[simp] theorem State.acknowledge_hostData (s : State) : (s.acknowledge).hostData = s.hostData := rfl
@[simp] theorem State.acknowledge_ibufEpoch (s : State) : (s.acknowledge).ibufEpoch = s.ibufEpoch := rfl
@[simp] theorem State.acknowledge_obufEpoch (s : State) : (s.acknowledge).obufEpoch = s.obufEpoch := rfl
@[simp] theorem State.acknowledge_freeSeq (s : State) : (s.acknowledge).freeSeq = s.freeSeq := rfl

/-! ### onReset -/

@[simp] theorem State.onReset_status (s : State) : (s.onReset).status = 0x00#8 := rfl
@[simp] theorem State.onReset_errKind (s : State) : (s.onReset).errKind = 0x00#8 := rfl
@[simp] theorem State.onReset_errCause (s : State) : (s.onReset).errCause = 0x00#8 := rfl
@[simp] theorem State.onReset_inLen (s : State) : (s.onReset).inLen = 0#64 := rfl
@[simp] theorem State.onReset_outLen (s : State) : (s.onReset).outLen = 0#64 := rfl
@[simp] theorem State.onReset_ibuf (s : State) : (s.onReset).ibuf = [] := rfl
@[simp] theorem State.onReset_obuf (s : State) : (s.onReset).obuf = [] := rfl
@[simp] theorem State.onReset_phase (s : State) : (s.onReset).phase = phaseIdle := rfl
@[simp] theorem State.onReset_op (s : State) : (s.onReset).op = 0x00#8 := rfl
@[simp] theorem State.onReset_work (s : State) : (s.onReset).work = Work.zero := rfl
@[simp] theorem State.onReset_handoff (s : State) : (s.onReset).handoff = false := rfl
@[simp] theorem State.onReset_params (s : State) : (s.onReset).params = s.params := rfl
@[simp] theorem State.onReset_hostQueue (s : State) : (s.onReset).hostQueue = s.hostQueue := rfl
@[simp] theorem State.onReset_hostData (s : State) : (s.onReset).hostData = s.hostData := rfl
@[simp] theorem State.onReset_ibufEpoch (s : State) : (s.onReset).ibufEpoch = s.ibufEpoch + 1 := rfl
@[simp] theorem State.onReset_obufEpoch (s : State) : (s.onReset).obufEpoch = s.obufEpoch + 1 := rfl
@[simp] theorem State.onReset_freeSeq (s : State) : (s.onReset).freeSeq = s.freeSeq := rfl

/-! ### answer -/

@[simp] theorem State.answer_status (s : State) (v : BitVec 64) : (s.answer v).status = s.status := rfl
@[simp] theorem State.answer_errKind (s : State) (v : BitVec 64) : (s.answer v).errKind = s.errKind := rfl
@[simp] theorem State.answer_errCause (s : State) (v : BitVec 64) : (s.answer v).errCause = s.errCause := rfl
@[simp] theorem State.answer_inLen (s : State) (v : BitVec 64) : (s.answer v).inLen = s.inLen := rfl
@[simp] theorem State.answer_outLen (s : State) (v : BitVec 64) : (s.answer v).outLen = s.outLen := rfl
@[simp] theorem State.answer_ibuf (s : State) (v : BitVec 64) : (s.answer v).ibuf = s.ibuf := rfl
@[simp] theorem State.answer_obuf (s : State) (v : BitVec 64) : (s.answer v).obuf = s.obuf := rfl
@[simp] theorem State.answer_phase (s : State) (v : BitVec 64) : (s.answer v).phase = s.phase := rfl
@[simp] theorem State.answer_op (s : State) (v : BitVec 64) : (s.answer v).op = s.op := rfl
@[simp] theorem State.answer_work (s : State) (v : BitVec 64) : (s.answer v).work = s.work := rfl
@[simp] theorem State.answer_handoff (s : State) (v : BitVec 64) : (s.answer v).handoff = s.handoff := rfl
@[simp] theorem State.answer_params (s : State) (v : BitVec 64) : (s.answer v).params = s.params := rfl
@[simp] theorem State.answer_hostQueue (s : State) (v : BitVec 64) : (s.answer v).hostQueue = s.hostQueue := rfl
@[simp] theorem State.answer_hostData (s : State) (v : BitVec 64) : (s.answer v).hostData = v := rfl
@[simp] theorem State.answer_ibufEpoch (s : State) (v : BitVec 64) : (s.answer v).ibufEpoch = s.ibufEpoch := rfl
@[simp] theorem State.answer_obufEpoch (s : State) (v : BitVec 64) : (s.answer v).obufEpoch = s.obufEpoch := rfl
@[simp] theorem State.answer_freeSeq (s : State) (v : BitVec 64) : (s.answer v).freeSeq = s.freeSeq := rfl

/-! ### loaded -/

@[simp] theorem State.loaded_status (s : State) (x : List Byte) : (s.loaded x).status = s.status := rfl
@[simp] theorem State.loaded_errKind (s : State) (x : List Byte) : (s.loaded x).errKind = s.errKind := rfl
@[simp] theorem State.loaded_errCause (s : State) (x : List Byte) : (s.loaded x).errCause = s.errCause := rfl
@[simp] theorem State.loaded_inLen (s : State) (x : List Byte) : (s.loaded x).inLen = BitVec.ofNat 64 x.length := rfl
@[simp] theorem State.loaded_outLen (s : State) (x : List Byte) : (s.loaded x).outLen = s.outLen := rfl
@[simp] theorem State.loaded_ibuf (s : State) (x : List Byte) : (s.loaded x).ibuf = s.ibuf.write 0 x := rfl
@[simp] theorem State.loaded_obuf (s : State) (x : List Byte) : (s.loaded x).obuf = s.obuf := rfl
@[simp] theorem State.loaded_phase (s : State) (x : List Byte) : (s.loaded x).phase = s.phase := rfl
@[simp] theorem State.loaded_op (s : State) (x : List Byte) : (s.loaded x).op = s.op := rfl
@[simp] theorem State.loaded_work (s : State) (x : List Byte) : (s.loaded x).work = s.work := rfl
@[simp] theorem State.loaded_handoff (s : State) (x : List Byte) : (s.loaded x).handoff = s.handoff := rfl
@[simp] theorem State.loaded_params (s : State) (x : List Byte) : (s.loaded x).params = s.params := rfl
@[simp] theorem State.loaded_hostQueue (s : State) (x : List Byte) : (s.loaded x).hostQueue = s.hostQueue := rfl
@[simp] theorem State.loaded_hostData (s : State) (x : List Byte) : (s.loaded x).hostData = s.hostData := rfl
@[simp] theorem State.loaded_ibufEpoch (s : State) (x : List Byte) : (s.loaded x).ibufEpoch = s.ibufEpoch := rfl
@[simp] theorem State.loaded_obufEpoch (s : State) (x : List Byte) : (s.loaded x).obufEpoch = s.obufEpoch := rfl
@[simp] theorem State.loaded_freeSeq (s : State) (x : List Byte) : (s.loaded x).freeSeq = s.freeSeq := rfl

/-! ### emptied -/

@[simp] theorem Work.emptied_k (w : Work) : (w.emptied).k = 0 := rfl
@[simp] theorem Work.emptied_n (w : Work) : (w.emptied).n = 0 := rfl
@[simp] theorem Work.emptied_root (w : Work) : (w.emptied).root = w.root := rfl
@[simp] theorem Work.emptied_t (w : Work) : (w.emptied).t = w.t := rfl
@[simp] theorem Work.emptied_pad (w : Work) : (w.emptied).pad = w.pad := rfl
@[simp] theorem Work.emptied_sc (w : Work) : (w.emptied).sc = w.sc := rfl
@[simp] theorem Work.emptied_padf (w : Work) : (w.emptied).padf = w.padf := rfl
@[simp] theorem Work.emptied_payOff (w : Work) : (w.emptied).payOff = w.payOff := rfl
@[simp] theorem Work.emptied_payLen (w : Work) : (w.emptied).payLen = w.payLen := rfl
@[simp] theorem Work.emptied_tExp (w : Work) : (w.emptied).tExp = w.tExp := rfl
@[simp] theorem Work.emptied_inPtr (w : Work) : (w.emptied).inPtr = 0 := rfl
@[simp] theorem Work.emptied_outPtr (w : Work) : (w.emptied).outPtr = 0 := rfl
@[simp] theorem Work.emptied_bitAcc (w : Work) : (w.emptied).bitAcc = w.bitAcc := rfl
@[simp] theorem Work.emptied_bitCnt (w : Work) : (w.emptied).bitCnt = w.bitCnt := rfl
@[simp] theorem Work.emptied_present (w : Work) : (w.emptied).present = Vector.replicate 256 false := rfl
@[simp] theorem Work.emptied_count (w : Work) : (w.emptied).count = w.count := rfl
@[simp] theorem Work.emptied_order (w : Work) : (w.emptied).order = w.order := rfl
@[simp] theorem Work.emptied_node (w : Work) : (w.emptied).node = w.node := rfl
@[simp] theorem Work.emptied_pq (w : Work) : (w.emptied).pq = [] := rfl
@[simp] theorem Work.emptied_codeValid (w : Work) : (w.emptied).codeValid = Vector.replicate 256 false := rfl
@[simp] theorem Work.emptied_codeLen (w : Work) : (w.emptied).codeLen = w.codeLen := rfl
@[simp] theorem Work.emptied_code (w : Work) : (w.emptied).code = w.code := rfl
@[simp] theorem Work.emptied_bits (w : Work) : (w.emptied).bits = [] := rfl
@[simp] theorem Work.emptied_acc (w : Work) : (w.emptied).acc = [] := rfl
@[simp] theorem Work.emptied_payload (w : Work) : (w.emptied).payload = w.payload := rfl

/-! ### setOrder -/

@[simp] theorem Work.setOrder_k (w : Work) (j : Nat) (b : Byte) : (w.setOrder j b).k = w.k := rfl
@[simp] theorem Work.setOrder_n (w : Work) (j : Nat) (b : Byte) : (w.setOrder j b).n = w.n := rfl
@[simp] theorem Work.setOrder_root (w : Work) (j : Nat) (b : Byte) : (w.setOrder j b).root = w.root := rfl
@[simp] theorem Work.setOrder_t (w : Work) (j : Nat) (b : Byte) : (w.setOrder j b).t = w.t := rfl
@[simp] theorem Work.setOrder_pad (w : Work) (j : Nat) (b : Byte) : (w.setOrder j b).pad = w.pad := rfl
@[simp] theorem Work.setOrder_sc (w : Work) (j : Nat) (b : Byte) : (w.setOrder j b).sc = w.sc := rfl
@[simp] theorem Work.setOrder_padf (w : Work) (j : Nat) (b : Byte) : (w.setOrder j b).padf = w.padf := rfl
@[simp] theorem Work.setOrder_payOff (w : Work) (j : Nat) (b : Byte) : (w.setOrder j b).payOff = w.payOff := rfl
@[simp] theorem Work.setOrder_payLen (w : Work) (j : Nat) (b : Byte) : (w.setOrder j b).payLen = w.payLen := rfl
@[simp] theorem Work.setOrder_tExp (w : Work) (j : Nat) (b : Byte) : (w.setOrder j b).tExp = w.tExp := rfl
@[simp] theorem Work.setOrder_inPtr (w : Work) (j : Nat) (b : Byte) : (w.setOrder j b).inPtr = w.inPtr := rfl
@[simp] theorem Work.setOrder_outPtr (w : Work) (j : Nat) (b : Byte) : (w.setOrder j b).outPtr = w.outPtr := rfl
@[simp] theorem Work.setOrder_bitAcc (w : Work) (j : Nat) (b : Byte) : (w.setOrder j b).bitAcc = w.bitAcc := rfl
@[simp] theorem Work.setOrder_bitCnt (w : Work) (j : Nat) (b : Byte) : (w.setOrder j b).bitCnt = w.bitCnt := rfl
@[simp] theorem Work.setOrder_present (w : Work) (j : Nat) (b : Byte) : (w.setOrder j b).present = w.present := rfl
@[simp] theorem Work.setOrder_count (w : Work) (j : Nat) (b : Byte) : (w.setOrder j b).count = w.count := rfl
@[simp] theorem Work.setOrder_order (w : Work) (j : Nat) (b : Byte) : (w.setOrder j b).order = w.order.take j ++ [b] := rfl
@[simp] theorem Work.setOrder_node (w : Work) (j : Nat) (b : Byte) : (w.setOrder j b).node = w.node := rfl
@[simp] theorem Work.setOrder_pq (w : Work) (j : Nat) (b : Byte) : (w.setOrder j b).pq = w.pq := rfl
@[simp] theorem Work.setOrder_codeValid (w : Work) (j : Nat) (b : Byte) : (w.setOrder j b).codeValid = w.codeValid := rfl
@[simp] theorem Work.setOrder_codeLen (w : Work) (j : Nat) (b : Byte) : (w.setOrder j b).codeLen = w.codeLen := rfl
@[simp] theorem Work.setOrder_code (w : Work) (j : Nat) (b : Byte) : (w.setOrder j b).code = w.code := rfl
@[simp] theorem Work.setOrder_bits (w : Work) (j : Nat) (b : Byte) : (w.setOrder j b).bits = w.bits := rfl
@[simp] theorem Work.setOrder_acc (w : Work) (j : Nat) (b : Byte) : (w.setOrder j b).acc = w.acc := rfl
@[simp] theorem Work.setOrder_payload (w : Work) (j : Nat) (b : Byte) : (w.setOrder j b).payload = w.payload := rfl

/-! ### assign -/

@[simp] theorem Work.assign_k (w : Work) (a : Byte × Bits) : (w.assign a).k = w.k := rfl
@[simp] theorem Work.assign_n (w : Work) (a : Byte × Bits) : (w.assign a).n = w.n := rfl
@[simp] theorem Work.assign_root (w : Work) (a : Byte × Bits) : (w.assign a).root = w.root := rfl
@[simp] theorem Work.assign_t (w : Work) (a : Byte × Bits) : (w.assign a).t = w.t := rfl
@[simp] theorem Work.assign_pad (w : Work) (a : Byte × Bits) : (w.assign a).pad = w.pad := rfl
@[simp] theorem Work.assign_sc (w : Work) (a : Byte × Bits) : (w.assign a).sc = w.sc := rfl
@[simp] theorem Work.assign_padf (w : Work) (a : Byte × Bits) : (w.assign a).padf = w.padf := rfl
@[simp] theorem Work.assign_payOff (w : Work) (a : Byte × Bits) : (w.assign a).payOff = w.payOff := rfl
@[simp] theorem Work.assign_payLen (w : Work) (a : Byte × Bits) : (w.assign a).payLen = w.payLen := rfl
@[simp] theorem Work.assign_tExp (w : Work) (a : Byte × Bits) : (w.assign a).tExp = w.tExp := rfl
@[simp] theorem Work.assign_inPtr (w : Work) (a : Byte × Bits) : (w.assign a).inPtr = w.inPtr := rfl
@[simp] theorem Work.assign_outPtr (w : Work) (a : Byte × Bits) : (w.assign a).outPtr = w.outPtr := rfl
@[simp] theorem Work.assign_bitAcc (w : Work) (a : Byte × Bits) : (w.assign a).bitAcc = w.bitAcc := rfl
@[simp] theorem Work.assign_bitCnt (w : Work) (a : Byte × Bits) : (w.assign a).bitCnt = w.bitCnt := rfl
@[simp] theorem Work.assign_present (w : Work) (a : Byte × Bits) : (w.assign a).present = w.present := rfl
@[simp] theorem Work.assign_count (w : Work) (a : Byte × Bits) : (w.assign a).count = w.count := rfl
@[simp] theorem Work.assign_order (w : Work) (a : Byte × Bits) : (w.assign a).order = w.order := rfl
@[simp] theorem Work.assign_node (w : Work) (a : Byte × Bits) : (w.assign a).node = w.node := rfl
@[simp] theorem Work.assign_pq (w : Work) (a : Byte × Bits) : (w.assign a).pq = w.pq := rfl
@[simp] theorem Work.assign_codeValid (w : Work) (a : Byte × Bits) : (w.assign a).codeValid = SymTable.put w.codeValid a.1 true := rfl
@[simp] theorem Work.assign_codeLen (w : Work) (a : Byte × Bits) : (w.assign a).codeLen = SymTable.put w.codeLen a.1 a.2.length := rfl
@[simp] theorem Work.assign_code (w : Work) (a : Byte × Bits) : (w.assign a).code = SymTable.put w.code a.1 a.2 := rfl
@[simp] theorem Work.assign_bits (w : Work) (a : Byte × Bits) : (w.assign a).bits = w.bits := rfl
@[simp] theorem Work.assign_acc (w : Work) (a : Byte × Bits) : (w.assign a).acc = w.acc := rfl
@[simp] theorem Work.assign_payload (w : Work) (a : Byte × Bits) : (w.assign a).payload = w.payload := rfl

/-! ### freeBitRegs -/

@[simp] theorem Work.freeBitRegs_k (w : Work) (q : Nat) : (w.freeBitRegs q).k = w.k := rfl
@[simp] theorem Work.freeBitRegs_n (w : Work) (q : Nat) : (w.freeBitRegs q).n = w.n := rfl
@[simp] theorem Work.freeBitRegs_root (w : Work) (q : Nat) : (w.freeBitRegs q).root = w.root := rfl
@[simp] theorem Work.freeBitRegs_t (w : Work) (q : Nat) : (w.freeBitRegs q).t = w.t := rfl
@[simp] theorem Work.freeBitRegs_pad (w : Work) (q : Nat) : (w.freeBitRegs q).pad = w.pad := rfl
@[simp] theorem Work.freeBitRegs_sc (w : Work) (q : Nat) : (w.freeBitRegs q).sc = w.sc := rfl
@[simp] theorem Work.freeBitRegs_padf (w : Work) (q : Nat) : (w.freeBitRegs q).padf = w.padf := rfl
@[simp] theorem Work.freeBitRegs_payOff (w : Work) (q : Nat) : (w.freeBitRegs q).payOff = w.payOff := rfl
@[simp] theorem Work.freeBitRegs_payLen (w : Work) (q : Nat) : (w.freeBitRegs q).payLen = w.payLen := rfl
@[simp] theorem Work.freeBitRegs_tExp (w : Work) (q : Nat) : (w.freeBitRegs q).tExp = w.tExp := rfl
@[simp] theorem Work.freeBitRegs_inPtr (w : Work) (q : Nat) : (w.freeBitRegs q).inPtr = w.inPtr := rfl
@[simp] theorem Work.freeBitRegs_outPtr (w : Work) (q : Nat) : (w.freeBitRegs q).outPtr = w.outPtr := rfl
@[simp] theorem Work.freeBitRegs_bitAcc (w : Work) (q : Nat) : (w.freeBitRegs q).bitAcc = (Config.freeWord q 12).setWidth 8 := rfl
@[simp] theorem Work.freeBitRegs_bitCnt (w : Work) (q : Nat) : (w.freeBitRegs q).bitCnt = (Config.freeWord q 13).setWidth 3 := rfl
@[simp] theorem Work.freeBitRegs_present (w : Work) (q : Nat) : (w.freeBitRegs q).present = w.present := rfl
@[simp] theorem Work.freeBitRegs_count (w : Work) (q : Nat) : (w.freeBitRegs q).count = w.count := rfl
@[simp] theorem Work.freeBitRegs_order (w : Work) (q : Nat) : (w.freeBitRegs q).order = w.order := rfl
@[simp] theorem Work.freeBitRegs_node (w : Work) (q : Nat) : (w.freeBitRegs q).node = w.node := rfl
@[simp] theorem Work.freeBitRegs_pq (w : Work) (q : Nat) : (w.freeBitRegs q).pq = w.pq := rfl
@[simp] theorem Work.freeBitRegs_codeValid (w : Work) (q : Nat) : (w.freeBitRegs q).codeValid = w.codeValid := rfl
@[simp] theorem Work.freeBitRegs_codeLen (w : Work) (q : Nat) : (w.freeBitRegs q).codeLen = w.codeLen := rfl
@[simp] theorem Work.freeBitRegs_code (w : Work) (q : Nat) : (w.freeBitRegs q).code = w.code := rfl
@[simp] theorem Work.freeBitRegs_bits (w : Work) (q : Nat) : (w.freeBitRegs q).bits = w.bits := rfl
@[simp] theorem Work.freeBitRegs_acc (w : Work) (q : Nat) : (w.freeBitRegs q).acc = w.acc := rfl
@[simp] theorem Work.freeBitRegs_payload (w : Work) (q : Nat) : (w.freeBitRegs q).payload = w.payload := rfl

end Sys2Proof.Machine
end

