-- ==== Sys2Proof/Laws/Ops.lean ====
section
/-!
SUPPORT. Laws/Ops.lean: what each shared operation can do, said once.
-/
namespace Sys2Proof.Machine

/-! ### Flags -/

@[simp] theorem putBit_getLsbD_self (v : BitVec 8) (i : Fin 3) (b : Bool) :
    (putBit v i b).getLsbD i = b := by
  revert v
  fin_cases i <;> cases b <;> decide

@[simp] theorem State.withFlags_busy (s : State) (x y z : Bool) : (s.withFlags x y z).busy = x := by
  simp only [State.busy, State.withFlags]
  generalize s.status = v
  cases x <;> cases y <;> cases z <;> revert v <;> decide

@[simp] theorem State.withFlags_done (s : State) (x y z : Bool) : (s.withFlags x y z).done = y := by
  simp only [State.done, State.withFlags]
  generalize s.status = v
  cases x <;> cases y <;> cases z <;> revert v <;> decide

@[simp] theorem State.withFlags_err (s : State) (x y z : Bool) : (s.withFlags x y z).err = z := by
  simp only [State.err, State.withFlags]
  generalize s.status = v
  cases x <;> cases y <;> cases z <;> revert v <;> decide

/-! ### Guards -/

/-- A phase that answers a next state ran under an `OP` value of its row. -/
theorem underOp_next {i : Instr} {s t : State} {r : Result} (h : underOp i s r = .next t) :
    i.wellFormed s.op = true ∧ r = .next t := by
  unfold underOp at h
  split at h
  · exact ⟨‹_›, h⟩
  · cases h

@[simp] theorem underOp_of_wellFormed {i : Instr} {s : State} (h : i.wellFormed s.op = true) (r : Result) :
    underOp i s r = r := if_pos h

/-- A command that answers a next state was written while BUSY = 0. -/
theorem whenIdle_next {s t : State} {r : Result} (h : whenIdle s r = .next t) : s.busy = false ∧ r = .next t := by
  unfold whenIdle at h
  split at h
  · cases h
  · next hb => exact ⟨by simpa using hb, h⟩

@[simp] theorem whenIdle_of_idle {s : State} (h : s.busy = false) (r : Result) : whenIdle s r = r := by
  simp [whenIdle, h]

/-- A host access that answers a next state was made while idle, with no hand-off pending. -/
theorem afterHandoff_next {s t : State} {r : Result} (h : afterHandoff s r = .next t) :
    s.busy = false ∧ s.handoff = false ∧ r = .next t := by
  unfold afterHandoff at h
  split at h
  · cases h
  · next hb =>
    split at h
    · cases h
    · next hh => exact ⟨by simpa using hb, by simpa using hh, h⟩

/-! ### Buffer accesses -/

/-- `MemRead` answers exactly where it is defined (R66). -/
theorem State.memRead_ok_iff {s : State} {addr n : Nat} {x : List Byte} :
    s.memRead addr n = .ok x ↔
      addr + n ≤ s.inLen.toNat ∧ addr + n ≤ s.params.ibufCap.val ∧ x = s.ibufBytes addr n := by
  unfold State.memRead
  split
  · next h => simp [h.1, h.2, eq_comm]
  · next h =>
    simp only [reduceCtorEq, false_iff]
    intro h'
    exact h ⟨h'.1, h'.2.1⟩

@[simp] theorem State.ibufBytes_length (s : State) (a n : Nat) : (s.ibufBytes a n).length = n := by
  simp [State.ibufBytes]

@[simp] theorem State.obufBytes_length (s : State) (a n : Nat) : (s.obufBytes a n).length = n := by
  simp [State.obufBytes]

/-- `MemWrite` answers exactly where it is defined (R67), and writes those bytes only. -/
theorem State.memWrite_some_iff {s t : State} {addr : Nat} {v : List Byte} :
    s.memWrite addr v = some t ↔
      addr + v.length ≤ s.params.obufCap.val ∧ t = { s with obuf := s.obuf.write addr v } := by
  unfold State.memWrite
  split
  · next h => simp [h, eq_comm]
  · next h => simp [h]

/-! ### Tables -/

@[simp] theorem SymTable.at_put {α : Type} (t : SymTable α) (s r : Byte) (v : α) :
    SymTable.at (SymTable.put t s v) r = if s = r then v else SymTable.at t r := by
  unfold SymTable.at SymTable.put
  rw [Vector.getElem_set]
  by_cases h : s = r
  · rw [if_pos h, if_pos (congrArg BitVec.toNat h)]
  · rw [if_neg h, if_neg fun h' => h (BitVec.eq_of_toNat_eq h')]

@[simp] theorem SymTable.at_replicate {α : Type} (a : α) (s : Byte) :
    SymTable.at (Vector.replicate 256 a) s = a := Vector.getElem_replicate s.isLt

/-- What the frequency table reads as: one entry per symbol, each present (R51). -/
theorem Work.entriesOf_ok_iff {w : Work} {ss : List Byte} {x : List (Byte × Nat)} :
    w.entriesOf ss = .ok x ↔
      (∀ s ∈ ss, SymTable.at w.present s = true) ∧ x = ss.map (fun s => (s, SymTable.at w.count s)) := by
  induction ss generalizing x with
  | nil =>
    constructor
    · intro h
      cases h
      exact ⟨by simp, rfl⟩
    · rintro ⟨-, rfl⟩
      rfl
  | cons s rest ih =>
    by_cases hs : SymTable.at w.present s = true
    · rcases hr : w.entriesOf rest with e | ps
      · have hne : ¬(∀ s ∈ rest, SymTable.at w.present s = true) := by
          intro hall
          have := (ih (x := rest.map (fun s => (s, SymTable.at w.count s)))).2 ⟨hall, rfl⟩
          rw [hr] at this
          cases this
        have : w.entriesOf (s :: rest) = .error e := by simp [Work.entriesOf, Work.entryOf, hs, hr]
        rw [this]
        simp only [reduceCtorEq, false_iff]
        rintro ⟨h, -⟩
        exact hne fun r hr' => h r (by simp [hr'])
      · have h := (ih (x := ps)).1 hr
        have : w.entriesOf (s :: rest) = .ok ((s, SymTable.at w.count s) :: ps) := by
          simp [Work.entriesOf, Work.entryOf, hs, hr]
        rw [this]
        constructor
        · intro heq
          cases heq
          exact ⟨by simpa [hs] using h.1, by simp [h.2]⟩
        · rintro ⟨-, rfl⟩
          simp [h.2]
    · have : w.entriesOf (s :: rest) = .error .countEntryAbsent := by simp [Work.entriesOf, Work.entryOf, hs]
      rw [this]
      simp only [reduceCtorEq, false_iff]
      rintro ⟨h, -⟩
      exact hs (h s (by simp))

/-- The frequency table in leaf order, where it can be read (R29, R30, R51). -/
theorem Work.table_ok_iff {w : Work} {x : List (Byte × Nat)} :
    w.table = .ok x ↔
      w.k ≤ w.order.length ∧ (∀ s ∈ w.order.take w.k, SymTable.at w.present s = true) ∧
        x = (w.order.take w.k).map (fun s => (s, SymTable.at w.count s)) := by
  unfold Work.table
  split
  · next h =>
    simp only [reduceCtorEq, false_iff]
    omega
  · next h => rw [Work.entriesOf_ok_iff]; simp [Nat.le_of_not_lt h]

/-- A table that can be read has `K` entries. -/
theorem Work.table_length {w : Work} {x : List (Byte × Nat)} (h : w.table = .ok x) : x.length = w.k := by
  obtain ⟨hk, -, rfl⟩ := Work.table_ok_iff.1 h
  simp [hk]

/-- The codes ENC_MAP concatenates, where every symbol has one (R186, R51). -/
theorem Work.mapBytes_of_valid {w : Work} {x : List Byte} (h : ∀ b ∈ x, SymTable.at w.codeValid b = true) :
    w.mapBytes x =
      .ok (x.flatMap (fun b => SymTable.at w.code b), (x.map (fun b => SymTable.at w.codeLen b)).sum) := by
  induction x with
  | nil => rfl
  | cons b rest ih =>
    have hb := h b (by simp)
    have hr := ih fun c hc => h c (by simp [hc])
    simp [Work.mapBytes, Work.codeOf, hb, hr]

/-- A count that is not there stops the read of a table at once (R51). -/
theorem Work.entriesOf_of_absent {w : Work} {ss : List Byte}
    (h : ∃ s ∈ ss, SymTable.at w.present s = false) : w.entriesOf ss = .error .countEntryAbsent := by
  induction ss with
  | nil => simp at h
  | cons s rest ih =>
    cases hs : SymTable.at w.present s with
    | false => simp [Work.entriesOf, Work.entryOf, hs]
    | true =>
      have hr := ih (by simpa [hs] using h)
      simp [Work.entriesOf, Work.entryOf, hs, hr]

/-- A byte without a code stops ENC_MAP's loop (R51, R186). -/
theorem Work.mapBytes_of_invalid {w : Work} {x : List Byte}
    (h : ∃ b ∈ x, SymTable.at w.codeValid b = false) : w.mapBytes x = .error .codeEntryInvalid := by
  induction x with
  | nil => simp at h
  | cons b rest ih =>
    cases hb : SymTable.at w.codeValid b with
    | false => simp [Work.mapBytes, Work.codeOf, hb]
    | true =>
      have hr := ih (by simpa [hb] using h)
      simp [Work.mapBytes, Work.codeOf, hb, hr]

/-- The sum of LEN_CHECK, where every symbol of the table has a code (R210, R51). -/
theorem Work.impliedBits_of_valid {w : Work} {table : List (Byte × Nat)}
    (h : ∀ p ∈ table, SymTable.at w.codeValid p.1 = true) :
    w.impliedBits table = .ok (table.map (fun p => p.2 * SymTable.at w.codeLen p.1)).sum := by
  induction table with
  | nil => rfl
  | cons p rest ih =>
    have hp := h p (by simp)
    have hr := ih fun q hq => h q (by simp [hq])
    simp [Work.impliedBits, Work.codeOf, hp, hr]

/-- A symbol without a code stops it (R51). -/
theorem Work.impliedBits_of_invalid {w : Work} {table : List (Byte × Nat)}
    (h : ∃ p ∈ table, SymTable.at w.codeValid p.1 = false) : w.impliedBits table = .error .codeEntryInvalid := by
  induction table with
  | nil => simp at h
  | cons p rest ih =>
    cases hp : SymTable.at w.codeValid p.1 with
    | false => simp [Work.impliedBits, Work.codeOf, hp]
    | true =>
      have hr : ∃ q ∈ rest, SymTable.at w.codeValid q.1 = false := by
        obtain ⟨q, hq, hv⟩ := h
        rcases List.mem_cons.1 hq with rfl | hq
        · rw [hp] at hv; cases hv
        · exact ⟨q, hq, hv⟩
      simp [Work.impliedBits, Work.codeOf, hp, ih hr]

/-- What a Frame that decodes emits is its result, so the bound of R63 is there the bound of R233. -/
theorem emittedSymbols_of_ok {f y : List Byte} (h : decompress f = .ok y) : emittedSymbols f = y := by
  unfold decompress at h
  unfold emittedSymbols
  cases ho : openFrame f with
  | error e => rw [ho] at h; cases h
  | ok r =>
    rw [ho] at h
    simp only at h
    split at h
    · cases h
    · cases h; rfl

@[simp] theorem decompressFits_iff (s : State) :
    decompressFits s = true ↔ (emittedSymbols s.input).length ≤ s.params.obufCap.val := by
  simp [decompressFits]

/-! ### Steps -/

theorem step_of_queue_nil {s : State} (h : s.hostQueue = []) : step s = sequencerMove s := by
  simp [step, machineMove, h]

theorem step_of_queue_cons {s : State} {a : HostAction} {rest : List HostAction} (h : s.hostQueue = a :: rest) :
    step s = hostMove a s { s with hostQueue := rest } := by
  simp [step, machineMove, h]

theorem sequencerMove_of_idle {s : State} (h : s.busy = false) : sequencerMove s = .next s := by
  simp [sequencerMove, h]

@[simp] theorem runSteps_zero (s : State) : runSteps 0 s = .next s := rfl

theorem runSteps_succ_of_next {s t : State} (h : step s = .next t) (n : Nat) :
    runSteps (n + 1) s = runSteps n t := by
  simp [runSteps, h]

/-- A run of `n + m` steps is a run of `n` and then one of `m`. -/
theorem runSteps_add {s t : State} {n : Nat} (h : runSteps n s = .next t) (m : Nat) :
    runSteps (n + m) s = runSteps m t := by
  induction n generalizing s with
  | zero =>
    cases h
    rw [Nat.zero_add]
  | succ n ih =>
    cases hs : step s with
    | next u =>
      rw [runSteps_succ_of_next hs] at h
      rw [Nat.succ_add, runSteps_succ_of_next hs]
      exact ih h
    | fault f => simp [runSteps, hs] at h
    | refused r => simp [runSteps, hs] at h

end Sys2Proof.Machine
end

