-- ==== Sys2Proof/Laws/PerInstr.lean ====
section
/-!
SUPPORT. Laws/PerInstr.lean: one family per statement "for all operations", one lemma per constructor.
`TableRow`: the word the encoder gives an operation has the row's width and is read back from it.
-/
namespace Sys2Proof.Laws.TableRow

/-- The encoder's code has the width of the operation's format, and as an opcode-table word of that width
it is read as the operation (R103, R104). -/
def Statement (i : Instr) : Prop :=
  (encode i).width = (match i.format with | .cmd => 8 | .phase => 4) ∧
    decodeTableWord (encode i).width (encode i).toNat = some i

theorem nop : Statement .nop := ⟨rfl, by decide⟩
theorem compress : Statement .compress := ⟨rfl, by decide⟩
theorem decompress : Statement .decompress := ⟨rfl, by decide⟩
theorem clear : Statement .clear := ⟨rfl, by decide⟩
theorem ftBuild : Statement .ftBuild := ⟨rfl, by decide⟩
theorem treeBuild : Statement .treeBuild := ⟨rfl, by decide⟩
theorem cbDerive : Statement .cbDerive := ⟨rfl, by decide⟩
theorem encMap : Statement .encMap := ⟨rfl, by decide⟩
theorem bpPack : Statement .bpPack := ⟨rfl, by decide⟩
theorem frameEmit : Statement .frameEmit := ⟨rfl, by decide⟩
theorem frameParse : Statement .frameParse := ⟨rfl, by decide⟩
theorem lenCheck : Statement .lenCheck := ⟨rfl, by decide⟩
theorem bpUnpack : Statement .bpUnpack := ⟨rfl, by decide⟩
theorem decWalk : Statement .decWalk := ⟨rfl, by decide⟩

end Sys2Proof.Laws.TableRow
end

