-- ==== Sys2Proof/Tests/Slice0.lean ====
section
/-!
SUPPORT. Tests/Slice0.lean: small tests (expected values from the worked examples of the spec's rules and from
95_test_vectors.md), the smoke tests of WellFormed, and for every obligation with hypotheses a state and
operands that meet them, one for each clause, at boundary values.
-/
namespace Sys2Proof.Tests
-- one theorem at a time: each one runs the machine in the kernel, and many at once need too much memory
set_option Elab.async false
open Sys2Proof Sys2Proof.Machine

/-! ### Helpers -/

def next? : Result → Option State
  | .next t => some t
  | .fault _ => none
  | .refused _ => none

/-- The state a step answers; the reset state when it answers none. -/
def after (r : Result) : State := (next? r).getD State.reset

def goesOn (r : Result) : Bool := (next? r).isSome

def refuses (r : Result) (why : Refusal) : Bool :=
  match r with
  | .refused x => x == why
  | .next _ => false
  | .fault _ => false

def faults (r : Result) (why : Fault) : Bool :=
  match r with
  | .fault x => x == why
  | .next _ => false
  | .refused _ => false

theorem exists_next_of_goesOn {r : Result} (h : goesOn r = true) : ∃ t, r = .next t := by
  cases r with
  | next t => exact ⟨t, rfl⟩
  | fault f => cases h
  | refused f => cases h

/-- The reset state with these capacities and these host actions pending. -/
def boot (ibufCap obufCap : Fin (capMax + 1)) (q : List HostAction) : State :=
  { State.reset with params := ⟨ibufCap, obufCap⟩, hostQueue := q }

/-- The state `n` steps after that. -/
def ran (n : Nat) (ibufCap obufCap : Fin (capMax + 1)) (q : List HostAction) : State :=
  after (runSteps n (boot ibufCap obufCap q))

/-- `aabbbc`, and its Frame (R101). -/
def text : List Byte := [0x61#8, 0x61#8, 0x62#8, 0x62#8, 0x62#8, 0x63#8]
def frame : List Byte :=
  [0x00#8, 0x03#8, 0x07#8, 0x61#8, 0#8, 0#8, 0#8, 2#8, 0x62#8, 0#8, 0#8, 0#8, 3#8, 0x63#8, 0#8, 0#8, 0#8, 1#8,
   0xF1#8, 0x00#8]

/-- The frequency tables of `aabbbc` and of one symbol. -/
def table3 : List (Byte × Nat) := [(0x61#8, 2), (0x62#8, 3), (0x63#8, 1)]
def table1 : List (Byte × Nat) := [(0x61#8, 4)]

/-- COMPRESS of `aabbbc`, entering phase FT_BUILD at 2, then TREE_BUILD, CB_DERIVE, ENC_MAP, BP_PACK,
FRAME_EMIT at 7; the buffers are as small as they may be. -/
def enc (n : Nat) : State := ran n 6 20 [.load text, .writeCmd 0x01#8]

/-- DECOMPRESS of a Frame, entering FRAME_PARSE at 2, then (with a table) TREE_BUILD, CB_DERIVE, LEN_CHECK,
BP_UNPACK, DEC_WALK at 7. -/
def dec (n : Nat) (f : List Byte) : State := ran n 20 6 [.load f, .writeCmd 0x02#8]

/-- The Frame cut by one byte (P3), with a wrong pad field, with a last code cut short (V12), with a table of
one symbol whose count is 0 (V11), with the same symbol twice (V12). -/
def frameCut : List Byte := frame.dropLast
def framePad8 : List Byte := [0x00#8, 0x01#8, 0x08#8, 0x61#8, 0#8, 0#8, 0#8, 8#8, 0#8, 0#8]
def frameTrail : List Byte := [0x00#8, 0x01#8, 0x07#8, 0x61#8, 0#8, 0#8, 0#8, 1#8, 0x80#8]
def frameZero : List Byte := [0x00#8, 0x01#8, 0x00#8, 0x61#8, 0#8, 0#8, 0#8, 0#8]
def frameDup : List Byte :=
  [0x00#8, 0x02#8, 0x06#8, 0x61#8, 0#8, 0#8, 0#8, 1#8, 0x61#8, 0#8, 0#8, 0#8, 1#8, 0x40#8]

/-- The Frame of V10's row `ab` with the symbols 00 and 01 in place of `a` and `b`. -/
def frameAb : List Byte :=
  [0x00#8, 0x02#8, 0x06#8, 0x00#8, 0#8, 0#8, 0#8, 1#8, 0x01#8, 0#8, 0#8, 0#8, 1#8, 0x40#8]
def textAb : List Byte := [0x00#8, 0x01#8]

/-- The table of flags has no bit set. -/
def emptyFlags (t : SymTable Bool) : Bool := t.toList.all (fun b => !b)

theorem at_of_emptyFlags {t : SymTable Bool} (h : emptyFlags t = true) (b : Byte) : SymTable.at t b = false := by
  have := List.all_eq_true.mp h (t[b.toNat]'b.isLt) (by simp)
  simpa [SymTable.at] using this

/-! ### WellFormed (R104, R27): what the check refuses -/

theorem test_command_under_op_ill_formed : Instr.nop.wellFormed 0x01#8 = false := by decide
theorem test_start_under_op_ill_formed : Instr.compress.wellFormed 0x02#8 = false := by decide
theorem test_encoder_phase_under_decompress_ill_formed : Instr.encMap.wellFormed 0x02#8 = false := by decide
theorem test_decoder_phase_under_compress_ill_formed : Instr.decWalk.wellFormed 0x01#8 = false := by decide
theorem test_shared_phase_when_idle_ill_formed : Instr.treeBuild.wellFormed 0x00#8 = false := by decide
theorem test_shared_phase_under_either_op :
    Instr.treeBuild.wellFormed 0x01#8 = true ∧ Instr.cbDerive.wellFormed 0x02#8 = true := by decide

/-! ### Decoding: each row's code, bit by bit, from R103 and R27 -/

theorem test_decode_nop : decodeCmd 0b00000000#8 = .ok .nop := by decide
theorem test_decode_compress : decodeCmd 0b00000001#8 = .ok .compress := by decide
theorem test_decode_decompress : decodeCmd 0b00000010#8 = .ok .decompress := by decide
theorem test_decode_clear : decodeCmd 0b00000011#8 = .ok .clear := by decide
theorem test_decode_ftBuild : decodePhase 0b0001#4 = .ok .ftBuild := by decide
theorem test_decode_treeBuild : decodePhase 0b0010#4 = .ok .treeBuild := by decide
theorem test_decode_cbDerive : decodePhase 0b0011#4 = .ok .cbDerive := by decide
theorem test_decode_encMap : decodePhase 0b0100#4 = .ok .encMap := by decide
theorem test_decode_bpPack : decodePhase 0b0101#4 = .ok .bpPack := by decide
theorem test_decode_frameEmit : decodePhase 0b0110#4 = .ok .frameEmit := by decide
theorem test_decode_frameParse : decodePhase 0b1000#4 = .ok .frameParse := by decide
theorem test_decode_lenCheck : decodePhase 0b1001#4 = .ok .lenCheck := by decide
theorem test_decode_bpUnpack : decodePhase 0b1010#4 = .ok .bpUnpack := by decide
theorem test_decode_decWalk : decodePhase 0b1011#4 = .ok .decWalk := by decide
theorem test_decode_rejects_by_name :
    decodeCmd 0x04#8 = .error (.reservedCommand 0x04#8) ∧ decodeCmd 0xFF#8 = .error (.reservedCommand 0xFF#8) ∧
      decodePhase 7#4 = .error (.reservedPhase 7#4) ∧ decodePhase 12#4 = .error (.reservedPhase 12#4) ∧
      decodePhase 15#4 = .error (.reservedPhase 15#4) ∧ decodePhase 0#4 = .error .idlePhase := by decide

/-! ### The operations, one step each -/

/-- R120's example, the input `aabbbc`: K, ORDER and the counts. -/
theorem test_ftBuild :
    (after (exec .ftBuild (enc 2))).work.table = .ok table3 ∧ (after (exec .ftBuild (enc 2))).phase = 2#4 := by
  decide +kernel

/-- R130's example: 3 = (2, 0), 4 = (1, 3), ROOT = 4. -/
theorem test_treeBuild : (after (exec .treeBuild (enc 3))).work.node.drop 3 =
    [.internal 3 2 0, .internal 6 1 3] ∧ (after (exec .treeBuild (enc 3))).work.root = 4 := by decide +kernel

/-- R140, fifth row, and R140, third row. -/
theorem test_treeBuild_ties :
    (buildTree [(0x6D#8, 1), (0x69#8, 4), (0x73#8, 4), (0x70#8, 2)]).1.drop 4 =
        [.internal 3 0 3, .internal 7 4 1, .internal 11 2 5] ∧
      (buildTree [(0x61#8, 1), (0x62#8, 1), (0x63#8, 1)]).1.drop 3 = [.internal 2 0 1, .internal 3 2 3] := by
  decide

/-- R150's example: b = "0", c = "10", a = "11". -/
theorem test_cbDerive : (after (exec .cbDerive (enc 4))).work.codeOf 0x63#8 = .ok ([true, false], 2) ∧
    (after (exec .cbDerive (enc 4))).work.rev [true, true] = some 0x61#8 := by decide +kernel

/-- R152: one symbol has the code "0". -/
theorem test_cbDerive_single : codesOf table1 = [(0x61#8, [false])] := by decide

/-- R186's example: "111100010", T = 9. -/
theorem test_encMap : (after (exec .encMap (enc 5))).work.bits =
    [true, true, true, true, false, false, false, true, false] ∧
    (after (exec .encMap (enc 5))).work.t = 9 := by decide +kernel

/-- R165's example: PAD = 7, PAYLOAD = F1 00; and R169, "10110". -/
theorem test_bpPack : (after (exec .bpPack (enc 6))).work.payload = [0xF1#8, 0x00#8] ∧
    (after (exec .bpPack (enc 6))).work.pad = 7 := by decide +kernel
theorem test_pack_row : pack [true, false, true, true, false] = [0xB0#8] := by decide

/-- R101: the Frame of `aabbbc`, and `OUT_LEN = 20`, `STATUS = 0x02`. -/
theorem test_frameEmit : (after (exec .frameEmit (enc 7))).output = frame ∧
    (after (exec .frameEmit (enc 7))).status = 0x02#8 := by decide +kernel

/-- R204's example: SC = 2, PADF = 6, PAY_OFF = 13, PAY_LEN = 1. -/
theorem test_frameParse :
    (after (exec .frameParse (dec 2 frameAb))).work.payOff = 13 ∧ (after (exec .frameParse (dec 2 frame))).work.padf = 7 := by
  decide +kernel

/-- R258, first row: `01 01 00` reports InvalidInputError(SYMCOUNT_RANGE). -/
theorem test_frameParse_range : (after (exec .frameParse (dec 2 [1#8, 1#8, 0#8]))).errKind = 2#8 ∧
    (after (exec .frameParse (dec 2 [1#8, 1#8, 0#8]))).errCause = 5#8 := by decide +kernel

/-- R210's example: T_EXP = 9; and V12, a Frame cut by one byte. -/
theorem test_lenCheck : (after (exec .lenCheck (dec 5 frame))).work.tExp = 9 ∧
    (after (exec .lenCheck (dec 5 frameCut))).errCause = 3#8 := by decide +kernel

/-- R170's example: F1 00 with PADF = 7. -/
theorem test_bpUnpack : (after (exec .bpUnpack (dec 6 frame))).work.bits =
    [true, true, true, true, false, false, false, true, false] := by decide +kernel

/-- The walk of R214 over the codes "0" and "1" (R158, second row). -/
theorem test_decWalk : (after (exec .decWalk (dec 7 frameAb))).output = textAb ∧
    (after (exec .decWalk (dec 7 frameAb))).outLen = 2#64 := by decide +kernel

/-- R231 and R234, worked examples. -/
theorem test_nop : (after (exec .nop { State.reset with status := 0x02#8 })).status = 0x02#8 := by decide
theorem test_clear :
    (after (exec .clear { State.reset with status := 0x06#8, errKind := 1#8, errCause := 4#8 })).status = 0x00#8 ∧
    (after (exec .clear { State.reset with status := 0x06#8, errKind := 1#8, errCause := 4#8 })).errCause = 0#8 := by
  decide

/-- V13: a start clears a pending error at once. -/
theorem test_compress :
    (after (exec .compress { State.reset with status := 0x06#8, errKind := 2#8, errCause := 6#8 })).status = 0x01#8 ∧
    (after (exec .compress { State.reset with status := 0x06#8, errKind := 2#8, errCause := 6#8 })).errKind = 0#8 := by
  decide +kernel
theorem test_decompress : (after (exec .decompress State.reset)).phase = 8#4 ∧
    (after (exec .decompress State.reset)).op = 0x02#8 := by decide +kernel

/-- V10, `mississippi`. -/
theorem test_compress_function :
    compress [0x6D#8, 0x69#8, 0x73#8, 0x73#8, 0x69#8, 0x73#8, 0x73#8, 0x69#8, 0x70#8, 0x70#8, 0x69#8] =
      [0x00#8, 0x04#8, 0x03#8, 0x6D#8, 0#8, 0#8, 0#8, 1#8, 0x69#8, 0#8, 0#8, 0#8, 4#8, 0x73#8, 0#8, 0#8, 0#8, 4#8,
       0x70#8, 0#8, 0#8, 0#8, 2#8, 0x99#8, 0x9D#8, 0xB8#8] := by decide +kernel

/-- The host's placement of an opcode-table word: the very next step runs the operation. -/
theorem test_withFetchWord : (after (step (State.reset.withFetchWord 8 1))).phase = 1#4 ∧
    (after (step (State.reset.withFetchWord 4 9))).phase = 10#4 := by decide +kernel

/-! ### Witnesses: codes and steps -/

theorem witness_CommandByteDecodesAsItsRow : 4 ≤ (0x04#8).toNat ∧ 4 ≤ (0xFF#8).toNat := by decide

theorem witness_PhaseCodeDecodesAsItsRow :
    (7#4 = 7#4 ∨ 12 ≤ (7#4).toNat) ∧ 12 ≤ (12#4).toNat ∧ 12 ≤ (15#4).toNat := by decide

theorem witness_EncodedOperationDecodesToItself :
    decode (.cmd 0x03#8) = .ok .clear ∧ decode (.phase 11#4) = .ok .decWalk := by decide

theorem witness_StepRunsTheDecodedPhase :
    ((enc 2).busy = true ∧ decodePhase (enc 2).phase = .ok .ftBuild ∧ (enc 2).hostQueue = []) ∧
    (let s := ran 2 6 20 [.load text, .writeCmd 0x01#8, .tick]
     s.busy = true ∧ decodePhase s.phase = .ok .ftBuild ∧ s.hostQueue = [.tick]) ∧
    (let s := ran 2 6 20 [.load text, .writeCmd 0x01#8, .waitDone]
     s.busy = true ∧ decodePhase s.phase = .ok .ftBuild ∧ s.hostQueue = [.waitDone] ∧ s.done = false) := by
  decide +kernel

theorem witness_StepRunsTheWrittenCommand :
    (boot 6 20 [.writeCmd 0x03#8]).hostQueue = .writeCmd 0x03#8 :: [] ∧
      (boot 6 20 [.writeCmd 0x03#8]).busy = false ∧ decodeCmd 0x03#8 = .ok .clear := by decide

theorem witness_CommandWriteIsRefused :
    (let s := ran 2 6 20 [.load text, .writeCmd 0x01#8, .writeCmd 0x00#8]
     s.hostQueue = [.writeCmd 0x00#8] ∧ s.busy = true) ∧
    (let s := boot 6 20 [.writeCmd 0x04#8]
     s.hostQueue = [.writeCmd 0x04#8] ∧ s.busy = false ∧ 4 ≤ (0x04#8).toNat) := by decide +kernel

theorem witness_IdleBlockChangesNothing :
    (State.reset.busy = false ∧ State.reset.hostQueue = []) ∧
      ((boot 6 20 [.tick]).busy = false ∧ (boot 6 20 [.tick]).hostQueue = .tick :: []) := by decide

/-- Reset falls on a busy block. -/
theorem witness_ResetEntersTheResetState :
    (ran 4 6 20 [.load text, .writeCmd 0x01#8, .tick, .tick, .reset]).hostQueue = [.reset] ∧
      (ran 4 6 20 [.load text, .writeCmd 0x01#8, .tick, .tick, .reset]).busy = true := by decide +kernel

/-! ### Witnesses: invariants -/

theorem witness_StepKeepsTheControlInvariant :
    (CtrlInv (enc 2) ∧ goesOn (step (enc 2)) = true) ∧ (CtrlInv (enc 8) ∧ goesOn (step (enc 8)) = true) ∧
      (CtrlInv (dec 6 frameCut) ∧ (dec 6 frameCut).err = true) :=
  ⟨⟨by decide +kernel, by decide +kernel⟩, ⟨by decide +kernel, by decide +kernel⟩, by decide +kernel,
    by decide +kernel⟩

theorem witness_StepKeepsTheBuffersCanonical :
    BufInv (enc 7) ∧ (enc 7).ibuf ≠ [] ∧ goesOn (step (enc 7)) = true ∧ BufInv (enc 8) ∧ (enc 8).obuf ≠ [] := by
  decide +kernel

/-! ### Witnesses: the host's accesses -/

/-- A finished COMPRESS whose result has not been polled, with a host action pending. -/
def unread (a : HostAction) : State := { enc 8 with hostQueue := [a] }
/-- The same once a `STATUS` read has returned DONE = 1. -/
def polled (a : HostAction) : State := { enc 8 with hostQueue := [a], handoff := false }
/-- A busy block with a host action pending. -/
def during (a : HostAction) : State := { enc 4 with hostQueue := [a] }

theorem witness_HostMisuseIsRefused :
    ∀ a ∈ [HostAction.copy, .readReg .errKind, .readReg .errCause, .readReg .inLen, .readReg .outLen,
        .writeInLen 3#64, .load text, .readObuf 0, .writeIbuf 0 0#8],
      ((during a).hostQueue = a :: [] ∧ (during a).busy = true ∧
        refuses (step (during a)) .accessWhileBusy = true) ∧
      ((unread a).hostQueue = a :: [] ∧ (unread a).busy = false ∧ (unread a).handoff = true ∧
        refuses (step (unread a)) .accessBeforeDoneRead = true) := by decide +kernel

theorem witness_HostMisuseIsRefused_always :
    (∀ a ∈ [HostAction.writeStatus 0#8, .writeErrKind 0#8, .writeErrCause 0#8, .writeOutLen 0#64],
      (polled a).hostQueue = a :: [] ∧ refuses (step (polled a)) .writeOfReadOnly = true) ∧
    ((polled (.readReg .cmd)).hostQueue = [.readReg .cmd]) ∧
    (∀ a ∈ [HostAction.readIbuf 0, .writeObuf 0 0#8],
      ((during a).hostQueue = a :: [] ∧ refuses (step (during a)) .accessNotGiven = true) ∧
      ((polled a).hostQueue = a :: [] ∧ refuses (step (polled a)) .accessNotGiven = true)) := by
  decide +kernel

theorem witness_IdleReadsReturnTheValue_pending :
    ∀ a ∈ [HostAction.readReg .errKind, .readReg .errCause, .readReg .inLen, .readReg .outLen, .readObuf 0],
      (unread a).busy = false ∧ (unread a).handoff = true ∧ (unread a).hostQueue = a :: [] := by decide +kernel

theorem witness_StatusReadHasNoSideEffect :
    (unread (.readReg .status)).hostQueue = .readReg .status :: [] ∧ (unread (.readReg .status)).done = true ∧
      (unread (.readReg .status)).handoff = true := by decide +kernel

theorem witness_IdleReadsReturnTheValue :
    (∀ a ∈ [HostAction.readReg .errKind, .readReg .errCause, .readReg .inLen, .readReg .outLen, .readObuf 19,
        .readObuf 20],
      (polled a).busy = false ∧ (polled a).handoff = false ∧ (polled a).hostQueue = a :: []) ∧
    19 < (polled (.readObuf 19)).params.obufCap.val ∧ (polled (.readObuf 20)).params.obufCap.val ≤ 20 := by
  decide +kernel

theorem witness_LoadAndCopyWriteTheInput_load :
    let s := boot 6 20 [.load text]
    let u := boot 5 20 [.load text]
    (s.busy = false ∧ s.handoff = false ∧ s.ibuf.wf ∧ s.hostQueue = .load text :: [] ∧
      text.length ≤ s.params.ibufCap.val) ∧
    (u.busy = false ∧ u.handoff = false ∧ u.ibuf.wf ∧ u.hostQueue = .load text :: [] ∧
      u.params.ibufCap.val < text.length) := by decide

theorem witness_LoadAndCopyWriteTheInput_copy :
    let s := { polled .copy with params := ⟨20, 20⟩ }
    let u := { polled .copy with params := ⟨19, 20⟩ }
    (s.busy = false ∧ s.handoff = false ∧ s.ibuf.wf ∧ s.hostQueue = .copy :: [] ∧ frame = s.output ∧
      frame.length ≤ s.params.ibufCap.val) ∧
    (u.busy = false ∧ u.handoff = false ∧ u.ibuf.wf ∧ u.hostQueue = .copy :: [] ∧ frame = u.output ∧
      u.params.ibufCap.val < frame.length) := by decide +kernel

theorem witness_InputWritesLand :
    (∀ a ∈ [HostAction.writeInLen 3#64, .writeIbuf 5 0xAA#8, .writeIbuf 6 0xAA#8],
      (polled a).busy = false ∧ (polled a).handoff = false ∧ (polled a).ibuf.wf ∧ (polled a).hostQueue = a :: []) ∧
    5 < (polled (.writeIbuf 5 0xAA#8)).params.ibufCap.val ∧
    (polled (.writeIbuf 6 0xAA#8)).params.ibufCap.val ≤ 6 := by decide +kernel

theorem witness_WaitEndsAtDone :
    ((unread .waitDone).hostQueue = .waitDone :: [] ∧ (unread .waitDone).done = true) ∧
      ((during .waitDone).hostQueue = .waitDone :: [] ∧ (during .waitDone).done = false) := by decide +kernel

/-! ### Witnesses: host commands -/

theorem witness_NopChangesNothing : State.reset.busy = false ∧ (enc 2).busy = true := by decide +kernel

theorem witness_ClearAcknowledgesTheResult : (dec 6 frameCut).busy = false ∧ (dec 6 frameCut).err = true := by
  decide +kernel

/-- Input as long as IBUF, Frame as long as OBUF. -/
theorem witness_CompressStartsTheEncoder : CompressAllowed (ran 1 6 20 [.load text]) := by decide +kernel

theorem decompress_frame : decompress frame = .ok text := by decide +kernel

/-- V12: a Frame whose walk emits eight symbols and then fails with TRAILING_BITS. -/
def frameFail : List Byte := frame.take 18 ++ [0x00#8, 0x80#8]

/-- Frame as long as IBUF; the output, or what a failing walk emits, as long as OBUF. -/
theorem witness_DecompressStartsTheDecoder :
    (DecompressAllowed (ran 1 20 6 [.load frame]) ∧ decompress frame = .ok text) ∧
      (DecompressAllowed (ran 1 20 8 [.load frameFail]) ∧ decompress frameFail = .error .trailingBits) := by
  decide +kernel

theorem witness_StartOutsideItsBoundsIsRefused :
    (enc 2).busy = true ∧
    (let s := { State.reset with params := ⟨5, 20⟩, inLen := 6#64 }
     s.busy = false ∧ s.params.ibufCap.val < s.inLen.toNat) ∧
    (let s := { State.reset with inLen := 0x100000000#64 }
     s.busy = false ∧ s.inLen.toNat ≤ s.params.ibufCap.val ∧ inLenMaxCompress < s.inLen.toNat) ∧
    (let s := ran 1 6 19 [.load text]
     s.busy = false ∧ s.inLen.toNat ≤ s.params.ibufCap.val ∧ s.inLen.toNat ≤ inLenMaxCompress ∧
       s.params.obufCap.val < (compress s.input).length) ∧
    (let s := ran 1 20 5 [.load frame]
     s.busy = false ∧ s.inLen.toNat ≤ s.params.ibufCap.val ∧ decompress s.input = .ok text ∧
       s.params.obufCap.val < text.length) ∧
    (let s := ran 1 20 7 [.load frameFail]
     s.busy = false ∧ s.inLen.toNat ≤ s.params.ibufCap.val ∧ decompress s.input = .error .trailingBits ∧
       s.params.obufCap.val < (emittedSymbols s.input).length) := by decide +kernel

/-! ### Witnesses: the encoder's phases -/

theorem witness_FrequencyTableCountsTheInput :
    (let s := enc 2
     s.op = opCompress ∧ s.inLen.toNat ≤ s.params.ibufCap.val ∧ s.work.k = 0 ∧
       ∀ b : Byte, SymTable.at s.work.present b = false) ∧
    (let s := ran 1 0 3 [.writeCmd 0x01#8]
     s.op = opCompress ∧ s.inLen.toNat ≤ s.params.ibufCap.val ∧ s.work.k = 0 ∧
       ∀ b : Byte, SymTable.at s.work.present b = false) :=
  ⟨⟨by decide +kernel, by decide +kernel, by decide +kernel, at_of_emptyFlags (by decide +kernel)⟩,
    by decide +kernel, by decide +kernel, by decide +kernel, at_of_emptyFlags (by decide +kernel)⟩

theorem witness_FrequencyTable_both_cases :
    (enc 2).input = text ∧ (ran 1 0 3 [.writeCmd 0x01#8]).input = [] := by decide +kernel

theorem witness_ExtractMinTakesTheLightestEarliest : [0, 1, 2] ≠ ([] : List Nat) ∧ 1 ∈ [0, 1, 2] ∧ 1 ≠ 2 := by
  decide

theorem witness_TreeBuildMakesTheHuffmanArena :
    (let s := enc 3
     s.op = opCompress ∧ 1 ≤ s.work.k ∧ s.work.n = 0 ∧ s.work.pq = [] ∧ s.work.table = .ok table3) ∧
    (let s := dec 3 frameZero
     s.op = opDecompress ∧ 1 ≤ s.work.k ∧ s.work.n = 0 ∧ s.work.pq = [] ∧
       s.work.table = .ok [(0x61#8, 0)]) := by decide +kernel

theorem witness_CodebookAssignsEveryLeafItsPath :
    (let s := enc 4
     s.op = opCompress ∧ (table3.map Prod.fst).Nodup ∧ table3 ≠ [] ∧ buildTree table3 = (s.work.arena, [4]) ∧
       s.work.root = 4 ∧ (∀ b : Byte, SymTable.at s.work.codeValid b = false) ∧ 2 ≤ table3.length) ∧
    (let s := dec 4 frameZero
     s.op = opDecompress ∧ buildTree [(0x61#8, 0)] = (s.work.arena, [0]) ∧ s.work.root = 0 ∧
       (∀ b : Byte, SymTable.at s.work.codeValid b = false)) :=
  ⟨⟨by decide +kernel, by decide, by decide, by decide +kernel, by decide +kernel,
      at_of_emptyFlags (by decide +kernel), by decide⟩,
    by decide +kernel, by decide +kernel, by decide +kernel, at_of_emptyFlags (by decide +kernel)⟩

theorem witness_CodesArePrefixFree :
    (0x61#8, [true, true]) ∈ codesOf table3 ∧ (0x63#8, [true, false]) ∈ codesOf table3 ∧ 0x61#8 ≠ 0x63#8 := by
  decide

theorem witness_CodeLengthsAreBounded :
    (table3.map Prod.fst).Nodup ∧ 2 ≤ table3.length ∧ (table1.map Prod.fst).Nodup ∧
      table1 = [(0x61#8, 4)] := by decide

theorem witness_CodesAreComplete : 2 ≤ table3.length := by decide

theorem witness_EncoderMapsBytesToCodes :
    (enc 5).op = opCompress ∧ (enc 5).inLen.toNat ≤ (enc 5).params.ibufCap.val ∧ (enc 5).input ≠ [] ∧
      (∀ b ∈ (enc 5).input, SymTable.at (enc 5).work.codeValid b = true) := by decide +kernel

/-- A byte without a code: the input is `aabbbd` although `aabbbc` was counted. -/
theorem witness_ReadsOfNothingFault :
    (let s := { State.reset with op := opCompress }
     s.op = opCompress ∧ s.work.k = 0 ∧ faults (exec .treeBuild s) .treeOfEmptyTable = true) ∧
    (let s := { enc 5 with ibuf := (enc 5).ibuf.set 5 0x64#8 }
     s.op = opCompress ∧ s.inLen.toNat ≤ s.params.ibufCap.val ∧
       (∃ b ∈ s.input, SymTable.at s.work.codeValid b = false) ∧
       faults (exec .encMap s) .codeEntryInvalid = true) := by decide +kernel

theorem witness_ReadsOfNothingFault_code :
    let s := { dec 5 frame with work := { (dec 5 frame).work with codeValid := Vector.replicate 256 false } }
    s.op = opDecompress ∧ s.work.table = .ok table3 ∧
      (∃ p ∈ table3, SymTable.at s.work.codeValid p.1 = false) ∧
      faults (exec .lenCheck s) .codeEntryInvalid = true := by decide +kernel

/-- `work` with `PRESENT` cleared, or with `ORDER` one entry short. -/
def noPresent (w : Work) : Work := { w with present := Vector.replicate 256 false }
def shortOrder (w : Work) : Work := { w with order := w.order.take 2 }

theorem witness_ReadsOfNothingFault_count :
    ∀ q ∈ [(Instr.treeBuild, enc 3), (.frameEmit, enc 7), (.lenCheck, dec 5 frame)],
      let s := { q.2 with work := noPresent q.2.work }
      s.work.k ≤ s.work.order.length ∧
        (∃ b ∈ s.work.order.take s.work.k, SymTable.at s.work.present b = false) ∧
        faults (exec q.1 s) .countEntryAbsent = true := by decide +kernel

theorem witness_ReadsOfNothingFault_order :
    ∀ q ∈ [(Instr.treeBuild, enc 3), (.frameEmit, enc 7), (.lenCheck, dec 5 frame)],
      let s := { q.2 with work := shortOrder q.2.work }
      s.work.order.length + 1 = s.work.k ∧ faults (exec q.1 s) .orderEntryAbsent = true := by decide +kernel

/-- The root at `N`; and a root whose right child is at `N`. -/
theorem witness_ReadsOfNothingFault_node :
    (let s := { enc 4 with work := { (enc 4).work with root := 5 } }
     s.op = opCompress ∧ s.work.n = s.work.root ∧ faults (exec .cbDerive s) .nodeEntryUnallocated = true) ∧
    (let s := { enc 4 with work := { (enc 4).work with node := [.leaf 0x61#8 1, .internal 2 0 2], n := 2, root := 1 } }
     s.op = opCompress ∧ follow s.work.arena s.work.root [true] = some 2 ∧ s.work.n = 2 ∧
       goesOn (exec .cbDerive s) = false) := by decide +kernel

theorem witness_PackerPadsToWholeBytes : (enc 6).op = opCompress ∧ (enc 6).work.bits.length = (enc 6).work.t ∧
    (enc 6).work.t = 9 := by decide +kernel

/-- OBUF is exactly as long as the Frame. -/
theorem witness_FrameEmitWritesTheFrame :
    let s := enc 7
    s.op = opCompress ∧ s.work.table = .ok table3 ∧ s.work.k ≤ 256 ∧ (∀ p ∈ table3, p.2 < 2 ^ 32) ∧
      s.work.pad ≤ 7 ∧ (s.work.t + 7) / 8 ≤ s.work.payload.length ∧
      3 + 5 * s.work.k + (s.work.t + 7) / 8 = s.params.obufCap.val ∧ s.obuf.wf := by decide +kernel

theorem witness_ResultBeyondTheBufferIsRefused :
    (let s := { enc 7 with params := ⟨6, 19⟩ }
     s.op = opCompress ∧ s.work.table = .ok table3 ∧ (s.work.t + 7) / 8 ≤ s.work.payload.length ∧
       s.params.obufCap.val < 3 + 5 * s.work.k + (s.work.t + 7) / 8) ∧
    (let s := { dec 7 frameAb with params := ⟨20, 1⟩ }
     s.op = opDecompress ∧ s.params.obufCap.val < (walk s.work.rev [] s.work.bits).1.length) := by decide +kernel

/-! ### Witnesses: the decoder's phases -/

/-- A Frame with a payload, one that ends with its table, one without a table. -/
theorem witness_FrameParseReadsHeaderAndTable :
    (∀ f ∈ [frame, frameZero, [0#8, 0#8, 0#8]], let s := dec 2 f
      s.op = opDecompress ∧ s.inLen.toNat ≤ s.params.ibufCap.val ∧ 3 ≤ s.inLen.toNat ∧ s.frameSc ≤ 256 ∧
        3 + 5 * s.frameSc ≤ s.inLen.toNat ∧ s.frameSymbols.Nodup) ∧
    ∀ f ∈ [frame, frameZero, [0#8, 0#8, 0#8]], ∀ b : Byte, SymTable.at (dec 2 f).work.present b = false :=
  ⟨by decide +kernel, fun f hf => at_of_emptyFlags (by revert f; decide +kernel)⟩

/-- `PRESENT` is empty in each (`at_of_emptyFlags`). -/
theorem witness_FrameParseRaisesTheFirstFailure :
    (∀ f ∈ [[0#8, 0#8], [1#8, 1#8, 0#8], [0#8, 1#8, 0#8, 0x61#8, 0#8, 0#8, 0#8], frameDup], let s := dec 2 f
      s.op = opDecompress ∧ s.inLen.toNat ≤ s.params.ibufCap.val ∧
        emptyFlags s.work.present = true) ∧
    (dec 2 [0#8, 0#8]).inLen.toNat < 3 ∧
    (let s := dec 2 [1#8, 1#8, 0#8]; 3 ≤ s.inLen.toNat ∧ 256 < s.frameSc) ∧
    (let s := dec 2 [0#8, 1#8, 0#8, 0x61#8, 0#8, 0#8, 0#8]
     3 ≤ s.inLen.toNat ∧ s.frameSc ≤ 256 ∧ s.inLen.toNat < 3 + 5 * s.frameSc) ∧
    (let s := dec 2 frameDup
     3 ≤ s.inLen.toNat ∧ s.frameSc ≤ 256 ∧ 3 + 5 * s.frameSc ≤ s.inLen.toNat ∧ ¬ s.frameSymbols.Nodup) := by
  decide +kernel

/-- A Frame that passes, a Frame cut by one byte, and one with `PADF = 8` whose lengths would agree. -/
theorem witness_LenCheckComparesTheLengths :
    (let s := dec 5 frame
     s.op = opDecompress ∧ s.work.table = .ok table3 ∧
       (∀ p ∈ table3, SymTable.at s.work.codeValid p.1 = true) ∧
       9 = (table3.map (fun p => p.2 * SymTable.at s.work.codeLen p.1)).sum ∧
       s.work.padf ≤ 7 ∧ 8 * s.work.payLen = 9 + s.work.padf) ∧
    (let s := dec 5 frameCut
     s.op = opDecompress ∧ s.work.table = .ok table3 ∧
       ¬ (s.work.padf ≤ 7 ∧ 8 * s.work.payLen = 9 + s.work.padf)) ∧
    (let s := dec 5 framePad8
     s.op = opDecompress ∧ s.work.table = .ok [(0x61#8, 8)] ∧ 8 * s.work.payLen = 8 + s.work.padf ∧
       ¬ (s.work.padf ≤ 7 ∧ 8 * s.work.payLen = 8 + s.work.padf)) := by decide +kernel

theorem witness_UnpackerDropsThePadBits :
    ∀ f ∈ [frame, frameZero], let s := dec 6 f
      s.op = opDecompress ∧ s.work.padf ≤ 7 ∧ s.work.padf ≤ 8 * s.work.payLen ∧
        s.work.payOff + s.work.payLen ≤ s.inLen.toNat ∧ s.work.payOff + s.work.payLen ≤ s.params.ibufCap.val := by
  decide +kernel

/-- An output exactly as long as OBUF; and one bit left over. -/
theorem witness_DecWalkEmitsOrRaises :
    (let s := { dec 7 frameAb with params := ⟨20, 2⟩ }
     s.op = opDecompress ∧ walk s.work.rev [] s.work.bits = (textAb, []) ∧ textAb.length = s.params.obufCap.val ∧
       s.obuf.wf) ∧
    (let s := dec 7 frameTrail
     s.op = opDecompress ∧ walk s.work.rev [] s.work.bits = ([], [true]) ∧ 0 ≤ s.params.obufCap.val ∧
       s.obuf.wf) := by decide +kernel

theorem witness_WalkInvertsTheCodes :
    (table3.map Prod.fst).Nodup ∧ ∀ b ∈ text, b ∈ table3.map Prod.fst := by decide

theorem witness_TreeWalkEqualsTheLookup :
    (table3 ≠ [] ∧ (table3.map Prod.fst).Nodup ∧ buildTree table3 = ((buildTree table3).1, [4])) ∧
      (table1 ≠ [] ∧ (table1.map Prod.fst).Nodup ∧ buildTree table1 = ((buildTree table1).1, [0])) := by decide

/-! ### Witnesses: frames of the operations -/

/-- Every operation answers a next state somewhere. -/
theorem witness_OperationsKeepTheHostSide :
    goesOn (exec .ftBuild (enc 2)) = true ∧ goesOn (exec .treeBuild (enc 3)) = true ∧
    goesOn (exec .cbDerive (enc 4)) = true ∧ goesOn (exec .encMap (enc 5)) = true ∧
    goesOn (exec .bpPack (enc 6)) = true ∧ goesOn (exec .frameEmit (enc 7)) = true ∧
    goesOn (exec .frameParse (dec 2 frame)) = true ∧ goesOn (exec .frameParse (dec 2 frameDup)) = true ∧
    goesOn (exec .lenCheck (dec 5 frame)) = true ∧ goesOn (exec .lenCheck (dec 5 frameCut)) = true ∧
    goesOn (exec .bpUnpack (dec 6 frame)) = true ∧ goesOn (exec .decWalk (dec 7 frameAb)) = true ∧
    goesOn (exec .nop State.reset) = true ∧
    goesOn (exec .compress State.reset) = true ∧ goesOn (exec .decompress State.reset) = true ∧
    goesOn (exec .clear State.reset) = true := by decide +kernel

theorem witness_PhasesWriteTheirOwnRegisters :
    (after (exec .frameParse (dec 2 frame))).phase ≠ phaseIdle ∧
      (after (exec .lenCheck (dec 5 frame))).phase ≠ phaseIdle := by decide +kernel

/-! ### Witnesses: rules of the whole machine -/

theorem witness_BlockNeverWritesItsInput :
    (during .tick).hostQueue = .tick :: [] ∧ HostAction.writesInput .tick = false ∧
      goesOn (step (during .tick)) = true := by decide +kernel

theorem witness_ResultStandsWhileIdle :
    (polled (.writeInLen 3#64)).busy = false ∧ (polled (.writeInLen 3#64)).hostQueue = .writeInLen 3#64 :: [] ∧
      HostAction.endsResult (.writeInLen 3#64) = false ∧
      goesOn (step (polled (.writeInLen 3#64))) = true := by decide +kernel

theorem witness_OnlyDecompressRaises :
    (dec 5 frameCut).err = false ∧ goesOn (step (dec 5 frameCut)) = true ∧
      (after (step (dec 5 frameCut))).err = true := by decide +kernel

theorem witness_CompressRunsToItsResult :
    let s := ran 1 6 20 [.load text]
    IdleState s ∧ BufInv s ∧ s.hostQueue = [] ∧ CompressAllowed s ∧ s.input ≠ [] := by decide +kernel

theorem witness_CompressRunsToItsResult_empty :
    let s := boot 0 3 []
    IdleState s ∧ BufInv s ∧ s.hostQueue = [] ∧ CompressAllowed s ∧ s.input = [] := by decide +kernel

theorem witness_DecompressRunsToItsResult_ok :
    let s := ran 1 20 6 [.load frame]
    IdleState s ∧ BufInv s ∧ s.hostQueue = [] ∧ DecompressAllowed s ∧ decompress s.input = .ok text := by
  decide +kernel

/-- A walk that fails after it emitted eight symbols, with room for exactly eight. -/
theorem witness_DecompressRunsToItsResult_error :
    let s := ran 1 20 8 [.load frameFail]
    IdleState s ∧ BufInv s ∧ s.hostQueue = [] ∧ DecompressAllowed s ∧
      decompress s.input = .error .trailingBits ∧ (emittedSymbols s.input).length = s.params.obufCap.val := by
  decide +kernel

theorem witness_DecompressInvertsCompress : text.length ≤ inLenMaxCompress ∧
    decompress (compress text) = .ok text := by decide +kernel

theorem witness_TruncatedPayloadIsDetected :
    decompress frame = .ok text ∧ 3 + 5 * scOf frame < frame.length ∧
      decompress frame.dropLast = .error .lenMismatch := by decide +kernel

theorem witness_FrameSizeIsBounded :
    2 ≤ text.eraseDups.length ∧ 1 = [0x61#8, 0x61#8].eraseDups.length := by decide +kernel

/-- OBUF as long as R63's bound. -/
theorem witness_OutputSizeIsBounded_room :
    let s := ran 1 20 136 [.load frameFail]
    s.busy = false ∧ s.inLen.toNat ≤ s.params.ibufCap.val ∧ 8 * (s.inLen.toNat - 3) = s.params.obufCap.val := by
  decide +kernel

theorem witness_OutputSizeIsBounded : decompress frameTrail = .error .trailingBits ∧
    decompress [0x00#8, 0x01#8, 0x07#8, 0x61#8, 0#8, 0#8, 0#8, 1#8, 0x00#8] = .ok [0x61#8] := by decide +kernel

theorem witness_EmptyFrameIsTheOnlyOneWithoutSymbols :
    scOf [0#8, 0#8, 0#8] = 0 ∧ decompress [0#8, 0#8, 0#8] = .ok [] := by decide +kernel

theorem witness_DecompressChecksInOrder :
    decompress [0#8, 0#8] = .error .hdrTrunc ∧ decompress [1#8, 1#8, 0#8] = .error .symcountRange ∧
      decompress [0#8, 1#8, 0#8, 0x61#8, 0#8, 0#8, 0#8] = .error .tableTrunc ∧
      decompress frameDup = .error .dupSymbol := by decide +kernel

end Sys2Proof.Tests
end

section
/-!
PROOFS. What each operation can do to the state, said once: a phase goes on, ends its operation or raises; a
command starts an operation, acknowledges or does nothing; a host action is one of a few accesses. The frame
statements and the control invariant (R24 to R37, R61, R62) are read off from these.
-/
namespace Sys2Proof.Machine

/-! ### The `OP` values of a phase (R104) -/

theorem Instr.wellFormed_iff {op : Byte} {i : Instr} : i.wellFormed op = true ↔ op ∈ i.opValues := by
  simp [Instr.wellFormed]

/-- What a phase answers under an `OP` value of its row. -/
theorem underOp_of_mem {i : Instr} {s : State} (h : s.op ∈ i.opValues) (r : Result) : underOp i s r = r :=
  underOp_of_wellFormed (Instr.wellFormed_iff.2 h) r

/-- A phase of one operation that answers a next state ran under that operation's `OP`. -/
theorem op_of_underOp {i : Instr} {s t : State} {r : Result} {op : Byte} (h : underOp i s r = .next t)
    (hi : i.opValues = [op]) : s.op = op ∧ r = .next t := by
  obtain ⟨hwf, h⟩ := underOp_next h
  exact ⟨by simpa [hi] using Instr.wellFormed_iff.1 hwf, h⟩

/-- A phase of both operations ran under one of their `OP` values. -/
theorem op_of_underOp_shared {i : Instr} {s t : State} {r : Result} {op op' : Byte}
    (h : underOp i s r = .next t) (hi : i.opValues = [op, op']) : (s.op = op ∨ s.op = op') ∧ r = .next t := by
  obtain ⟨hwf, h⟩ := underOp_next h
  exact ⟨by simpa [hi] using Instr.wellFormed_iff.1 hwf, h⟩

/-! ### The three ways a phase can answer a next state -/

/-- The phase goes on: another working state and the next phase of the operation; nothing else but the
model's counter of free values changes. -/
def Continues (s t : State) : Prop :=
  ∃ (w : Work) (p : BitVec 4) (q : Nat), PhaseLegal s.op p ∧ t = { s with work := w, phase := p, freeSeq := q }

/-- The phase ends the operation with the result `x`, which has room in OBUF (R189, R219). -/
def Ends (s t : State) : Prop :=
  ∃ x : List Byte, x.length ≤ s.params.obufCap.val ∧
    t = State.finish { s with obuf := s.obuf.write 0 x, work := { s.work with outPtr := x.length } }

/-- The phase ends DECOMPRESS in the error entry (R262). -/
def Raises (c : ErrCause) (s t : State) : Prop := s.op = opDecompress ∧ t = s.raise c

/-- What a phase that answers a next state did. -/
def PhaseMove (s t : State) : Prop := Continues s t ∨ Ends s t ∨ ∃ c, Raises c s t

theorem continues_advance {s : State} {p : BitVec 4} (hp : PhaseLegal s.op p) (w : Work) :
    Continues s (s.advance w p) := ⟨w, p, s.freeSeq, hp, rfl⟩

theorem Continues.keepsHostSide {s t : State} (h : Continues s t) : KeepsHostSide s t := by
  obtain ⟨w, p, q, -, rfl⟩ := h
  exact ⟨⟨rfl, fun _ => rfl, rfl, rfl, rfl⟩, rfl, rfl, rfl, rfl, rfl, rfl, fun _ => rfl⟩

theorem Ends.endedWell {s t : State} (h : Ends s t) : EndedWell t := by
  obtain ⟨x, -, rfl⟩ := h
  exact ⟨State.withFlags_busy .., State.withFlags_done .., State.withFlags_err .., rfl, rfl, rfl, rfl⟩

theorem Ends.keepsInput {s t : State} (h : Ends s t) : KeepsInput s t ∧ t.handoff = s.handoff := by
  obtain ⟨x, -, rfl⟩ := h
  exact ⟨⟨rfl, fun _ => rfl, rfl, rfl, rfl⟩, rfl⟩

theorem Raises.endedInError {c : ErrCause} {s t : State} (h : Raises c s t) : EndedInError c t := by
  obtain ⟨-, rfl⟩ := h
  exact ⟨State.withFlags_busy .., State.withFlags_done .., State.withFlags_err .., rfl, rfl, rfl, rfl, rfl⟩

theorem Raises.keepsInput {c : ErrCause} {s t : State} (h : Raises c s t) :
    KeepsInput s t ∧ t.handoff = s.handoff := by
  obtain ⟨-, rfl⟩ := h
  exact ⟨⟨rfl, fun _ => rfl, rfl, rfl, rfl⟩, rfl⟩

theorem PhaseMove.keepsInput {s t : State} (h : PhaseMove s t) : KeepsInput s t := by
  obtain h | h | ⟨c, h⟩ := h
  · exact h.keepsHostSide.1
  · exact h.keepsInput.1
  · exact h.keepsInput.1

/-! ### The loops write their own tables (R29, R34) -/

theorem Work.countByte_frame (w : Work) (b : Byte) : ∃ k order present count,
    w.countByte b = { w with k := k, order := order, present := present, count := count } := by
  unfold Work.countByte
  split <;> exact ⟨_, _, _, _, rfl⟩

theorem Work.foldl_countByte_frame (x : List Byte) (w : Work) : ∃ k order present count,
    x.foldl Work.countByte w = { w with k := k, order := order, present := present, count := count } := by
  induction x generalizing w with
  | nil => exact ⟨_, _, _, _, rfl⟩
  | cons b rest ih =>
    obtain ⟨k, order, present, count, hb⟩ := w.countByte_frame b
    obtain ⟨k', order', present', count', hr⟩ := ih (w.countByte b)
    exact ⟨k', order', present', count', by rw [List.foldl_cons, hr, hb]⟩

theorem Work.foldl_assign_frame (codes : List (Byte × Bits)) (w : Work) : ∃ valid len code,
    codes.foldl Work.assign w = { w with codeValid := valid, codeLen := len, code := code } := by
  induction codes generalizing w with
  | nil => exact ⟨_, _, _, rfl⟩
  | cons a rest ih => exact ih (w.assign a)

theorem Work.addEntries_frame {w w' : Work} {j : Nat} {es : List (Byte × Nat)}
    (h : w.addEntries j es = some w') :
    ∃ order present count, w' = { w with order := order, present := present, count := count } := by
  induction es generalizing w j with
  | nil =>
    cases h
    exact ⟨_, _, _, rfl⟩
  | cons e rest ih =>
    unfold Work.addEntries at h
    split at h
    · cases h
    · obtain ⟨order, present, count, rfl⟩ := ih h
      exact ⟨order, present, count, rfl⟩

/-! ### What each phase does -/

/-- FT_BUILD (R120): the table and the cursor; `PAD` and `T` on an empty input (R122). -/
theorem execFtBuild_next {s t : State} (h : execFtBuild s = .next t) :
    Continues s t ∧ t.work = { s.work with
      k := t.work.k, order := t.work.order, present := t.work.present, count := t.work.count,
      inPtr := t.work.inPtr, pad := t.work.pad, t := t.work.t } := by
  obtain ⟨hop, h⟩ := op_of_underOp h rfl
  split at h
  · cases h
  · next x _ =>
    obtain ⟨k, order, present, count, hw⟩ := Work.foldl_countByte_frame x s.work
    simp only [hw] at h
    split at h <;> cases h <;> exact ⟨continues_advance (by rw [hop]; decide) _, rfl⟩

/-- TREE_BUILD (R130): the arena, the queue and the root. -/
theorem execTreeBuild_next {s t : State} (h : execTreeBuild s = .next t) :
    Continues s t ∧ t.work = { s.work with
      node := t.work.node, n := t.work.n, pq := t.work.pq, root := t.work.root } := by
  obtain ⟨hop, h⟩ := op_of_underOp_shared h rfl
  split at h
  · cases h
  split at h
  · cases h
  split at h
  · cases h
  split at h <;> cases h
  exact ⟨continues_advance (by rcases hop with hop | hop <;> rw [hop] <;> decide) _, rfl⟩

/-- CB_DERIVE (R150): the code table. -/
theorem execCbDerive_next {s t : State} (h : execCbDerive s = .next t) :
    Continues s t ∧ t.work = { s.work with
      codeValid := t.work.codeValid, codeLen := t.work.codeLen, code := t.work.code } := by
  obtain ⟨hop, h⟩ := op_of_underOp_shared h rfl
  split at h
  · cases h
  · next codes _ =>
    obtain ⟨valid, len, code, hw⟩ := Work.foldl_assign_frame codes s.work
    rw [hw] at h
    cases h
    exact ⟨continues_advance (by rcases hop with hop | hop <;> rw [hop] <;> decide) _, rfl⟩

/-- ENC_MAP (R186): the bits, their number and the cursor. -/
theorem execEncMap_next {s t : State} (h : execEncMap s = .next t) :
    Continues s t ∧ t.work = { s.work with
      bits := t.work.bits, t := t.work.t, inPtr := t.work.inPtr } := by
  obtain ⟨hop, h⟩ := op_of_underOp h rfl
  split at h
  · cases h
  split at h <;> cases h
  exact ⟨continues_advance (by rw [hop]; decide) _, rfl⟩

/-- BP_PACK (R165): the payload, the pad length, and `BITACC` and `BITCNT`, whose values are free. -/
theorem execBpPack_next {s t : State} (h : execBpPack s = .next t) :
    Continues s t ∧ t.work = { s.work with
      pad := t.work.pad, payload := t.work.payload, bitAcc := t.work.bitAcc, bitCnt := t.work.bitCnt } := by
  obtain ⟨hop, h⟩ := op_of_underOp h rfl
  split at h <;> cases h
  exact ⟨⟨_, _, _, by rw [hop]; decide, rfl⟩, rfl⟩

/-- The length of a Frame (R91, R92). -/
theorem frameBytes_length (table : List (Byte × Nat)) (pad : Nat) (payload : List Byte) :
    (frameBytes table pad payload).length = 3 + 5 * table.length + payload.length := by
  have hentry : ∀ p : Byte × Nat, (entryBytes p).length = 5 := fun _ => rfl
  have hhdr : (be16Bytes table.length).length = 2 := rfl
  simp only [frameBytes, List.length_append, List.length_flatMap, hentry, hhdr, List.length_singleton,
    List.map_const', List.sum_replicate, smul_eq_mul]
  omega

/-- FRAME_EMIT (R188): the result is the Frame, which is as long as `OUT_LEN` then says. -/
theorem execFrameEmit_next {s t : State} (h : execFrameEmit s = .next t) : Ends s t := by
  obtain ⟨-, h⟩ := underOp_next h
  split at h
  · cases h
  next table htable =>
  simp only at h
  split at h
  · cases h
  next hpay =>
  split at h <;> cases h
  next s' hs' =>
  obtain ⟨hroom, rfl⟩ := State.memWrite_some_iff.1 hs'
  have hlen := frameBytes_length table s.work.pad (s.work.payload.take ((s.work.t + 7) / 8))
  rw [Work.table_length htable, List.length_take, Nat.min_eq_left (Nat.le_of_not_lt hpay)] at hlen
  exact ⟨_, by simpa using hroom, by rw [hlen]⟩

/-- FRAME_PARSE (R204): the header fields and the table, or the first check that fails (R203). -/
theorem execFrameParse_next {s t : State} (h : execFrameParse s = .next t) :
    (Continues s t ∧ t.work = { s.work with
      sc := t.work.sc, padf := t.work.padf, k := t.work.k, payOff := t.work.payOff,
      payLen := t.work.payLen, tExp := t.work.tExp, inPtr := t.work.inPtr,
      present := t.work.present, count := t.work.count, order := t.work.order }) ∨ ∃ c, Raises c s t := by
  obtain ⟨hop, h⟩ := op_of_underOp h rfl
  split at h
  · cases h
    exact .inr ⟨.hdrTrunc, hop, rfl⟩
  split at h
  case h_2 => cases h
  simp only at h
  split at h
  · cases h
    exact .inr ⟨.symcountRange, hop, rfl⟩
  split at h
  · cases h
    exact .inr ⟨.tableTrunc, hop, rfl⟩
  split at h
  · cases h
  split at h
  · cases h
    exact .inr ⟨.dupSymbol, hop, rfl⟩
  next w hw =>
  obtain ⟨order, present, count, rfl⟩ := Work.addEntries_frame hw
  split at h <;> cases h <;> exact .inl ⟨continues_advance (by rw [hop]; decide) _, rfl⟩

/-- LEN_CHECK (R210): `T_EXP`, or LEN_MISMATCH. -/
theorem execLenCheck_next {s t : State} (h : execLenCheck s = .next t) :
    (Continues s t ∧ t.work = { s.work with tExp := t.work.tExp }) ∨ ∃ c, Raises c s t := by
  obtain ⟨hop, h⟩ := op_of_underOp h rfl
  split at h
  · cases h
  split at h
  · cases h
  split at h
  · cases h
    exact .inr ⟨.lenMismatch, hop, rfl⟩
  split at h <;> cases h
  · exact .inr ⟨.lenMismatch, hop, rfl⟩
  · exact .inl ⟨continues_advance (by rw [hop]; decide) _, rfl⟩

/-- BP_UNPACK (R170): the bits, the cursor, and `BITACC` and `BITCNT`, whose values are free. -/
theorem execBpUnpack_next {s t : State} (h : execBpUnpack s = .next t) :
    Continues s t ∧ t.work = { s.work with
      bits := t.work.bits, inPtr := t.work.inPtr, bitAcc := t.work.bitAcc, bitCnt := t.work.bitCnt } := by
  obtain ⟨hop, h⟩ := op_of_underOp h rfl
  split at h
  · cases h
  split at h <;> cases h
  exact ⟨⟨_, _, _, by rw [hop]; decide, rfl⟩, rfl⟩

/-- DEC_WALK (R214): the symbols emitted are the result, or bits are left over. -/
theorem execDecWalk_next {s t : State} (h : execDecWalk s = .next t) : Ends s t ∨ Raises .trailingBits s t := by
  obtain ⟨hop, h⟩ := op_of_underOp h rfl
  simp only at h
  split at h
  · cases h
  next s' hs' =>
  obtain ⟨hroom, rfl⟩ := State.memWrite_some_iff.1 hs'
  split at h <;> cases h
  · exact .inr ⟨hop, rfl⟩
  · exact .inl ⟨_, by simpa using hroom, rfl⟩

/-- What any of the ten phases does. -/
theorem exec_phase_next {i : Instr} {s t : State} (hi : i.format = .phase) (h : exec i s = .next t) :
    PhaseMove s t := by
  cases i with
  | nop | compress | decompress | clear => cases hi
  | ftBuild => exact .inl (execFtBuild_next h).1
  | treeBuild => exact .inl (execTreeBuild_next h).1
  | cbDerive => exact .inl (execCbDerive_next h).1
  | encMap => exact .inl (execEncMap_next h).1
  | bpPack => exact .inl (execBpPack_next h).1
  | frameEmit => exact .inr (.inl (execFrameEmit_next h))
  | frameParse => exact (execFrameParse_next h).imp And.left .inr
  | lenCheck => exact (execLenCheck_next h).imp And.left .inr
  | bpUnpack => exact .inl (execBpUnpack_next h).1
  | decWalk => exact .inr ((execDecWalk_next h).imp id fun h => ⟨_, h⟩)

/-! ### What each command does -/

/-- What a command that answers a next state did (R231 to R234). -/
inductive CommandMove (s : State) : State → Prop
  | nothing : CommandMove s s
  | startCompress : CommandMove s (s.start opCompress phaseFtBuild)
  | startDecompress : CommandMove s (s.start opDecompress phaseFrameParse)
  | acknowledge : CommandMove s s.acknowledge

theorem execCompress_next {s t : State} (h : execCompress s = .next t) :
    s.busy = false ∧ t = s.start opCompress phaseFtBuild := by
  obtain ⟨hb, h⟩ := whenIdle_next h
  split at h
  · cases h
  split at h
  · cases h
  split at h <;> cases h
  exact ⟨hb, rfl⟩

theorem execDecompress_next {s t : State} (h : execDecompress s = .next t) :
    s.busy = false ∧ t = s.start opDecompress phaseFrameParse := by
  obtain ⟨hb, h⟩ := whenIdle_next h
  split at h
  · cases h
  split at h <;> cases h
  exact ⟨hb, rfl⟩

/-- What any of the four commands does. -/
theorem exec_command_next {i : Instr} {s t : State} (hi : i.format = .cmd) (h : exec i s = .next t) :
    s.busy = false ∧ CommandMove s t := by
  cases i with
  | nop =>
    obtain ⟨hb, h⟩ := whenIdle_next h
    cases h
    exact ⟨hb, .nothing⟩
  | compress =>
    obtain ⟨hb, rfl⟩ := execCompress_next h
    exact ⟨hb, .startCompress⟩
  | decompress =>
    obtain ⟨hb, rfl⟩ := execDecompress_next h
    exact ⟨hb, .startDecompress⟩
  | clear =>
    obtain ⟨hb, h⟩ := whenIdle_next h
    cases h
    exact ⟨hb, .acknowledge⟩
  | ftBuild | treeBuild | cbDerive | encMap | bpPack | frameEmit | frameParse | lenCheck | bpUnpack
  | decWalk => cases hi

/-- No command touches the input or a byte of OBUF. -/
theorem CommandMove.keepsInput {s t : State} (h : CommandMove s t) :
    KeepsInput s t ∧ ∀ a, t.obufByte a = s.obufByte a := by
  cases h <;> exact ⟨⟨rfl, fun _ => rfl, rfl, rfl, rfl⟩, fun _ => rfl⟩

/-! ### What the two agents do (R21) -/

/-- A code of either format decodes to an operation of that format. -/
theorem decodePhase_format {p : BitVec 4} {i : Instr} (h : decodePhase p = .ok i) : i.format = .phase := by
  unfold decodePhase at h
  split at h
  · cases h
  · split at h <;> cases h
    next r hr =>
    have hrows : ∀ r ∈ phaseRows, r.2.2.format = .phase := by decide
    exact hrows r (List.mem_of_find?_eq_some hr)

theorem decodeCmd_format {c : Byte} {i : Instr} (h : decodeCmd c = .ok i) : i.format = .cmd := by
  unfold decodeCmd at h
  split at h <;> cases h
  next r hr =>
  have hrows : ∀ r ∈ cmdRows, r.2.2.format = .cmd := by decide
  exact hrows r (List.mem_of_find?_eq_some hr)

/-- While BUSY = 1 the sequencer runs the phase in `PHASE` (R27). -/
theorem sequencerMove_of_busy {s : State} {i : Instr} (hb : s.busy = true) (hd : decodePhase s.phase = .ok i) :
    sequencerMove s = exec i s := by
  simp [sequencerMove, hb, hd]

/-- What the sequencer's move did: a phase of a busy block, nothing in an idle one (R230). -/
theorem sequencerMove_next {s t : State} (h : sequencerMove s = .next t) :
    (s.busy = false ∧ t = s) ∨ (s.busy = true ∧ PhaseMove s t) := by
  unfold sequencerMove at h
  split at h
  · next hb =>
    split at h
    · next hi => exact .inr ⟨hb, exec_phase_next (decodePhase_format hi) h⟩
    · cases h
  · next hb =>
    cases h
    exact .inl ⟨by simpa using hb, rfl⟩

/-- What a `CMD` write did: one of the commands, in an idle block (R230, R284). -/
theorem writeCmd_next {c : Byte} {s t : State} (h : writeCmd c s = .next t) :
    s.busy = false ∧ CommandMove s t := by
  unfold writeCmd at h
  split at h
  · cases h
  · split at h
    · next hi => exact exec_command_next (decodeCmd_format hi) h
    · cases h

/-- What a host action that answers a next state did: `s` no longer holds it in its queue, `held` still does. -/
inductive HostMove (held s : State) : HostAction → State → Prop
  | command {c : Byte} {t : State} (hb : s.busy = false) (h : CommandMove s t) : HostMove held s (.writeCmd c) t
  | tick {t : State} (h : sequencerMove s = .next t) : HostMove held s .tick t
  | wait {t : State} (hd : s.done = false) (h : sequencerMove held = .next t) : HostMove held s .waitDone t
  | reset : HostMove held s .reset s.onReset
  | readStatus {a : HostAction} (ha : a = .readReg .status ∨ a = .waitDone) :
      HostMove held s a { s.answer (s.status.setWidth 64) with handoff := s.handoff && !s.done }
  | read {a : HostAction} (ha : HostAction.writesInput a = false) (hb : s.busy = false) (hh : s.handoff = false)
      (v : BitVec 64) : HostMove held s a (s.answer v)
  | writeInLen (hb : s.busy = false) (hh : s.handoff = false) (v : BitVec 64) :
      HostMove held s (.writeInLen v) { s with inLen := v }
  | writeIbuf (hb : s.busy = false) (hh : s.handoff = false) {off : Nat} (ho : off < s.params.ibufCap.val)
      (b : Byte) : HostMove held s (.writeIbuf off b) { s with ibuf := s.ibuf.set off b }
  | load {a : HostAction} {x : List Byte} (ha : a = .load x ∨ a = .copy) (hb : s.busy = false)
      (hh : s.handoff = false) (hx : x.length ≤ s.params.ibufCap.val) : HostMove held s a (s.loaded x)

theorem loadInput_next {x : List Byte} {s t : State} (h : loadInput x s = .next t) :
    x.length ≤ s.params.ibufCap.val ∧ t = s.loaded x := by
  unfold loadInput at h
  split at h <;> cases h
  exact ⟨‹_›, rfl⟩

theorem readReg_next {r : HostReg} {held s t : State} (h : readReg r s = .next t) :
    HostMove held s (.readReg r) t := by
  cases r with
  | cmd => cases h
  | status =>
    cases h
    exact .readStatus (.inl rfl)
  | errKind | errCause | inLen | outLen =>
    obtain ⟨hb, hh, h⟩ := afterHandoff_next h
    cases h
    exact .read rfl hb hh _

theorem hostMove_next {a : HostAction} {held s t : State} (h : hostMove a held s = .next t) :
    HostMove held s a t := by
  cases a with
  | writeStatus | writeErrKind | writeErrCause | writeOutLen | readIbuf | writeObuf => cases h
  | writeCmd c => exact .command (writeCmd_next h).1 (writeCmd_next h).2
  | writeInLen v =>
    obtain ⟨hb, hh, h⟩ := afterHandoff_next h
    cases h
    exact .writeInLen hb hh v
  | readReg r => exact readReg_next h
  | writeIbuf off b =>
    obtain ⟨hb, hh, h⟩ := afterHandoff_next h
    split at h <;> cases h
    exact .writeIbuf hb hh ‹_› b
  | readObuf off =>
    obtain ⟨hb, hh, h⟩ := afterHandoff_next h
    split at h <;> cases h
    exact .read rfl hb hh _
  | load x =>
    obtain ⟨hb, hh, h⟩ := afterHandoff_next h
    obtain ⟨hx, rfl⟩ := loadInput_next h
    exact .load (.inl rfl) hb hh hx
  | copy =>
    obtain ⟨hb, hh, h⟩ := afterHandoff_next h
    obtain ⟨hx, rfl⟩ := loadInput_next h
    exact .load (.inr rfl) hb hh hx
  | waitDone =>
    simp only [hostMove] at h
    split at h
    · cases h
      exact .readStatus (.inr rfl)
    · next hd => exact .wait (by simpa using hd) h
  | tick => exact .tick h
  | reset =>
    cases h
    exact .reset

/-- What a step did: the sequencer's move when the host has no action, else the host's next action (R21). -/
theorem step_next {s t : State} (h : step s = .next t) :
    (s.hostQueue = [] ∧ sequencerMove s = .next t) ∨
      ∃ a rest, s.hostQueue = a :: rest ∧ HostMove s { s with hostQueue := rest } a t := by
  cases hq : s.hostQueue with
  | nil => exact .inl ⟨rfl, by rwa [step_of_queue_nil hq] at h⟩
  | cons a rest => exact .inr ⟨a, rest, rfl, hostMove_next (by rwa [step_of_queue_cons hq] at h)⟩

end Sys2Proof.Machine
end

section
/-! PROOFS. The control invariant of `STATUS`, `PHASE`, `OP` and the result registers (R24 to R27). -/
namespace Sys2Proof.Machine

theorem busy_of_busyState {s : State} (h : BusyState s) : s.busy = true := by
  simp [State.busy, h.1]

theorem done_of_busyState {s : State} (h : BusyState s) : s.done = false := by
  simp [State.done, h.1]

theorem busy_of_idleState {s : State} (h : IdleState s) : s.busy = false := by
  obtain ⟨-, -, ⟨hst, -⟩ | ⟨hst, -⟩ | ⟨hst, -⟩⟩ := h <;> simp [State.busy, hst]

/-- Of the states that meet the invariant, the idle ones are those with BUSY = 0. -/
theorem idleState_of_ctrlInv {s : State} (h : CtrlInv s) (hb : s.busy = false) : IdleState s := by
  refine h.resolve_left fun hbusy => ?_
  rw [busy_of_busyState hbusy] at hb
  cases hb

theorem busyState_of_ctrlInv {s : State} (h : CtrlInv s) (hb : s.busy = true) : BusyState s := by
  refine h.resolve_right fun hidle => ?_
  rw [busy_of_idleState hidle] at hb
  cases hb

/-- The codes of every cause are codes that are produced (R251, R252). -/
theorem errCodesLegal_of_cause (c : ErrCause) : ErrCodesLegal c.kind.code c.code := by
  cases c <;> decide

theorem Continues.busyState {s t : State} (h : Continues s t) (hs : BusyState s) : BusyState t := by
  obtain ⟨w, p, q, hp, rfl⟩ := h
  obtain ⟨hst, hkind, hcause, hout, hhand, -⟩ := hs
  exact ⟨hst, hkind, hcause, hout, hhand, hp⟩

theorem Ends.idleState {s t : State} (h : Ends s t) (hs : BusyState s) : IdleState t := by
  obtain ⟨x, hx, rfl⟩ := h
  refine ⟨rfl, rfl, .inr (.inl ⟨?_, rfl, rfl, ?_⟩)⟩
  · simp [hs.1, putBit]
  · simpa using (Nat.mod_le _ _).trans hx

theorem Raises.idleState {c : ErrCause} {s t : State} (h : Raises c s t) (hs : BusyState s) : IdleState t := by
  obtain ⟨-, rfl⟩ := h
  refine ⟨rfl, rfl, .inr (.inr ⟨?_, errCodesLegal_of_cause c, rfl⟩)⟩
  simp [hs.1, putBit]

theorem PhaseMove.ctrlInv {s t : State} (h : PhaseMove s t) (hs : BusyState s) : CtrlInv t := by
  obtain h | h | ⟨c, h⟩ := h
  · exact .inl (h.busyState hs)
  · exact .inr (h.idleState hs)
  · exact .inr (h.idleState hs)

/-- A start leaves a busy block in the first phase of its operation (R232, R233). -/
theorem busyState_start {s : State} (hs : IdleState s) {op : Byte} {phase : BitVec 4}
    (hp : PhaseLegal op phase) : BusyState (s.start op phase) := by
  refine ⟨?_, rfl, rfl, rfl, rfl, hp⟩
  obtain ⟨-, -, ⟨hst, -⟩ | ⟨hst, -⟩ | ⟨hst, -⟩⟩ := hs <;> simp [hst, putBit]

/-- CLEAR leaves an idle block with nothing pending (R234). -/
theorem idleState_acknowledge {s : State} (hs : IdleState s) : IdleState s.acknowledge := by
  obtain ⟨hphase, hop, hres⟩ := hs
  refine ⟨hphase, hop, .inl ⟨?_, rfl, rfl, rfl⟩⟩
  obtain ⟨hst, -⟩ | ⟨hst, -⟩ | ⟨hst, -⟩ := hres <;> simp [hst, putBit]

theorem CommandMove.ctrlInv {s t : State} (h : CommandMove s t) (hs : IdleState s) : CtrlInv t := by
  cases h with
  | nothing => exact .inr hs
  | startCompress => exact .inl (busyState_start hs (by decide))
  | startDecompress => exact .inl (busyState_start hs (by decide))
  | acknowledge => exact .inr (idleState_acknowledge hs)

theorem sequencerMove_ctrlInv {s t : State} (hs : CtrlInv s) (h : sequencerMove s = .next t) : CtrlInv t := by
  obtain ⟨-, rfl⟩ | ⟨hb, h⟩ := sequencerMove_next h
  · exact hs
  · exact h.ctrlInv (busyState_of_ctrlInv hs hb)

/-- A `STATUS` read of a busy block sees DONE = 0, so the hand-off stays pending (R74 (b)). -/
theorem ctrlInv_readStatus {s : State} (hs : CtrlInv s) (v : BitVec 64) :
    CtrlInv { s.answer v with handoff := s.handoff && !s.done } := by
  refine hs.imp (fun hbusy => ?_) id
  have hdone := done_of_busyState hbusy
  obtain ⟨hst, hkind, hcause, hout, hhand, hp⟩ := hbusy
  exact ⟨hst, hkind, hcause, hout, by simp [hhand, hdone], hp⟩

/-- The invariant does not look at the input, the host's data or its queue. -/
theorem HostMove.ctrlInv {a : HostAction} {held s t : State} (h : HostMove held s a t) (hheld : CtrlInv held)
    (hs : CtrlInv s) : CtrlInv t := by
  cases h with
  | command hb h => exact h.ctrlInv (idleState_of_ctrlInv hs hb)
  | tick h => exact sequencerMove_ctrlInv hs h
  | wait hd h => exact sequencerMove_ctrlInv hheld h
  | reset => exact .inr ⟨rfl, rfl, .inl ⟨rfl, rfl, rfl, rfl⟩⟩
  | readStatus ha => exact ctrlInv_readStatus hs _
  | read | writeInLen | writeIbuf | load => exact hs

/-- Settles O10: the sequencer's move and every host action keep the invariant. -/
theorem stepKeepsTheControlInvariant : Obligations.StepKeepsTheControlInvariant := by
  intro s t hs h
  obtain ⟨-, h⟩ | ⟨a, rest, -, h⟩ := step_next h
  · exact sequencerMove_ctrlInv hs h
  · exact h.ctrlInv hs hs

/-- Settles O9: an idle block with nothing pending, and two empty buffers. -/
theorem resetStateMeetsTheInvariants : Obligations.ResetStateMeetsTheInvariants := by
  refine ⟨.inr ⟨rfl, rfl, .inl ⟨rfl, rfl, rfl, rfl⟩⟩, State.reset_ibuf_wf, ?_, State.reset_obuf_wf, ?_⟩
  · exact fun c hc => absurd hc List.not_mem_nil
  · exact fun c hc => absurd hc List.not_mem_nil

end Sys2Proof.Machine
end

section
/-! PROOFS. The frames: what the operations and the whole machine leave unchanged (R26, R28, R61, R62). -/
namespace Sys2Proof.Machine

/-- Settles O47: from what each phase and each command does. -/
theorem operationsKeepTheHostSide : Obligations.OperationsKeepTheHostSide := by
  refine ⟨?_, ?_, ?_, ?_, ?_⟩
  · intro i s t hi h
    obtain rfl | rfl | rfl | rfl | rfl | rfl := hi
    · exact (execFtBuild_next h).1.keepsHostSide
    · exact (execTreeBuild_next h).1.keepsHostSide
    · exact (execCbDerive_next h).1.keepsHostSide
    · exact (execEncMap_next h).1.keepsHostSide
    · exact (execBpPack_next h).1.keepsHostSide
    · exact (execBpUnpack_next h).1.keepsHostSide
  · intro i s t hi h
    have hmove : Continues s t ∨ ∃ c, Raises c s t := by
      obtain rfl | rfl := hi
      · exact (execFrameParse_next h).imp_left And.left
      · exact (execLenCheck_next h).imp_left And.left
    exact hmove.imp Continues.keepsHostSide fun ⟨c, hc⟩ => ⟨c, hc.endedInError, hc.keepsInput⟩
  · intro s t h
    have hends := execFrameEmit_next h
    exact ⟨hends.endedWell, hends.keepsInput⟩
  · intro s t h
    obtain hends | hraises := execDecWalk_next h
    · exact ⟨.inl hends.endedWell, hends.keepsInput⟩
    · exact ⟨.inr hraises.endedInError, hraises.keepsInput⟩
  · intro i s t hi h
    have hcmd : i.format = .cmd := by obtain rfl | rfl | rfl | rfl := hi <;> rfl
    exact (exec_command_next hcmd h).2.keepsInput

/-- The error entry goes to IDLE, so a phase that does not has not raised. -/
theorem not_raises_of_phase {c : ErrCause} {s t : State} (hp : t.phase ≠ phaseIdle) : ¬ Raises c s t := by
  rintro ⟨-, rfl⟩
  exact hp rfl

/-- Settles O48: each phase's frame is in the lemma that says what it does. -/
theorem phasesWriteTheirOwnRegisters : Obligations.PhasesWriteTheirOwnRegisters := by
  intro s t
  refine ⟨fun h => (execFtBuild_next h).2, fun h => (execTreeBuild_next h).2,
    fun h => (execCbDerive_next h).2, fun h => (execEncMap_next h).2, fun h => (execBpPack_next h).2,
    fun h hp => ?_, fun h hp => ?_, fun h => (execBpUnpack_next h).2⟩
  · exact ((execFrameParse_next h).resolve_right fun ⟨_, hc⟩ => not_raises_of_phase hp hc).2
  · exact ((execLenCheck_next h).resolve_right fun ⟨_, hc⟩ => not_raises_of_phase hp hc).2

theorem sequencerMove_keepsInput {s t : State} (h : sequencerMove s = .next t) : KeepsInput s t := by
  obtain ⟨-, rfl⟩ | ⟨-, h⟩ := sequencerMove_next h
  · exact ⟨rfl, fun _ => rfl, rfl, rfl, rfl⟩
  · exact h.keepsInput

/-- `IN_LEN` and the bytes of IBUF, which only a host action that writes the input touches. -/
theorem HostMove.keepsInput {a : HostAction} {s t : State} {rest : List HostAction}
    (h : HostMove s { s with hostQueue := rest } a t) (ha : HostAction.writesInput a = false) :
    t.inLen = s.inLen ∧ ∀ o, t.ibufByte o = s.ibufByte o := by
  cases h with
  | command _ h =>
    obtain ⟨⟨hlen, hbytes, -⟩, -⟩ := h.keepsInput
    exact ⟨hlen, hbytes⟩
  | tick h =>
    obtain ⟨hlen, hbytes, -⟩ := sequencerMove_keepsInput h
    exact ⟨hlen, hbytes⟩
  | wait _ h =>
    obtain ⟨hlen, hbytes, -⟩ := sequencerMove_keepsInput h
    exact ⟨hlen, hbytes⟩
  | readStatus | read => exact ⟨rfl, fun _ => rfl⟩
  | reset | writeInLen | writeIbuf => cases ha
  | load hload => obtain rfl | rfl := hload <;> cases ha

/-- Settles O49: neither the sequencer nor a host action that writes no input touches it. -/
theorem blockNeverWritesItsInput : Obligations.BlockNeverWritesItsInput := by
  intro s t h hq
  obtain ⟨-, h⟩ | ⟨a, rest, ha, h⟩ := step_next h
  · obtain ⟨hlen, hbytes, -⟩ := sequencerMove_keepsInput h
    exact ⟨hlen, hbytes⟩
  · exact h.keepsInput (hq a rest ha)

end Sys2Proof.Machine
end

section
/-! PROOFS. Reads of entries that hold nothing (R51, R136, log entry 14). -/
namespace Sys2Proof.Machine

/-- From a node whose descendants reach an entry that is not allocated, `visit` does not answer (R150). -/
theorem visit_error_of_follow {arena : List Node} {m : Nat} (hm : arena[m]? = none) (fuel : Nat) {n : Nat}
    {p : Bits} (hf : follow arena n p = some m) (q : Bits) : ∃ f, visit arena fuel n q = .error f := by
  induction fuel generalizing n p q with
  | zero => exact ⟨_, rfl⟩
  | succ fuel ih =>
    unfold visit
    cases p with
    | nil =>
      cases hf
      exact ⟨.nodeEntryUnallocated, by rw [hm]⟩
    | cons b p =>
      cases hn : arena[n]? with
      | none => exact ⟨_, rfl⟩
      | some node =>
        cases node with
        | leaf sym w => simp [follow, hn] at hf
        | internal w l r =>
          simp only [follow, hn] at hf
          cases b with
          | false =>
            obtain ⟨f, hl⟩ : ∃ f, visit arena fuel l (q ++ [false]) = .error f := ih hf _
            exact ⟨f, by simp only [hl]⟩
          | true =>
            obtain ⟨f, hr⟩ : ∃ f, visit arena fuel r (q ++ [true]) = .error f := ih hf _
            cases hl : visit arena fuel l (q ++ [false]) with
            | error e => exact ⟨e, by simp only [hl]⟩
            | ok left => exact ⟨f, by simp only [hl, hr]⟩

theorem deriveCodes_of_root_absent {arena : List Node} {root : Nat} (h : arena[root]? = none) :
    deriveCodes arena root = .error .nodeEntryUnallocated := by
  simp [deriveCodes, h]

theorem deriveCodes_error_of_follow {arena : List Node} {root m : Nat} {p : Bits} (hm : arena[m]? = none)
    (hf : follow arena root p = some m) : ∃ f, deriveCodes arena root = .error f := by
  unfold deriveCodes
  cases hr : arena[root]? with
  | none => exact ⟨_, rfl⟩
  | some node =>
    cases node with
    | leaf sym w =>
      cases p with
      | nil =>
        cases hf
        rw [hr] at hm
        cases hm
      | cons b p => simp [follow, hr] at hf
    | internal w l r => exact visit_error_of_follow hm _ hf []

/-- No entry at or beyond `N` is read from the arena (R31). -/
theorem Work.arena_absent {w : Work} {m : Nat} (h : w.n ≤ m) : w.arena[m]? = none := by
  simp only [Work.arena, List.getElem?_eq_none_iff, List.length_take]
  omega

theorem Work.table_of_short_order {w : Work} (h : w.order.length < w.k) : w.table = .error .orderEntryAbsent :=
  if_pos h

theorem Work.table_of_absent_count {w : Work} (hk : w.k ≤ w.order.length)
    (h : ∃ b ∈ w.order.take w.k, SymTable.at w.present b = false) : w.table = .error .countEntryAbsent :=
  (if_neg (Nat.not_lt.2 hk)).trans (Work.entriesOf_of_absent h)

/-- A table that cannot be read stops TREE_BUILD with the table's fault. -/
theorem execTreeBuild_of_table_error {s : State} {f : Fault} (hop : s.op = opCompress ∨ s.op = opDecompress)
    (hk : s.work.k ≠ 0) (hn : s.work.n = 0) (hpq : s.work.pq = []) (h : s.work.table = .error f) :
    execTreeBuild s = .fault f := by
  rw [execTreeBuild, underOp_of_mem (by simpa [Instr.opValues] using hop)]
  simp [hk, hn, hpq, h]

theorem execFrameEmit_of_table_error {s : State} {f : Fault} (hop : s.op = opCompress)
    (h : s.work.table = .error f) : execFrameEmit s = .fault f := by
  rw [execFrameEmit, underOp_of_mem (by simp [Instr.opValues, hop]), h]

theorem execLenCheck_of_table_error {s : State} {f : Fault} (hop : s.op = opDecompress)
    (h : s.work.table = .error f) : execLenCheck s = .fault f := by
  rw [execLenCheck, underOp_of_mem (by simp [Instr.opValues, hop]), h]

/-- The three phases that read the table stop with its fault. -/
theorem table_readers_fault {s : State} {f : Fault} (hk : s.work.k ≠ 0) (h : s.work.table = .error f) :
    (s.op = opCompress ∨ s.op = opDecompress → s.work.n = 0 → s.work.pq = [] →
      exec .treeBuild s = .fault f) ∧
    (s.op = opCompress → exec .frameEmit s = .fault f) ∧
    (s.op = opDecompress → exec .lenCheck s = .fault f) :=
  ⟨fun hop hn hpq => execTreeBuild_of_table_error hop hk hn hpq h,
    fun hop => execFrameEmit_of_table_error hop h, fun hop => execLenCheck_of_table_error hop h⟩

theorem execCbDerive_of_error {s : State} {f : Fault} (hop : s.op = opCompress ∨ s.op = opDecompress)
    (h : deriveCodes s.work.arena s.work.root = .error f) : execCbDerive s = .fault f := by
  rw [execCbDerive, underOp_of_mem (by simpa [Instr.opValues] using hop), h]

/-- `MemRead` of the whole input, where IBUF holds it (R66). -/
theorem State.memRead_input {s : State} (h : s.inLen.toNat ≤ s.params.ibufCap.val) :
    s.memRead 0 s.inLen.toNat = .ok s.input :=
  State.memRead_ok_iff.2 ⟨by simp, by simpa using h, rfl⟩

/-- Settles O31: each read of nothing stops the loop that makes it. -/
theorem readsOfNothingFault : Obligations.ReadsOfNothingFault := by
  refine ⟨?_, ?_, ?_, ?_, ?_, ?_⟩
  · intro s hop hk
    show execTreeBuild s = _
    rw [execTreeBuild, underOp_of_mem (by simpa [Instr.opValues] using hop), if_pos hk]
  · intro s hop hlen hinv
    show execEncMap s = _
    rw [execEncMap, underOp_of_mem (by simp [Instr.opValues, hop]), State.memRead_input hlen]
    simp only [Work.mapBytes_of_invalid hinv]
  · intro s table hop htable hinv
    show execLenCheck s = _
    rw [execLenCheck, underOp_of_mem (by simp [Instr.opValues, hop]), htable]
    simp only [Work.impliedBits_of_invalid hinv]
  · intro s hk habs
    have hk0 : s.work.k ≠ 0 := by
      intro h0
      simp [h0] at habs
    exact table_readers_fault hk0 (Work.table_of_absent_count hk habs)
  · intro s hk
    exact table_readers_fault (by omega) (Work.table_of_short_order hk)
  · intro s hop
    refine ⟨fun hroot => ?_, fun p m hf hm => ?_⟩
    · exact execCbDerive_of_error hop (deriveCodes_of_root_absent (Work.arena_absent hroot))
    · obtain ⟨f, hderive⟩ := deriveCodes_error_of_follow (Work.arena_absent hm) hf
      exact ⟨f, execCbDerive_of_error hop hderive⟩

end Sys2Proof.Machine
end

section
/-! PROOFS. The phase decoder, the steps that run a phase, the host's writes of the input, the refused starts. -/
namespace Sys2Proof.Machine

/-- Settles O2: the rows of R27 one by one, over the 16 values of `PHASE`. -/
theorem phaseCodeDecodesAsItsRow : Obligations.PhaseCodeDecodesAsItsRow := by
  refine ⟨rfl, rfl, rfl, rfl, rfl, rfl, rfl, rfl, rfl, rfl, rfl, ?_⟩
  decide

/-- Settles O4: the three ways the sequencer comes to move (log entry 5). -/
theorem stepRunsTheDecodedPhase : Obligations.StepRunsTheDecodedPhase := by
  intro s i hb hd
  refine ⟨fun hq => ?_, fun rest hq => ?_, fun rest hq hdone => ?_⟩
  · rw [step_of_queue_nil hq, sequencerMove_of_busy hb hd]
  · rw [step_of_queue_cons hq]
    exact sequencerMove_of_busy (s := { s with hostQueue := rest }) hb hd
  · have hwait : step s = sequencerMove s := by
      rw [step_of_queue_cons hq]
      exact if_neg (by simpa [State.done] using hdone)
    rw [hwait, sequencerMove_of_busy hb hd]

/-- An access while idle and once the hand-off is over is made (R74 (c)). -/
theorem afterHandoff_of_idle {s : State} (hb : s.busy = false) (hh : s.handoff = false) (r : Result) :
    afterHandoff s r = r := by
  simp [afterHandoff, hb, hh]

/-- What IBUF reads as after a write of one byte (R60). -/
theorem State.ibufByte_set {s : State} (hs : s.ibuf.wf) (off : Nat) (b : Byte) (a : Nat) :
    State.ibufByte { s with ibuf := s.ibuf.set off b } a = if a = off then b else s.ibufByte a := by
  simp only [State.ibufByte, Memory.get?_set hs]
  by_cases h : a = off <;> simp [h]

/-- Settles O16: the access is made, and the buffer reads as after one write. -/
theorem inputWritesLand : Obligations.InputWritesLand := by
  intro s rest hb hh hwf
  have hmade : ∀ r, afterHandoff { s with hostQueue := rest } r = r := afterHandoff_of_idle hb hh
  refine ⟨fun v hq => ?_, fun off b hq hoff => ?_, fun off b hq hoff => ?_⟩
  · rw [step_of_queue_cons hq]
    exact hmade _
  · refine ⟨{ s with hostQueue := rest, ibuf := s.ibuf.set off b }, ?_, ?_, fun a ha => ?_, rfl⟩
    · rw [step_of_queue_cons hq]
      exact (hmade _).trans (if_pos hoff)
    · exact (State.ibufByte_set hwf off b off).trans (if_pos rfl)
    · exact (State.ibufByte_set hwf off b a).trans (if_neg ha)
  · rw [step_of_queue_cons hq]
    exact (hmade _).trans (if_neg (Nat.not_lt.2 hoff))

/-- A DECOMPRESS whose walk emits more than OBUF holds is refused from its start (R63, log entry 10). -/
theorem execDecompress_of_no_room {s : State} (hb : s.busy = false) (hlen : s.inLen.toNat ≤ s.params.ibufCap.val)
    (h : s.params.obufCap.val < (emittedSymbols s.input).length) :
    execDecompress s = .refused .resultBeyondObuf := by
  have hfit : ¬ decompressFits s = true := by simpa using h
  rw [execDecompress, whenIdle_of_idle hb, if_neg (Nat.not_lt.2 hlen), if_neg hfit]

/-- Settles O22: the guards of the two starts in their order. -/
theorem startOutsideItsBoundsIsRefused : Obligations.StartOutsideItsBoundsIsRefused := by
  refine ⟨fun s hb => ⟨if_pos hb, if_pos hb⟩, fun s hb hlen => ⟨?_, ?_⟩, fun s hb hlen hlim => ?_,
    fun s hb hlen hlim hroom => ?_, fun s y hb hlen hdec hroom => ?_, fun s hb hlen hroom => ?_⟩
  · exact (whenIdle_of_idle hb _).trans (if_pos hlen)
  · exact (whenIdle_of_idle hb _).trans (if_pos hlen)
  · show execCompress s = _
    rw [execCompress, whenIdle_of_idle hb, if_neg (Nat.not_lt.2 hlen), if_pos hlim]
  · show execCompress s = _
    rw [execCompress, whenIdle_of_idle hb, if_neg (Nat.not_lt.2 hlen), if_neg (Nat.not_lt.2 hlim), if_pos hroom]
  · exact execDecompress_of_no_room hb hlen (by rwa [emittedSymbols_of_ok hdec])
  · exact execDecompress_of_no_room hb hlen hroom

end Sys2Proof.Machine
end

section
/-! PROOFS. The buffer invariant: both buffers canonical and inside their capacities (R60, R63, R67). -/
namespace Sys2Proof.Machine

theorem Continues.bufInv {s t : State} (h : Continues s t) (hs : BufInv s) : BufInv t := by
  obtain ⟨w, p, q, -, rfl⟩ := h
  exact hs

/-- The result has room in OBUF, and the end of the operation only forgets bytes of it (R62, R63, R67). -/
theorem Ends.bufInv {s t : State} (h : Ends s t) (hs : BufInv s) : BufInv t := by
  obtain ⟨x, hx, rfl⟩ := h
  obtain ⟨hiwf, hicap, howf, hocap⟩ := hs
  refine ⟨hiwf, hicap, Memory.wf_below (Memory.wf_write howf 0 x) _, ?_⟩
  exact Memory.within_below (Memory.within_write hocap (by simpa using hx)) _

/-- The error entry knows no byte of OBUF any more (R262). -/
theorem Raises.bufInv {c : ErrCause} {s t : State} (h : Raises c s t) (hs : BufInv s) : BufInv t := by
  obtain ⟨-, rfl⟩ := h
  obtain ⟨hiwf, hicap, -, -⟩ := hs
  exact ⟨hiwf, hicap, List.Pairwise.nil, List.forall_mem_nil _⟩

theorem PhaseMove.bufInv {s t : State} (h : PhaseMove s t) (hs : BufInv s) : BufInv t := by
  obtain h | h | ⟨c, h⟩ := h
  · exact h.bufInv hs
  · exact h.bufInv hs
  · exact h.bufInv hs

theorem CommandMove.bufInv {s t : State} (h : CommandMove s t) (hs : BufInv s) : BufInv t := by
  cases h <;> exact hs

theorem sequencerMove_bufInv {s t : State} (hs : BufInv s) (h : sequencerMove s = .next t) : BufInv t := by
  obtain ⟨-, rfl⟩ | ⟨-, h⟩ := sequencerMove_next h
  · exact hs
  · exact h.bufInv hs

/-- The host writes IBUF below its capacity only (R60), and reset empties both buffers (R50). -/
theorem HostMove.bufInv {a : HostAction} {held s t : State} (h : HostMove held s a t) (hheld : BufInv held)
    (hs : BufInv s) : BufInv t := by
  cases h with
  | command _ h => exact h.bufInv hs
  | tick h => exact sequencerMove_bufInv hs h
  | wait _ h => exact sequencerMove_bufInv hheld h
  | reset => exact ⟨List.Pairwise.nil, List.forall_mem_nil _, List.Pairwise.nil, List.forall_mem_nil _⟩
  | readStatus | read | writeInLen => exact hs
  | writeIbuf _ _ hoff b =>
    obtain ⟨hiwf, hicap, hobuf⟩ := hs
    exact ⟨Memory.wf_set hiwf _ b, Memory.within_set hicap hoff b, hobuf⟩
  | load _ _ _ hx =>
    obtain ⟨hiwf, hicap, hobuf⟩ := hs
    exact ⟨Memory.wf_write hiwf 0 _, Memory.within_write hicap (by simpa using hx), hobuf⟩

/-- Settles O11: the sequencer's move and every host action keep the invariant. -/
theorem stepKeepsTheBuffersCanonical : Obligations.StepKeepsTheBuffersCanonical := by
  intro s t hs h
  obtain ⟨-, h⟩ | ⟨a, rest, -, h⟩ := step_next h
  · exact sequencerMove_bufInv hs h
  · exact h.bufInv hs hs

end Sys2Proof.Machine
end

section
/-! PROOFS. Results that have no room in OBUF, and the room that always suffices (R63, R188, R214, R233). -/
namespace Sys2Proof.Machine

/-- `MemWrite` is not defined where a byte would lie at or beyond `OBUF_CAP` (R67). -/
theorem State.memWrite_eq_none {s : State} {addr : Nat} {v : List Byte}
    (h : s.params.obufCap.val < addr + v.length) : s.memWrite addr v = none :=
  if_neg (Nat.not_le.2 h)

/-- The length of the Frame FRAME_EMIT writes (R91, R188). -/
theorem Work.frame_length {w : Work} {table : List (Byte × Nat)} (htable : w.table = .ok table) {p : Nat}
    (hp : p ≤ w.payload.length) :
    (frameBytes table w.pad (w.payload.take p)).length = 3 + 5 * w.k + p := by
  rw [frameBytes_length, Work.table_length htable, List.length_take, Nat.min_eq_left hp]

/-- Settles O36: both writers write from offset 0, where `MemWrite` of too many bytes is not defined. -/
theorem resultBeyondTheBufferIsRefused : Obligations.ResultBeyondTheBufferIsRefused := by
  refine ⟨fun s table hop htable hpay hroom => ?_, fun s hop hroom => ?_⟩
  · have hwrite : s.memWrite 0 (frameBytes table s.work.pad (s.work.payload.take ((s.work.t + 7) / 8))) = none :=
      State.memWrite_eq_none (by rwa [Work.frame_length htable hpay, Nat.zero_add])
    show execFrameEmit s = _
    rw [execFrameEmit, underOp_of_mem (by simp [Instr.opValues, hop]), htable]
    simp only [if_neg (Nat.not_lt.2 hpay), hwrite]
  · have hwrite : s.memWrite 0 (walk s.work.rev [] s.work.bits).1 = none :=
      State.memWrite_eq_none (by rwa [Nat.zero_add])
    show execDecWalk s = _
    rw [execDecWalk, underOp_of_mem (by simp [Instr.opValues, hop])]
    simp only [hwrite]

/-- The walk emits at most one symbol for each bit it reads (R214). -/
theorem walk_length_le (rev : Bits → Option Byte) (acc bs : Bits) : (walk rev acc bs).1.length ≤ bs.length := by
  induction bs generalizing acc with
  | nil => exact Nat.le_refl 0
  | cons b rest ih =>
    unfold walk
    split
    · exact Nat.succ_le_succ (ih [])
    · exact (ih (acc ++ [b])).trans (Nat.le_succ _)

/-- `unpack` answers exactly where it is defined (R170, R173). -/
theorem unpack_some_iff {x : List Byte} {pad : Nat} {bs : Bits} :
    unpack x pad = some bs ↔
      pad ≤ 7 ∧ pad ≤ 8 * x.length ∧ bs = (bytesBits x).take (8 * x.length - pad) := by
  simp [unpack, and_assoc, eq_comm]

/-- A byte gives at most 8 bits (R170). -/
theorem length_le_of_unpack {x : List Byte} {pad : Nat} {bs : Bits} (h : unpack x pad = some bs) :
    bs.length ≤ 8 * x.length := by
  obtain ⟨-, -, rfl⟩ := unpack_some_iff.1 h
  exact (List.length_take_le _ _).trans (Nat.sub_le _ _)

/-- The payload is what follows the header of 3 bytes and the symbol table (R92). -/
theorem payload_length_of_parseFrame {f : List Byte} {h : Parsed} (hf : parseFrame f = .ok h) :
    h.payload.length ≤ f.length - 3 := by
  unfold parseFrame at hf
  split at hf
  · next h0 h1 h2 rest =>
    split at hf
    · cases hf
    split at hf
    · cases hf
    simp only at hf
    split at hf <;> cases hf
    exact (List.length_drop ..).trans_le (Nat.sub_le _ _)
  · cases hf

/-- What a Frame that opens gave: its fields passed LEN_CHECK, and the bits are those of its payload (R200). -/
theorem openFrame_ok {f : List Byte} {codes : List (Byte × Bits)} {bs : Bits}
    (hf : openFrame f = .ok (codes, bs)) :
    ∃ h, parseFrame f = .ok h ∧ codes = codesOf h.table ∧ h.padf ≤ 7 ∧
      8 * h.payload.length = impliedLength codes h.table + h.padf ∧ unpack h.payload h.padf = some bs := by
  unfold openFrame at hf
  split at hf
  · cases hf
  next h hparse =>
  simp only at hf
  split at hf
  · cases hf
  next hlen =>
  obtain ⟨hpad, himplied⟩ := not_or.1 hlen
  split at hf <;> cases hf
  exact ⟨h, hparse, rfl, Nat.not_lt.1 hpad, not_not.1 himplied, ‹_›⟩

/-- The walk over a Frame emits at most 8 symbols for each byte after the header, decoding or not. -/
theorem emittedSymbols_length_le (f : List Byte) : (emittedSymbols f).length ≤ 8 * (f.length - 3) := by
  unfold emittedSymbols
  split
  · exact Nat.zero_le _
  · next codes bs hopen =>
    obtain ⟨h, hparse, -, -, -, hbits⟩ := openFrame_ok hopen
    calc (walk (revIn codes) [] bs).1.length
      _ ≤ bs.length := walk_length_le _ _ _
      _ ≤ 8 * h.payload.length := length_le_of_unpack hbits
      _ ≤ 8 * (f.length - 3) := Nat.mul_le_mul_left 8 (payload_length_of_parseFrame hparse)

/-- Settles O58: the bound on the walk, which is the bound on a result and the room a start needs. -/
theorem outputSizeIsBounded : Obligations.OutputSizeIsBounded := by
  refine ⟨fun f y hdec => ?_, emittedSymbols_length_le, fun s hb hlen hroom => ⟨hb, hlen, ?_⟩⟩
  · rw [← emittedSymbols_of_ok hdec]
    exact emittedSymbols_length_le f
  · have hinput : s.input.length = s.inLen.toNat := State.ibufBytes_length s 0 _
    have hwalk := emittedSymbols_length_le s.input
    rw [hinput] at hwalk
    exact hwalk.trans hroom

end Sys2Proof.Machine
end

section
/-! PROOFS. The decoder and the encoder of the codes, the host's LOAD, COPY and WAIT, the empty Frame
(R100, R103, R104, R108, R110). -/
namespace Sys2Proof.Machine

/-! ### Codes -/

/-- Every row of `CMD` tests the whole byte, its match is its operation's code, and no match is above 3
(R103). -/
theorem cmdRows_spec : ∀ r ∈ cmdRows, r.1 = BitVec.allOnes 8 ∧ encode r.2.2 = .cmd r.2.1 ∧ r.2.1.toNat < 4 := by
  decide

/-- Every row of `PHASE` tests all four bits, and its match is its operation's code (R27, R104). -/
theorem phaseRows_spec : ∀ r ∈ phaseRows, r.1 = BitVec.allOnes 4 ∧ encode r.2.2 = .phase r.2.1 := by
  decide

/-- A row that tests every bit is hit by its own match only. -/
theorem eq_of_full_mask {w : Nat} {c mask m : BitVec w} (hmask : mask = BitVec.allOnes w)
    (h : (c &&& mask == m) = true) : c = m := by
  rwa [hmask, BitVec.and_allOnes, beq_iff_eq] at h

theorem encode_of_decodeCmd {c : Byte} {i : Instr} (h : decodeCmd c = .ok i) : encode i = .cmd c := by
  unfold decodeCmd at h
  split at h <;> cases h
  next r hr =>
  obtain ⟨hmask, hcode, -⟩ := cmdRows_spec r (List.mem_of_find?_eq_some hr)
  have hhit := List.find?_some hr
  rw [hcode, eq_of_full_mask hmask hhit]

theorem encode_of_decodePhase {p : BitVec 4} {i : Instr} (h : decodePhase p = .ok i) : encode i = .phase p := by
  unfold decodePhase at h
  split at h
  · cases h
  split at h <;> cases h
  next r hr =>
  obtain ⟨hmask, hcode⟩ := phaseRows_spec r (List.mem_of_find?_eq_some hr)
  have hhit := List.find?_some hr
  rw [hcode, eq_of_full_mask hmask hhit]

/-- No row is hit by a byte above 3 (R108). -/
theorem decodeCmd_of_reserved {c : Byte} (hc : 4 ≤ c.toNat) : decodeCmd c = .error (.reservedCommand c) := by
  have hnone : cmdRows.find? (fun r => c &&& r.1 == r.2.1) = none := by
    refine List.find?_eq_none.2 fun r hr hhit => ?_
    obtain ⟨hmask, -, hlow⟩ := cmdRows_spec r hr
    rw [eq_of_full_mask hmask hhit] at hc
    exact absurd hlow (Nat.not_lt.2 hc)
  rw [decodeCmd, hnone]

/-- Settles O1: the four rows of R103, and the bytes that hit none. -/
theorem commandByteDecodesAsItsRow : Obligations.CommandByteDecodesAsItsRow :=
  ⟨rfl, rfl, rfl, rfl, fun _ => decodeCmd_of_reserved⟩

/-- Settles O3: each operation's code, and the row that a code which decodes has hit. -/
theorem encodedOperationDecodesToItself : Obligations.EncodedOperationDecodesToItself := by
  refine ⟨fun i => ?_, fun c i h => ?_⟩
  · cases i <;> rfl
  · cases c with
    | cmd c => exact encode_of_decodeCmd h
    | phase p => exact encode_of_decodePhase h

/-! ### LOAD, COPY and WAIT (R110) -/

/-- What IBUF reads as after a LOAD: the bytes loaded, and beyond them what was there. -/
theorem State.ibufByte_loaded {s : State} (hs : s.ibuf.wf) (x : List Byte) (a : Nat) :
    (s.loaded x).ibufByte a = x[a]?.getD (s.ibufByte a) := by
  simp only [State.ibufByte, State.loaded, Memory.get?_write hs, Nat.zero_le, true_and, Nat.zero_add,
    Nat.sub_zero]
  by_cases ha : a < x.length
  · rw [if_pos ha, List.getElem?_eq_getElem ha, Option.getD_some]
  · rw [if_neg ha, List.getElem?_eq_none (Nat.not_lt.1 ha), Option.getD_none]

/-- The bytes loaded are the operation's input (R26), when their number fits in `IN_LEN`. -/
theorem State.input_loaded {s : State} (hs : s.ibuf.wf) {x : List Byte} (hx : x.length < 2 ^ 64) :
    (s.loaded x).input = x := by
  have hlen : (s.loaded x).inLen.toNat = x.length := Nat.mod_eq_of_lt hx
  refine List.ext_getElem ?_ fun i _ hi => ?_
  · rw [State.input, State.ibufBytes_length, hlen]
  · simp [State.input, State.ibufBytes, State.ibufByte_loaded hs, hi]

/-- LOAD and COPY of an idle block move their bytes to IBUF, if they have a place there (R60). -/
theorem step_of_load {s : State} {x : List Byte} {rest : List HostAction} (hb : s.busy = false)
    (hh : s.handoff = false)
    (hq : s.hostQueue = .load x :: rest ∨ (s.hostQueue = .copy :: rest ∧ x = s.output)) :
    step s = loadInput x { s with hostQueue := rest } := by
  obtain hq | ⟨hq, rfl⟩ := hq <;> rw [step_of_queue_cons hq] <;> exact afterHandoff_of_idle hb hh _

/-- Settles O15: a capacity is at most 2^60, so the length of what has a place in IBUF fits in `IN_LEN`. -/
theorem loadAndCopyWriteTheInput : Obligations.LoadAndCopyWriteTheInput := by
  intro s x rest hb hh hwf hq
  rw [step_of_load hb hh hq]
  refine ⟨fun hx => ⟨State.loaded { s with hostQueue := rest } x, if_pos hx, ?_, fun a ha => ?_, rfl⟩,
    fun hx => if_neg (Nat.not_le.2 hx)⟩
  · have hcap : s.params.ibufCap.val ≤ 2 ^ 60 := Nat.le_of_lt_succ s.params.ibufCap.isLt
    exact State.input_loaded hwf (by omega)
  · have hbyte := State.ibufByte_loaded (s := { s with hostQueue := rest }) hwf x a
    rwa [List.getElem?_eq_none ha] at hbyte

/-- Settles O17: a `STATUS` read that returns DONE = 1 ends the WAIT and the hand-off (R74 (b)); until then
the block moves with the WAIT still pending (log entry 5). -/
theorem waitEndsAtDone : Obligations.WaitEndsAtDone := by
  intro s rest hq
  rw [step_of_queue_cons hq]
  refine ⟨fun hd => ?_, fun hd => ?_⟩
  · have hread : hostMove .waitDone s { s with hostQueue := rest } = readReg .status { s with hostQueue := rest } :=
      if_pos hd
    have hover : (s.handoff && !s.done) = false := by simp [hd]
    rw [hread, ← hover]
    rfl
  · exact if_neg (by simpa [State.done] using hd)

/-! ### The empty Frame (R100, R122, R209) -/

/-- A Frame with `symbol_count = 0` that parses is three bytes and its payload, and its table is empty (R92). -/
theorem parseFrame_of_no_symbols {f : List Byte} {h : Parsed} (hsc : scOf f = 0) (hf : parseFrame f = .ok h) :
    f = 0x00#8 :: 0x00#8 :: BitVec.ofNat 8 h.padf :: h.payload ∧ h.table = [] := by
  unfold parseFrame at hf
  split at hf
  case h_2 => cases hf
  next h0 h1 h2 rest =>
  have hbe : be16 h0 h1 = 0 := hsc
  obtain ⟨h0z, h1z⟩ : h0.toNat = 0 ∧ h1.toNat = 0 := by
    unfold be16 at hbe
    omega
  simp only [hbe] at hf
  cases hf
  refine ⟨?_, rfl⟩
  rw [BitVec.eq_of_toNat_eq (y := 0x00#8) h0z, BitVec.eq_of_toNat_eq (y := 0x00#8) h1z]
  simp

/-- An empty table implies no bits, so LEN_CHECK passes only an empty payload without padding (R209, R210). -/
theorem eq_emptyFrame_of_openFrame {f : List Byte} {r : List (Byte × Bits) × Bits} (hsc : scOf f = 0)
    (hf : openFrame f = .ok r) : f = [0x00#8, 0x00#8, 0x00#8] := by
  obtain ⟨h, hparse, -, hpad, hbits, -⟩ := openFrame_ok (codes := r.1) (bs := r.2) hf
  obtain ⟨hbytes, htable⟩ := parseFrame_of_no_symbols hsc hparse
  have himplied : impliedLength r.1 h.table = 0 := by rw [htable]; rfl
  rw [himplied, Nat.zero_add] at hbits
  have hpayload : h.payload = [] := List.eq_nil_of_length_eq_zero (by omega)
  have hpadf : h.padf = 0 := by omega
  rw [hbytes, hpayload, hpadf]

theorem openFrame_of_decompress {f y : List Byte} (h : decompress f = .ok y) : ∃ r, openFrame f = .ok r := by
  unfold decompress at h
  split at h
  · cases h
  · exact ⟨_, ‹_›⟩

theorem decompress_emptyFrame : decompress [0x00#8, 0x00#8, 0x00#8] = .ok [] := by
  decide

/-- Settles O59: the empty Frame is the only one LEN_CHECK passes. -/
theorem emptyFrameIsTheOnlyOneWithoutSymbols : Obligations.EmptyFrameIsTheOnlyOneWithoutSymbols := by
  refine ⟨rfl, decompress_emptyFrame, fun f y hsc hdec => ?_⟩
  obtain ⟨r, hopen⟩ := openFrame_of_decompress hdec
  obtain rfl := eq_emptyFrame_of_openFrame hsc hopen
  rw [decompress_emptyFrame] at hdec
  cases hdec
  exact ⟨rfl, rfl⟩

end Sys2Proof.Machine
end

section
/-! PROOFS. FT_BUILD counts the input (R120 to R123): the loop's invariant over the bytes read so far. -/
namespace Sys2Proof.Machine

/-! ### The distinct bytes of a list, in order of first occurrence (R123) -/

/-- One more byte is one more distinct byte exactly when it did not occur before. -/
theorem eraseDups_concat (x : List Byte) (b : Byte) :
    (x ++ [b]).eraseDups = if b ∈ x then x.eraseDups else x.eraseDups ++ [b] := by
  rw [List.eraseDups_append]
  split
  · next h => simp [List.removeAll, h]
  · next h => simp [List.removeAll, h, List.eraseDups_cons]

theorem nodup_eraseDups (x : List Byte) : x.eraseDups.Nodup := by
  induction x using List.reverseRecOn with
  | nil => exact List.nodup_nil
  | append_singleton x b ih =>
    rw [eraseDups_concat]
    split
    · exact ih
    · next h => simpa using ih.concat (by simpa using h)

theorem eraseDups_eq_nil_iff (x : List Byte) : x.eraseDups = [] ↔ x = [] := by
  simp only [List.eq_nil_iff_forall_not_mem, List.mem_eraseDups]

/-- The counts of the distinct bytes sum to the length (R121). -/
theorem sum_count_eraseDups (x : List Byte) : (x.eraseDups.map x.count).sum = x.length := by
  have hperm : x.eraseDups.Perm x.dedup :=
    (List.perm_ext_iff_of_nodup (nodup_eraseDups x) x.nodup_dedup).2 (by simp)
  rw [(hperm.map x.count).sum_eq, List.sum_map_count_dedup_eq_length]

/-! ### One iteration of the loop (R120) -/

theorem Work.countByte_k (w : Work) (b : Byte) :
    (w.countByte b).k = if SymTable.at w.present b then w.k else w.k + 1 := by
  unfold Work.countByte
  split <;> rfl

/-- A new byte is the next key. -/
theorem Work.countByte_keys (w : Work) (b : Byte) : (w.countByte b).order.take (w.countByte b).k =
    if SymTable.at w.present b then w.order.take w.k else w.order.take w.k ++ [b] := by
  unfold Work.countByte
  split
  · rfl
  · exact List.take_of_length_le (by simp)

theorem Work.at_countByte_present (w : Work) (b a : Byte) :
    SymTable.at (w.countByte b).present a = (SymTable.at w.present a || decide (b = a)) := by
  unfold Work.countByte
  split
  · next h => simpa using fun hab : b = a => hab ▸ h
  · by_cases hab : b = a <;> simp [hab]

/-- A new byte has count 1, whatever its entry held before. -/
theorem Work.at_countByte_count (w : Work) (b a : Byte) : SymTable.at (w.countByte b).count a =
    if b = a then if SymTable.at w.present b then SymTable.at w.count b + 1 else 1
    else SymTable.at w.count a := by
  unfold Work.countByte
  split
  · simp
  · by_cases hab : b = a <;> simp [hab]

/-- The table of a working state holds the bytes `x`: the distinct ones as keys, each with its count
(R120 to R123). -/
structure Work.Counts (w : Work) (x : List Byte) : Prop where
  k : w.k = x.eraseDups.length
  order : w.order.take w.k = x.eraseDups
  present : ∀ b : Byte, SymTable.at w.present b = decide (b ∈ x)
  count : ∀ b ∈ x, SymTable.at w.count b = x.count b

theorem Work.counts_nil {w : Work} (hk : w.k = 0) (hp : ∀ b : Byte, SymTable.at w.present b = false) :
    w.Counts [] where
  k := hk
  order := by simp [hk]
  present := by simpa using hp
  count := by simp

/-- The loop's invariant: a byte seen before adds to its count, a new one becomes the last key with count 1. -/
theorem Work.Counts.countByte {w : Work} {x : List Byte} (h : w.Counts x) (b : Byte) :
    (w.countByte b).Counts (x ++ [b]) := by
  obtain ⟨hk, ho, hp, hc⟩ := h
  refine ⟨?_, ?_, fun a => ?_, fun a ha => ?_⟩
  · by_cases hb : b ∈ x <;> simp [Work.countByte_k, eraseDups_concat, hp, hb, hk]
  · simp [Work.countByte_keys, eraseDups_concat, hp, ho]
  · simp [Work.at_countByte_present, hp, eq_comm]
  · rw [Work.at_countByte_count, hp]
    by_cases hab : b = a
    · by_cases hb : b ∈ x
      · simp [← hab, hb, hc b hb]
      · simp [← hab, hb, List.count_eq_zero.2 hb]
    · have hax : a ∈ x := by simpa [Ne.symm hab] using ha
      simp [hab, hc a hax]

/-- The whole loop, from a table that holds the bytes `x`. -/
theorem Work.Counts.foldl_countByte {w : Work} {x : List Byte} (h : w.Counts x) (y : List Byte) :
    (y.foldl Work.countByte w).Counts (x ++ y) := by
  induction y generalizing w x with
  | nil => simpa using h
  | cons b y ih => simpa using ih (h.countByte b)

theorem Work.Counts.k_eq_zero_iff {w : Work} {x : List Byte} (h : w.Counts x) : w.k = 0 ↔ x = [] := by
  rw [h.k, List.length_eq_zero_iff, eraseDups_eq_nil_iff]

theorem Work.Counts.sum_counts {w : Work} {x : List Byte} (h : w.Counts x) :
    ((w.order.take w.k).map (fun b => SymTable.at w.count b)).sum = x.length := by
  rw [h.order, List.map_congr_left fun b hb => h.count b (List.mem_eraseDups.1 hb), sum_count_eraseDups]

/-! ### The phase -/

/-- FT_BUILD under its precondition: the table holds the input, and an empty input skips to FRAME_EMIT with
`PAD = T = 0` (R122, R184). -/
theorem exec_ftBuild_of_empty_table {s : State} (hop : s.op = opCompress)
    (hlen : s.inLen.toNat ≤ s.params.ibufCap.val) (hk : s.work.k = 0)
    (hp : ∀ b : Byte, SymTable.at s.work.present b = false) :
    ∃ t, exec .ftBuild s = .next t ∧ t.work.Counts s.input ∧
      t.phase = (if s.input = [] then phaseFrameEmit else phaseTreeBuild) ∧
      t.work.pad = (if s.input = [] then 0 else s.work.pad) ∧
      t.work.t = (if s.input = [] then 0 else s.work.t) := by
  have hcounts := (Work.counts_nil hk hp).foldl_countByte s.input
  have hzero := hcounts.k_eq_zero_iff
  obtain ⟨k, order, present, count, hw⟩ := Work.foldl_countByte_frame s.input s.work
  obtain ⟨hdistinct, horder, hpresent, hcount⟩ := hcounts
  show ∃ t, execFtBuild s = .next t ∧ _
  rw [execFtBuild, underOp_of_mem (by simp [Instr.opValues, hop]), State.memRead_input hlen]
  by_cases hx : s.input = []
  · exact ⟨_, if_pos (hzero.2 hx), ⟨hdistinct, horder, hpresent, hcount⟩, (if_pos hx).symm,
      (if_pos hx).symm, (if_pos hx).symm⟩
  · refine ⟨_, if_neg (mt hzero.1 hx), ⟨hdistinct, horder, hpresent, hcount⟩, (if_neg hx).symm, ?_, ?_⟩
    · simp [hw, hx]
    · simp [hw, hx]

/-- Settles O23: the loop's invariant at the end of the input, and the frame of the phase. -/
theorem frequencyTableCountsTheInput : Obligations.FrequencyTableCountsTheInput := by
  intro s hop hlen hk hp
  obtain ⟨t, hexec, hcounts, hphase, hpad, ht⟩ := exec_ftBuild_of_empty_table hop hlen hk hp
  obtain ⟨hcont, hframe⟩ := execFtBuild_next hexec
  have hsum : s.input.length = s.inLen.toNat := State.ibufBytes_length s 0 _
  refine ⟨t, hexec, hcounts.k, hcounts.order, hcounts.present, hcounts.count, hcounts.sum_counts.trans hsum,
    fun hx => by rw [hphase, if_pos hx], fun hx => by rw [hphase, if_neg hx], hcont.keepsHostSide, ?_⟩
  rwa [hpad, ht] at hframe

end Sys2Proof.Machine
end

section
/-! PROOFS. TREE_BUILD makes the Huffman arena (R130 to R139): the order of `extract_min`, one merge, and the
forest that every merge keeps. -/
namespace Sys2Proof.Machine

/-! ### The order of `extract_min` (R133) -/

theorem extractedBefore_iff {arena : List Node} {i j : Nat} : extractedBefore arena i j = true ↔
    weightAt arena i < weightAt arena j ∨ (weightAt arena i = weightAt arena j ∧ i < j) := by
  simp [extractedBefore]

theorem extractedBefore_trans {arena : List Node} {i j k : Nat} (hij : extractedBefore arena i j = true)
    (hjk : extractedBefore arena j k = true) : extractedBefore arena i k = true := by
  rw [extractedBefore_iff] at *
  omega

/-- The order is total: of two indices the one or the other goes first. -/
theorem extractedBefore_of_not {arena : List Node} {i j : Nat} (h : ¬ extractedBefore arena i j = true)
    (hne : i ≠ j) : extractedBefore arena j i = true := by
  rw [extractedBefore_iff] at *
  omega

/-- `minIndex` finds an index of the queue that goes before every other one there. -/
theorem minIndex_spec {arena : List Node} {pq : List Nat} (hpq : pq ≠ []) :
    ∃ i, minIndex arena pq = some i ∧ i ∈ pq ∧ ∀ j ∈ pq, j ≠ i → extractedBefore arena i j = true := by
  induction pq with
  | nil => exact absurd rfl hpq
  | cons k rest ih =>
    unfold minIndex
    by_cases hrest : rest = []
    · exact ⟨k, by simp [hrest, minIndex]⟩
    · obtain ⟨m, hm, hmem, hmin⟩ := ih hrest
      simp only [hm]
      by_cases hkm : extractedBefore arena k m = true
      · refine ⟨k, by rw [if_pos hkm], List.mem_cons_self, fun j hj hjk => ?_⟩
        by_cases hjm : j = m
        · rwa [hjm]
        · exact extractedBefore_trans hkm (hmin j (List.mem_of_ne_of_mem hjk hj) hjm)
      · refine ⟨m, by rw [if_neg hkm], List.mem_cons_of_mem k hmem, fun j hj hjm => ?_⟩
        obtain rfl | hj := List.mem_cons.1 hj
        · exact extractedBefore_of_not hkm hjm
        · exact hmin j hj hjm

theorem extractMin_spec {arena : List Node} {pq : List Nat} (hpq : pq ≠ []) :
    ∃ i, extractMin arena pq = some (i, pq.erase i) ∧ i ∈ pq ∧
      ∀ j ∈ pq, j ≠ i → extractedBefore arena i j = true := by
  obtain ⟨i, hi, hmem, hmin⟩ := minIndex_spec (arena := arena) hpq
  exact ⟨i, by simp only [extractMin, hi], hmem, hmin⟩

/-- Settles O24: `extract_min` takes the index that goes before every other, in the order of (weight, index). -/
theorem extractMinTakesTheLightestEarliest : Obligations.ExtractMinTakesTheLightestEarliest := by
  intro arena pq hpq
  obtain ⟨i, hi, hmem, hmin⟩ := extractMin_spec (arena := arena) hpq
  exact ⟨i, hi, hmem, fun j hj hji => extractedBefore_iff.1 (hmin j hj hji)⟩

/-- From a queue without repetitions, the index taken goes before all that are left. -/
theorem extractMin_of_nodup {arena : List Node} {pq : List Nat} (hpq : pq ≠ []) (hnd : pq.Nodup) :
    ∃ i rest, extractMin arena pq = some (i, rest) ∧ pq.Perm (i :: rest) ∧
      ∀ j ∈ rest, extractedBefore arena i j = true := by
  obtain ⟨i, hi, hmem, hmin⟩ := extractMin_spec (arena := arena) hpq
  refine ⟨i, pq.erase i, hi, List.perm_cons_erase hmem, fun j hj => ?_⟩
  obtain ⟨hji, hj⟩ := hnd.mem_erase_iff.1 hj
  exact hmin j hj hji

/-! ### One merge (R134) -/

/-- The arena with a new node whose children are `a` and `b`. -/
def withMerge (arena : List Node) (a b : Nat) : List Node :=
  arena ++ [.internal (weightAt arena a + weightAt arena b) a b]

theorem mergeNodes_singleton (fuel : Nat) (arena : List Node) (root : Nat) :
    mergeNodes fuel arena [root] = (arena, [root]) := by
  cases fuel <;> simp [mergeNodes, extractMin, minIndex]

/-- A queue of two or more loses the two that go before all others, in their order, and gains their parent. -/
theorem mergeNodes_of_two {arena : List Node} {pq : List Nat} (hlen : 2 ≤ pq.length) (hnd : pq.Nodup)
    (fuel : Nat) : ∃ a b rest, pq.Perm (a :: b :: rest) ∧ extractedBefore arena a b = true ∧
      (∀ j ∈ rest, extractedBefore arena b j = true) ∧
      mergeNodes (fuel + 1) arena pq = mergeNodes fuel (withMerge arena a b) (rest ++ [arena.length]) := by
  obtain ⟨a, pq1, ha, hperm, hmin⟩ :=
    extractMin_of_nodup (arena := arena) (List.ne_nil_of_length_pos (by omega)) hnd
  have hlen1 : pq.length = pq1.length + 1 := hperm.length_eq
  obtain ⟨b, pq2, hb, hperm1, hmin1⟩ :=
    extractMin_of_nodup (arena := arena) (pq := pq1) (List.ne_nil_of_length_pos (by omega))
      (hperm.nodup hnd).of_cons
  refine ⟨a, b, pq2, hperm.trans (hperm1.cons a), hmin b (hperm1.mem_iff.2 List.mem_cons_self), hmin1, ?_⟩
  simp only [mergeNodes, ha, hb, withMerge]

/-! ### A longer arena (R31) -/

theorem weightAt_of_getElem? {arena : List Node} {i : Nat} {nd : Node} (h : arena[i]? = some nd) :
    weightAt arena i = nd.weight := by
  simp only [weightAt, h]

theorem weightAt_append {arena : List Node} {i : Nat} (hi : i < arena.length) (more : List Node) :
    weightAt (arena ++ more) i = weightAt arena i := by
  simp only [weightAt, List.getElem?_append_left hi]

theorem extractedBefore_append {arena : List Node} {i j : Nat} (hi : i < arena.length) (hj : j < arena.length)
    (more : List Node) : extractedBefore (arena ++ more) i j = extractedBefore arena i j := by
  simp only [extractedBefore, weightAt_append hi, weightAt_append hj]

/-- Node `i` is the merge of the two nodes first extracted from those below it that have no parent below it
(R133, R134). -/
def MergedAt (arena : List Node) (i : Nat) : Prop :=
  ∃ w l r, arena[i]? = some (Node.internal w l r) ∧ l < i ∧ r < i ∧
    w = weightAt arena l + weightAt arena r ∧ extractedBefore arena l r = true ∧
    ∀ j, j < i → j ∉ (arena.take (i + 1)).flatMap Node.children → extractedBefore arena r j = true

/-- Later nodes do not change how a node was merged. -/
theorem MergedAt.append {arena : List Node} {i : Nat} (h : MergedAt arena i) (hi : i < arena.length)
    (more : List Node) : MergedAt (arena ++ more) i := by
  obtain ⟨w, l, r, hnode, hl, hr, hw, hlr, hmin⟩ := h
  refine ⟨w, l, r, by rwa [List.getElem?_append_left hi], hl, hr, ?_, ?_, fun j hj hfree => ?_⟩
  · rwa [weightAt_append (hl.trans hi), weightAt_append (hr.trans hi)]
  · rwa [extractedBefore_append (hl.trans hi) (hr.trans hi)]
  · rw [List.take_append_of_le_length hi] at hfree
    rw [extractedBefore_append (hr.trans hi) (hj.trans hi)]
    exact hmin j hj hfree

/-! ### The forest every merge keeps (R130 to R134, R139) -/

/-- The arena and the queue between two merges: the leaves stand first, every other node is a merge, the queue
holds exactly the nodes without a parent, the newest among them, and their weights sum to the counts. -/
structure Forest (leaves : List (Byte × Nat)) (arena : List Node) (pq : List Nat) : Prop where
  size : arena.length + pq.length = 2 * leaves.length
  leaf : leafNodes leaves <+: arena
  merged : ∀ i, leaves.length ≤ i → i < arena.length → MergedAt arena i
  parents : (arena.flatMap Node.children ++ pq).Perm (List.range arena.length)
  newest : arena.length - 1 ∈ pq
  weight : (pq.map (weightAt arena)).sum = (leaves.map Prod.snd).sum

section Forest

variable {leaves : List (Byte × Nat)} {arena : List Node} {pq : List Nat}

theorem leafNodes_length (leaves : List (Byte × Nat)) : (leafNodes leaves).length = leaves.length :=
  List.length_map ..

theorem weightAt_leafNodes (leaves : List (Byte × Nat)) :
    (List.range leaves.length).map (weightAt (leafNodes leaves)) = leaves.map Prod.snd := by
  refine List.ext_getElem (by simp) fun i hi _ => ?_
  have hi : i < leaves.length := by simpa using hi
  simp [weightAt, leafNodes, hi, Node.weight]

/-- The leaves alone (R131). -/
theorem forest_leafNodes (hne : leaves ≠ []) :
    Forest leaves (leafNodes leaves) (List.range leaves.length) where
  size := by simp [leafNodes_length, Nat.two_mul]
  leaf := List.prefix_rfl
  merged i hle hlt := absurd (leafNodes_length leaves ▸ hlt) (Nat.not_lt.2 hle)
  parents := by
    have hchildless : (leafNodes leaves).flatMap Node.children = [] := by
      simp [leafNodes, List.flatMap_map, Node.children]
    rw [hchildless, leafNodes_length, List.nil_append]
  newest := by
    have hpos := List.length_pos_iff.2 hne
    rw [leafNodes_length, List.mem_range]
    omega
  weight := by rw [weightAt_leafNodes]

theorem Forest.nodup (h : Forest leaves arena pq) : pq.Nodup :=
  (h.parents.nodup_iff.2 List.nodup_range).of_append_right

theorem Forest.lt_length (h : Forest leaves arena pq) {i : Nat} (hi : i ∈ pq) : i < arena.length :=
  List.mem_range.1 (h.parents.mem_iff.1 (List.mem_append_right _ hi))

/-- A node that is no child is in the queue. -/
theorem Forest.mem_queue (h : Forest leaves arena pq) {i : Nat} (hi : i < arena.length)
    (hfree : i ∉ arena.flatMap Node.children) : i ∈ pq :=
  (List.mem_append.1 (h.parents.mem_iff.2 (List.mem_range.2 hi))).resolve_left hfree

theorem withMerge_length (arena : List Node) (a b : Nat) : (withMerge arena a b).length = arena.length + 1 := by
  simp [withMerge]

theorem withMerge_children (arena : List Node) (a b : Nat) :
    (withMerge arena a b).flatMap Node.children = arena.flatMap Node.children ++ [a, b] := by
  simp [withMerge, Node.children]

/-- The node a merge adds is a merge. -/
theorem Forest.mergedAt_length (h : Forest leaves arena pq) {a b : Nat} {rest : List Nat}
    (hperm : pq.Perm (a :: b :: rest)) (hab : extractedBefore arena a b = true)
    (hmin : ∀ j ∈ rest, extractedBefore arena b j = true) : MergedAt (withMerge arena a b) arena.length := by
  have ha : a < arena.length := h.lt_length (hperm.mem_iff.2 (by simp))
  have hb : b < arena.length := h.lt_length (hperm.mem_iff.2 (by simp))
  refine ⟨weightAt arena a + weightAt arena b, a, b, by simp [withMerge], ha, hb, ?_, ?_, fun j hj hfree => ?_⟩
  · rw [withMerge, weightAt_append ha, weightAt_append hb]
  · rwa [withMerge, extractedBefore_append ha hb]
  · rw [List.take_of_length_le (withMerge_length arena a b).le, withMerge_children] at hfree
    simp only [List.mem_append, List.mem_cons, List.not_mem_nil, or_false, not_or] at hfree
    obtain ⟨hchild, hja, hjb⟩ := hfree
    have hrest : j ∈ rest := by simpa [hja, hjb] using hperm.mem_iff.1 (h.mem_queue hj hchild)
    rw [withMerge, extractedBefore_append hb hj]
    exact hmin j hrest

theorem Forest.merge (h : Forest leaves arena pq) {a b : Nat} {rest : List Nat}
    (hperm : pq.Perm (a :: b :: rest)) (hab : extractedBefore arena a b = true)
    (hmin : ∀ j ∈ rest, extractedBefore arena b j = true) :
    Forest leaves (withMerge arena a b) (rest ++ [arena.length]) where
  size := by
    have hsize := h.size
    have hlen : pq.length = rest.length + 2 := hperm.length_eq
    rw [withMerge_length, List.length_append, List.length_singleton]
    omega
  leaf := h.leaf.trans (List.prefix_append ..)
  merged i hle hlt := by
    obtain hlt | rfl := Nat.lt_succ_iff_lt_or_eq.1 (withMerge_length arena a b ▸ hlt)
    · exact (h.merged i hle hlt).append hlt _
    · exact h.mergedAt_length hperm hab hmin
  parents := by
    rw [withMerge_children, withMerge_length, List.range_succ, List.append_assoc, ← List.append_assoc [a, b],
      ← List.append_assoc]
    exact ((hperm.symm.append_left _).trans h.parents).append_right _
  newest := by simp [withMerge_length]
  weight := by
    have hold : rest.map (weightAt (withMerge arena a b)) = rest.map (weightAt arena) :=
      List.map_congr_left fun i hi => weightAt_append (h.lt_length (hperm.mem_iff.2 (by simp [hi]))) _
    have hnew : weightAt (withMerge arena a b) arena.length = weightAt arena a + weightAt arena b :=
      weightAt_of_getElem? List.getElem?_concat_length
    have hsum : (pq.map (weightAt arena)).sum = _ := (hperm.map (weightAt arena)).sum_eq
    simp only [← h.weight, hsum, List.map_append, List.map_cons, List.map_nil, List.sum_append, List.sum_cons,
      List.sum_nil, hold, hnew]
    omega

/-- The loop ends with one node in the queue, when it may make as many merges as it takes. -/
theorem Forest.mergeNodes_of_fuel (h : Forest leaves arena pq) {fuel : Nat} (hfuel : pq.length ≤ fuel + 1) :
    ∃ arena' root, mergeNodes fuel arena pq = (arena', [root]) ∧ Forest leaves arena' [root] := by
  induction fuel generalizing arena pq with
  | zero =>
    obtain ⟨root, rfl⟩ := List.length_eq_one_iff.1 (le_antisymm hfuel (List.length_pos_of_mem h.newest))
    exact ⟨arena, root, rfl, h⟩
  | succ fuel ih =>
    by_cases hlen : 2 ≤ pq.length
    · obtain ⟨a, b, rest, hperm, hab, hmin, hmerge⟩ := mergeNodes_of_two hlen h.nodup fuel
      have hrest : pq.length = rest.length + 2 := hperm.length_eq
      rw [hmerge]
      exact ih (h.merge hperm hab hmin) (by simp; omega)
    · have hpos := List.length_pos_of_mem h.newest
      obtain ⟨root, rfl⟩ := List.length_eq_one_iff.1 (show pq.length = 1 by omega)
      exact ⟨arena, root, mergeNodes_singleton _ _ _, h⟩

/-- The tree: one node without a parent, and it is the last (R139). -/
theorem buildTree_forest (hne : leaves ≠ []) : ∃ arena, buildTree leaves = (arena, [2 * leaves.length - 2]) ∧
    Forest leaves arena [2 * leaves.length - 2] := by
  obtain ⟨arena, root, hbuild, h⟩ := (forest_leafNodes hne).mergeNodes_of_fuel (fuel := leaves.length) (by simp)
  have hsize : arena.length + 1 = 2 * leaves.length := h.size
  have hroot : arena.length - 1 = root := List.mem_singleton.1 h.newest
  obtain rfl : root = 2 * leaves.length - 2 := by omega
  exact ⟨arena, hbuild, h⟩

theorem Forest.getElem?_leaf (h : Forest leaves arena pq) {j : Nat} {p : Byte × Nat} (hj : leaves[j]? = some p) :
    arena[j]? = some (Node.leaf p.1 p.2) := by
  obtain ⟨later, rfl⟩ := h.leaf
  obtain ⟨hlt, -⟩ := List.getElem?_eq_some_iff.1 hj
  rw [List.getElem?_append_left (by rwa [leafNodes_length]), leafNodes, List.getElem?_map, hj]
  rfl

/-- In a tree every node but the root is a child exactly once. -/
theorem Forest.children_perm {root : Nat} (h : Forest leaves arena [root]) (hlen : arena.length = root + 1) :
    (arena.flatMap Node.children).Perm (List.range root) := by
  have hparents := h.parents
  rw [hlen, List.range_succ] at hparents
  exact (List.perm_append_right_iff _).1 hparents

/-- The root weighs the sum of the counts. -/
theorem Forest.weightAt_root {root : Nat} (h : Forest leaves arena [root]) :
    weightAt arena root = (leaves.map Prod.snd).sum := by
  simpa using h.weight

end Forest

/-! ### The phase -/

/-- TREE_BUILD under its precondition puts the tree of the table in the working state (R130, R184, R202). -/
theorem exec_treeBuild_of_buildTree {s : State} {leaves : List (Byte × Nat)} {arena : List Node} {root : Nat}
    (hop : s.op = opCompress ∨ s.op = opDecompress)
    (hk : s.work.k ≠ 0) (hn : s.work.n = 0) (hpq : s.work.pq = []) (htable : s.work.table = .ok leaves)
    (hbuild : buildTree leaves = (arena, [root])) : exec .treeBuild s = .next (s.advance
      { s.work with node := arena, n := arena.length, pq := [root], root := root } phaseCbDerive) := by
  show execTreeBuild s = _
  rw [execTreeBuild, underOp_of_mem (by simpa [Instr.opValues] using hop)]
  simp [hk, hn, hpq, htable, hbuild]

/-- Settles O25: the forest at the end of the loop is the tree, and the phase puts it in the working state. -/
theorem treeBuildMakesTheHuffmanArena : Obligations.TreeBuildMakesTheHuffmanArena := by
  intro s leaves hop hk hn hpq htable
  have hlen : leaves.length = s.work.k := Work.table_length htable
  obtain ⟨arena, hbuild, h⟩ := buildTree_forest (List.ne_nil_of_length_pos (hlen ▸ hk))
  have hsize : arena.length + 1 = 2 * leaves.length := h.size
  rw [hlen] at hbuild h hsize
  have hexec := exec_treeBuild_of_buildTree hop (Nat.ne_zero_of_lt hk) hn hpq htable hbuild
  obtain ⟨hcont, hframe⟩ := execTreeBuild_next hexec
  exact ⟨_, hexec, Nat.eq_sub_of_add_eq hsize, rfl, rfl, rfl, fun _ _ => h.getElem?_leaf,
    fun i hi => h.merged i (hlen ▸ hi), h.children_perm (by omega), h.weightAt_root, rfl,
    hcont.keepsHostSide, hframe⟩

end Sys2Proof.Machine
end

section
/-! PROOFS. The codebook (R150 to R156): the paths of a tree to its leaves, what CB_DERIVE makes of them, and
the code table of every frequency table. -/
namespace Sys2Proof.Machine

/-! ### The paths from a node to the leaves below it (R150, R151) -/

/-- Every path of a list, with the path `p` to its start put in front. -/
def under (p : Bits) (paths : List (Byte × Bits)) : List (Byte × Bits) := paths.map fun a => (a.1, p ++ a.2)

/-- The leaves below a node of the arena, left to right, each symbol with the path to its leaf: "0" to the left
child, "1" to the right (R151). Children stand before their parent, as R134 allocates them; `visit_of_leafPaths`
says that this is what `visit` computes. -/
inductive LeafPaths (arena : List Node) : Nat → List (Byte × Bits) → Prop
  | leaf {n : Nat} {sym : Byte} {w : Nat} : arena[n]? = some (.leaf sym w) → LeafPaths arena n [(sym, [])]
  | internal {n w l r : Nat} {left right : List (Byte × Bits)} : arena[n]? = some (.internal w l r) →
      l < n → r < n → LeafPaths arena l left → LeafPaths arena r right →
      LeafPaths arena n (under [false] left ++ under [true] right)

theorem under_nil (paths : List (Byte × Bits)) : under [] paths = paths := List.map_id _

@[simp] theorem under_append (p : Bits) (a b : List (Byte × Bits)) : under p (a ++ b) = under p a ++ under p b :=
  List.map_append

@[simp] theorem under_under (p q : Bits) (paths : List (Byte × Bits)) :
    under p (under q paths) = under (p ++ q) paths := by
  simp [under]

@[simp] theorem under_length (p : Bits) (paths : List (Byte × Bits)) : (under p paths).length = paths.length :=
  List.length_map ..

@[simp] theorem map_fst_under (p : Bits) (paths : List (Byte × Bits)) :
    (under p paths).map Prod.fst = paths.map Prod.fst := by
  simp [under]

theorem mem_under {p : Bits} {paths : List (Byte × Bits)} {a : Byte × Bits} :
    a ∈ under p paths ↔ ∃ q, (a.1, q) ∈ paths ∧ a.2 = p ++ q := by
  obtain ⟨sym, code⟩ := a
  simp [under, eq_comm]

/-- A path below an internal node starts with the bit of its side. -/
theorem mem_branches {left right : List (Byte × Bits)} {a : Byte × Bits} :
    a ∈ under [false] left ++ under [true] right ↔
      ∃ side q, (a.1, q) ∈ (bif side then right else left) ∧ a.2 = side :: q := by
  simp [mem_under]

section LeafPaths

variable {arena : List Node} {n : Nat} {paths : List (Byte × Bits)}

/-- `visit` lists the paths to the leaves, when it may go as deep as there are nodes up to `n`. -/
theorem visit_of_leafPaths (h : LeafPaths arena n paths) {fuel : Nat} (hfuel : n < fuel) (p : Bits) :
    visit arena fuel n p = .ok (under p paths) := by
  induction h generalizing fuel p with
  | leaf hn =>
    obtain ⟨fuel, rfl⟩ := Nat.exists_eq_succ_of_ne_zero (Nat.ne_zero_of_lt hfuel)
    simp [visit, hn, under]
  | internal hn hl hr _ _ ihl ihr =>
    obtain ⟨fuel, rfl⟩ := Nat.exists_eq_succ_of_ne_zero (Nat.ne_zero_of_lt hfuel)
    simp [visit, hn, ihl (fuel := fuel) (by omega), ihr (fuel := fuel) (by omega)]

theorem LeafPaths.unique (h : LeafPaths arena n paths) {paths' : List (Byte × Bits)}
    (h' : LeafPaths arena n paths') : paths = paths' := by
  have heq := (visit_of_leafPaths h n.lt_succ_self []).symm.trans (visit_of_leafPaths h' n.lt_succ_self [])
  simpa only [under_nil, Except.ok.injEq] using heq

theorem LeafPaths.length_pos (h : LeafPaths arena n paths) : 1 ≤ paths.length := by
  induction h with
  | leaf => exact le_rfl
  | internal _ _ _ _ _ ihl _ =>
    simp only [List.length_append, under_length]
    omega

/-- Each path leads to a leaf of its symbol (R151). -/
theorem LeafPaths.follow_mem (h : LeafPaths arena n paths) {a : Byte × Bits} (ha : a ∈ paths) :
    ∃ m w, follow arena n a.2 = some m ∧ arena[m]? = some (.leaf a.1 w) := by
  induction h generalizing a with
  | leaf hn =>
    obtain rfl := List.mem_singleton.1 ha
    exact ⟨_, _, rfl, hn⟩
  | internal hn _ _ _ _ ihl ihr =>
    obtain ⟨side, q, hq, hcode⟩ := mem_branches.1 ha
    simp only [hcode, follow, hn]
    cases side with
    | false => exact ihl hq
    | true => exact ihr hq

/-- Two paths of which the first starts the second are the same entry (R155): they take the same side at every
internal node, and a path ends at a leaf. -/
theorem LeafPaths.eq_of_prefix (h : LeafPaths arena n paths) {a b : Byte × Bits} (ha : a ∈ paths)
    (hb : b ∈ paths) (hab : a.2 <+: b.2) : a = b := by
  induction h generalizing a b with
  | leaf => rw [List.mem_singleton.1 ha, List.mem_singleton.1 hb]
  | internal _ _ _ _ _ ihl ihr =>
    obtain ⟨side, p, hp, hcodea⟩ := mem_branches.1 ha
    obtain ⟨side', q, hq, hcodeb⟩ := mem_branches.1 hb
    rw [hcodea, hcodeb] at hab
    obtain ⟨rfl, hpq⟩ := List.cons_prefix_cons.1 hab
    have hsub : (a.1, p) = (b.1, q) := by
      cases side with
      | false => exact ihl hp hq hpq
      | true => exact ihr hp hq hpq
    obtain ⟨hsym, rfl⟩ := Prod.mk.inj hsub
    exact Prod.ext hsym (hcodea.trans hcodeb.symm)

/-- A path is shorter than the number of leaves: every step leaves one leaf at least on the other side (R156). -/
theorem LeafPaths.length_lt (h : LeafPaths arena n paths) {a : Byte × Bits} (ha : a ∈ paths) :
    a.2.length < paths.length := by
  induction h generalizing a with
  | leaf =>
    obtain rfl := List.mem_singleton.1 ha
    exact Nat.one_pos
  | internal _ _ _ hleft hright ihl ihr =>
    have hposl := hleft.length_pos
    have hposr := hright.length_pos
    obtain ⟨side, q, hq, hcode⟩ := mem_branches.1 ha
    rw [hcode, List.length_append, under_length, under_length, List.length_cons]
    cases side with
    | false =>
      have hlt : q.length < _ := ihl hq
      omega
    | true =>
      have hlt : q.length < _ := ihr hq
      omega

/-- Some path is long (R156): below an internal node, the longer of a long path on the left and one on the right. -/
theorem LeafPaths.exists_length_le_two_pow (h : LeafPaths arena n paths) :
    ∃ a ∈ paths, paths.length ≤ 2 ^ a.2.length := by
  induction h with
  | leaf => exact ⟨_, List.mem_singleton_self _, le_rfl⟩
  | @internal _ _ _ _ left right _ _ _ _ _ ihl ihr =>
    obtain ⟨⟨s, p⟩, hp, hleft⟩ := ihl
    obtain ⟨⟨t, q⟩, hq, hright⟩ := ihr
    obtain ⟨side, u, c, hc, hleft, hright⟩ : ∃ side u c, (u, c) ∈ (bif side then right else left) ∧
        left.length ≤ 2 ^ c.length ∧ right.length ≤ 2 ^ c.length := by
      obtain hpq | hqp := le_total p.length q.length
      · exact ⟨true, t, q, hq, hleft.trans (Nat.pow_le_pow_right two_pos hpq), hright⟩
      · exact ⟨false, s, p, hp, hleft, hright.trans (Nat.pow_le_pow_right two_pos hqp)⟩
    refine ⟨(u, side :: c), mem_branches.2 ⟨side, c, hc, rfl⟩, ?_⟩
    simp only [List.length_append, under_length, List.length_cons, Nat.pow_succ]
    omega

theorem LeafPaths.exists_internal (h : LeafPaths arena n paths) (hlen : 2 ≤ paths.length) :
    ∃ w l r, arena[n]? = some (.internal w l r) := by
  cases h with
  | leaf => simp at hlen
  | internal hn => exact ⟨_, _, _, hn⟩

/-- Only the path of a single leaf is empty. -/
theorem LeafPaths.ne_nil (h : LeafPaths arena n paths) (hlen : 2 ≤ paths.length) {a : Byte × Bits}
    (ha : a ∈ paths) : a.2 ≠ [] := by
  cases h with
  | leaf => simp at hlen
  | internal =>
    obtain ⟨side, q, -, hcode⟩ := mem_branches.1 ha
    rw [hcode]
    exact List.cons_ne_nil side q

end LeafPaths

/-! ### The leaves of the tree of a table (R131, R139) -/

/-- The symbol of a leaf; an internal node has none (R31). -/
def Node.symbols : Node → List Byte
  | .leaf sym _ => [sym]
  | .internal _ _ _ => []

/-- The symbols below a node are its own and those below its children. -/
theorem LeafPaths.symbols_eq {arena : List Node} {n : Nat} {paths : List (Byte × Bits)} (h : LeafPaths arena n paths)
    {nd : Node} (hn : arena[n]? = some nd) {below : Nat → List (Byte × Bits)}
    (hbelow : ∀ m < n, LeafPaths arena m (below m)) :
    paths.map Prod.fst = nd.symbols ++ nd.children.flatMap fun m => (below m).map Prod.fst := by
  cases h with
  | leaf hn' =>
    cases hn.symm.trans hn'
    rfl
  | internal hn' hl hr hleft hright =>
    cases hn.symm.trans hn'
    rw [hleft.unique (hbelow _ hl), hright.unique (hbelow _ hr)]
    simp [Node.symbols, Node.children]

section Forest

variable {leaves : List (Byte × Nat)} {arena : List Node} {pq : List Nat}

/-- Of the nodes of a forest exactly the first ones are leaves, those of the table. -/
theorem Forest.exists_append (h : Forest leaves arena pq) :
    ∃ merges, arena = leafNodes leaves ++ merges ∧ ∀ nd ∈ merges, ∃ w l r, nd = .internal w l r := by
  obtain ⟨merges, rfl⟩ := h.leaf
  refine ⟨merges, rfl, fun nd hnd => ?_⟩
  obtain ⟨i, hi, rfl⟩ := List.getElem_of_mem hnd
  obtain ⟨w, l, r, hnode, -⟩ := h.merged (leaves.length + i) (Nat.le_add_right ..) (by simp [leafNodes_length, hi])
  rw [List.getElem?_append_right (by simp [leafNodes_length]), leafNodes_length, Nat.add_sub_cancel_left,
    List.getElem?_eq_getElem hi, Option.some.injEq] at hnode
  exact ⟨w, l, r, hnode⟩

theorem Forest.mem_of_leaf (h : Forest leaves arena pq) {n : Nat} {sym : Byte} {w : Nat}
    (hn : arena[n]? = some (.leaf sym w)) : (sym, w) ∈ leaves := by
  obtain ⟨merges, rfl, hmerges⟩ := h.exists_append
  obtain hmem | hmem := List.mem_append.1 (List.mem_of_getElem? hn)
  · obtain ⟨p, hp, heq⟩ := List.mem_map.1 hmem
    cases heq
    exact hp
  · obtain ⟨_, _, _, heq⟩ := hmerges _ hmem
    cases heq

theorem Forest.flatMap_symbols (h : Forest leaves arena pq) :
    arena.flatMap Node.symbols = leaves.map Prod.fst := by
  obtain ⟨merges, rfl, hmerges⟩ := h.exists_append
  have hleaves : (leafNodes leaves).flatMap Node.symbols = leaves.map Prod.fst := by
    rw [leafNodes, List.flatMap_map, List.map_eq_flatMap]
    rfl
  have hnone : merges.flatMap Node.symbols = [] := by
    refine List.flatMap_eq_nil_iff.2 fun nd hnd => ?_
    obtain ⟨_, _, _, rfl⟩ := hmerges nd hnd
    rfl
  rw [List.flatMap_append, hleaves, hnone, List.append_nil]

theorem Forest.exists_leafPaths (h : Forest leaves arena pq) {n : Nat} (hn : n < arena.length) :
    ∃ paths, LeafPaths arena n paths := by
  induction n using Nat.strong_induction_on with
  | _ n ih =>
    by_cases hleaf : n < leaves.length
    · exact ⟨_, .leaf (h.getElem?_leaf (List.getElem?_eq_getElem hleaf))⟩
    · obtain ⟨w, l, r, hnode, hl, hr, -⟩ := h.merged n (Nat.le_of_not_lt hleaf) hn
      obtain ⟨left, hleft⟩ := ih l hl (hl.trans hn)
      obtain ⟨right, hright⟩ := ih r hr (hr.trans hn)
      exact ⟨_, .internal hnode hl hr hleft hright⟩

/-- The root has the symbols of the table, whatever gives each node its own symbols and those of its children: in
the sum over all nodes, every node but the root is a child once, and all but the root's share cancels. -/
theorem Forest.perm_of_symbols_eq {root : Nat} (h : Forest leaves arena [root]) (hlen : arena.length = root + 1)
    {below : Nat → List Byte} (hbelow : ∀ n nd, arena[n]? = some nd →
      below n = nd.symbols ++ nd.children.flatMap below) : (below root).Perm (leaves.map Prod.fst) := by
  have hsum : (List.range arena.length).flatMap below =
      arena.flatMap fun nd => nd.symbols ++ nd.children.flatMap below := by
    refine congrArg List.flatten (List.ext_getElem (by simp) fun i hi _ => ?_)
    have hi : i < arena.length := by simpa using hi
    simpa using hbelow i _ (List.getElem?_eq_getElem hi)
  rw [hlen, List.range_succ, List.flatMap_append, List.flatMap_singleton] at hsum
  have hchildren : (arena.flatMap fun nd => nd.children.flatMap below).Perm ((List.range root).flatMap below) := by
    rw [← List.flatMap_assoc]
    exact (h.children_perm hlen).flatMap_right below
  have hsplit := (List.flatMap_append_perm arena Node.symbols fun nd => nd.children.flatMap below).symm
  rw [← hsum, h.flatMap_symbols] at hsplit
  exact (List.perm_append_left_iff _).1 (hsplit.trans ((hchildren.append_left _).trans List.perm_append_comm))

/-- The paths of a tree lead to the symbols of its table. -/
theorem Forest.symbols_perm {root : Nat} (h : Forest leaves arena [root]) (hlen : arena.length = root + 1)
    {paths : List (Byte × Bits)} (hpaths : LeafPaths arena root paths) :
    (paths.map Prod.fst).Perm (leaves.map Prod.fst) := by
  have hall : ∀ n, ∃ paths, n < arena.length → LeafPaths arena n paths := fun n =>
    if hn : n < arena.length then (h.exists_leafPaths hn).imp fun _ hp _ => hp else ⟨[], fun hlt => absurd hlt hn⟩
  choose below hbelow using hall
  rw [hpaths.unique (hbelow root (by omega))]
  refine h.perm_of_symbols_eq hlen (below := fun n => (below n).map Prod.fst) fun n nd hn => ?_
  obtain ⟨hlt, -⟩ := List.getElem?_eq_some_iff.1 hn
  exact (hbelow n hlt).symbols_eq hn fun m hm => hbelow m (hm.trans hlt)

end Forest

/-! ### The codes of the tree of a table (R150, R152) -/

/-- What `deriveCodes` makes of the tree of a table: each symbol's path, or "0" for a single symbol. -/
structure TreeCodes (leaves : List (Byte × Nat)) (arena : List Node) (root : Nat) (codes : List (Byte × Bits)) :
    Prop where
  symbols : (codes.map Prod.fst).Perm (leaves.map Prod.fst)
  single : leaves.length = 1 → ∀ a ∈ codes, a.2 = [false]
  paths : 2 ≤ leaves.length → LeafPaths arena root codes

theorem buildTree_treeCodes {leaves : List (Byte × Nat)} (hne : leaves ≠ []) : ∃ arena root codes,
    buildTree leaves = (arena, [root]) ∧ Forest leaves arena [root] ∧ deriveCodes arena root = .ok codes ∧
      TreeCodes leaves arena root codes := by
  obtain ⟨arena, hbuild, h⟩ := buildTree_forest hne
  have hpos : 1 ≤ leaves.length := List.length_pos_iff.2 hne
  have hsize : arena.length + 1 = 2 * leaves.length := h.size
  obtain ⟨paths, hpaths⟩ := h.exists_leafPaths (n := 2 * leaves.length - 2) (by omega)
  have hsymbols := h.symbols_perm (by omega) hpaths
  have hlen : paths.length = leaves.length := by simpa using hsymbols.length_eq
  obtain hone | htwo := hpos.eq_or_lt
  · cases hpaths with
    | @leaf _ sym _ hn =>
      exact ⟨arena, _, [(sym, [false])], hbuild, h, by rw [deriveCodes, hn], hsymbols, by simp, by omega⟩
    | internal _ _ _ hleft hright =>
      have hposl := hleft.length_pos
      have hposr := hright.length_pos
      simp only [List.length_append, under_length] at hlen
      omega
  · obtain ⟨w, l, r, hn⟩ := hpaths.exists_internal (by omega)
    refine ⟨arena, _, paths, hbuild, h, ?_, hsymbols, by omega, fun _ => hpaths⟩
    simp only [deriveCodes, hn, visit_of_leafPaths hpaths (show _ < arena.length by omega), under_nil]

theorem codesOf_nil : codesOf [] = [] := rfl

theorem treeCodes_codesOf {table : List (Byte × Nat)} (hne : table ≠ []) :
    ∃ arena root, TreeCodes table arena root (codesOf table) := by
  obtain ⟨arena, root, codes, hbuild, -, hderive, hcodes⟩ := buildTree_treeCodes hne
  have heq : codesOf table = codes := by simp only [codesOf, hbuild, hderive]
  exact ⟨arena, root, heq ▸ hcodes⟩

theorem codesOf_singleton (p : Byte × Nat) : codesOf [p] = [(p.1, [false])] := rfl

/-- Settles O27: one symbol leaves no pair; of two or more, the codes are the paths to different leaves. -/
theorem codesArePrefixFree : Obligations.CodesArePrefixFree := by
  intro table a b ha hb hne hprefix
  match table with
  | [] => cases ha
  | [p] =>
    rw [codesOf_singleton, List.mem_singleton] at ha hb
    exact hne (by rw [ha, hb])
  | p :: q :: rest =>
    obtain ⟨arena, root, hcodes⟩ := treeCodes_codesOf (List.cons_ne_nil p (q :: rest))
    exact hne (congrArg Prod.fst ((hcodes.paths (by simp)).eq_of_prefix ha hb hprefix))

/-- Settles O28: a code is the path to one of `K` leaves of a tree, and some path is long. -/
theorem codeLengthsAreBounded : Obligations.CodeLengthsAreBounded := by
  intro table _
  refine ⟨?_, fun p hp => hp ▸ codesOf_singleton p, fun htwo => ?_⟩
  · by_cases hne : table = []
    · rw [hne]
      exact .nil
    · obtain ⟨_, _, hcodes⟩ := treeCodes_codesOf hne
      exact hcodes.symbols
  · obtain ⟨_, _, hcodes⟩ := treeCodes_codesOf (List.ne_nil_of_length_pos (Nat.zero_lt_of_lt htwo))
    have hlen : (codesOf table).length = table.length := by simpa using hcodes.symbols.length_eq
    have hpaths := hcodes.paths htwo
    rw [← hlen] at htwo ⊢
    exact ⟨fun a ha => ⟨List.length_pos_iff.2 (hpaths.ne_nil htwo ha),
      Nat.le_sub_one_of_lt (hpaths.length_lt ha)⟩, hpaths.exists_length_le_two_pow⟩

/-! ### The phase (R150, R154) -/

theorem Work.foldl_assign_codeValid (codes : List (Byte × Bits)) (w : Work) (b : Byte) :
    SymTable.at (codes.foldl Work.assign w).codeValid b = true ↔
      SymTable.at w.codeValid b = true ∨ b ∈ codes.map Prod.fst := by
  induction codes generalizing w with
  | nil => simp
  | cons a rest ih =>
    rw [List.foldl_cons, ih]
    by_cases hb : a.1 = b
    · simp [hb]
    · simp [hb, Ne.symm hb]

/-- The loop leaves the entries of the symbols it does not come to. -/
theorem Work.foldl_assign_of_not_mem {codes : List (Byte × Bits)} (w : Work) {b : Byte}
    (hb : b ∉ codes.map Prod.fst) :
    SymTable.at (codes.foldl Work.assign w).code b = SymTable.at w.code b ∧
      SymTable.at (codes.foldl Work.assign w).codeLen b = SymTable.at w.codeLen b := by
  induction codes generalizing w with
  | nil => exact ⟨rfl, rfl⟩
  | cons a rest ih =>
    obtain ⟨hne, hrest⟩ : b ≠ a.1 ∧ b ∉ rest.map Prod.fst := by simpa using hb
    obtain ⟨hcode, hlen⟩ := ih (w.assign a) hrest
    exact ⟨hcode.trans (by simp [hne.symm]), hlen.trans (by simp [hne.symm])⟩

/-- After the loop each symbol has its code and the code's length: no later assignment is to the same symbol. -/
theorem Work.foldl_assign_of_mem {codes : List (Byte × Bits)} (hnd : (codes.map Prod.fst).Nodup) (w : Work)
    {a : Byte × Bits} (ha : a ∈ codes) :
    SymTable.at (codes.foldl Work.assign w).code a.1 = a.2 ∧
      SymTable.at (codes.foldl Work.assign w).codeLen a.1 = a.2.length := by
  induction codes generalizing w with
  | nil => cases ha
  | cons c rest ih =>
    obtain ⟨hc, hnd⟩ := List.nodup_cons.1 hnd
    rw [List.foldl_cons]
    obtain rfl | ha := List.mem_cons.1 ha
    · obtain ⟨hcode, hlen⟩ := Work.foldl_assign_of_not_mem (w.assign a) hc
      exact ⟨hcode.trans (by simp), hlen.trans (by simp)⟩
    · exact ih hnd (w.assign c) ha

theorem exec_cbDerive_of_deriveCodes {s : State} {codes : List (Byte × Bits)}
    (hop : s.op = opCompress ∨ s.op = opDecompress)
    (h : deriveCodes s.work.arena s.work.root = .ok codes) : exec .cbDerive s = .next (s.advance
      (codes.foldl Work.assign s.work) (if s.op = opCompress then phaseEncMap else phaseLenCheck)) := by
  show execCbDerive s = _
  rw [execCbDerive, underOp_of_mem (by simpa [Instr.opValues] using hop), h]

/-- Settles O26: the loop assigns the codes of the tree, one to each symbol of the table. -/
theorem codebookAssignsEveryLeafItsPath : Obligations.CodebookAssignsEveryLeafItsPath := by
  intro s leaves root hop hnd hne hbuild hroot hvalid
  obtain ⟨arena, root', codes, hbuild', hforest, hderive, hcodes⟩ := buildTree_treeCodes hne
  obtain ⟨harena, hroots⟩ := Prod.mk.inj (hbuild'.symm.trans hbuild)
  obtain rfl : root' = root := List.singleton_inj.1 hroots
  rw [harena, ← hroot] at hderive
  have hexec := exec_cbDerive_of_deriveCodes hop hderive
  obtain ⟨hcont, hframe⟩ := execCbDerive_next hexec
  have hndc : (codes.map Prod.fst).Nodup := hcodes.symbols.nodup_iff.2 hnd
  have hassigned : ∀ b ∈ leaves.map Prod.fst, ∃ a ∈ codes, a.1 = b := fun b hb =>
    List.mem_map.1 (hcodes.symbols.mem_iff.2 hb)
  refine ⟨_, hexec, fun b => ?_, fun b hb => ?_, fun hone b hb => ?_, fun htwo p hp => ?_, fun hc => ?_,
    fun hd => ?_, hcont.keepsHostSide, hframe⟩
  · simp only [State.advance_work, Work.foldl_assign_codeValid, hvalid, Bool.false_eq_true, false_or]
    exact hcodes.symbols.mem_iff
  · obtain ⟨a, ha, rfl⟩ := hassigned b hb
    obtain ⟨hcode, hlen⟩ := Work.foldl_assign_of_mem hndc s.work ha
    exact hlen.trans (congrArg List.length hcode.symm)
  · obtain ⟨a, ha, rfl⟩ := hassigned b hb
    exact (Work.foldl_assign_of_mem hndc s.work ha).1.trans (hcodes.single hone a ha)
  · obtain ⟨a, ha, hsym⟩ := hassigned p.1 (List.mem_map_of_mem hp)
    obtain ⟨m, w, hfollow, hleaf⟩ := (hcodes.paths htwo).follow_mem ha
    have hcode := (Work.foldl_assign_of_mem hndc s.work ha).1
    obtain rfl : (a.1, w) = p := List.inj_on_of_nodup_map hnd (hforest.mem_of_leaf hleaf) hp hsym
    rw [← harena]
    exact ⟨m, by rwa [State.advance_work, hcode], hleaf⟩
  · simp [hc]
  · simp [hd, opCompress, opDecompress]

end Sys2Proof.Machine
end

section
/-! PROOFS. The bit packer and the bit unpacker (R165 to R172): bytes and bits in R65's order are each other's
inverses, the phases BP_PACK and BP_UNPACK, and the packer that streams. -/
namespace Sys2Proof.Machine

/-! ### One byte (R65) -/

@[simp] theorem byteBits_length (b : Byte) : (byteBits b).length = 8 := rfl

theorem getElem?_byteBits (b : Byte) {i : Nat} (hi : i < 8) : (byteBits b)[i]? = some (b.getLsbD (7 - i)) := by
  interval_cases i <;> rfl

theorem byteBits_injective {a b : Byte} (h : byteBits a = byteBits b) : a = b := by
  refine BitVec.eq_of_getLsbD_eq fun i hi => Option.some_injective _ ?_
  have hbit : 7 - (7 - i) = i := by omega
  rw [← hbit, ← getElem?_byteBits a (by omega), h, getElem?_byteBits b (by omega)]

theorem byteBits_bitsByte : ∀ b0 b1 b2 b3 b4 b5 b6 b7 : Bool,
    byteBits (bitsByte [b0, b1, b2, b3, b4, b5, b6, b7]) = [b0, b1, b2, b3, b4, b5, b6, b7] := by
  decide

theorem bitsByte_byteBits (b : Byte) : bitsByte (byteBits b) = b :=
  byteBits_injective (byteBits_bitsByte ..)

/-! ### Byte sequences (R165, R170) -/

theorem bytesBits_cons (b : Byte) (x : List Byte) : bytesBits (b :: x) = byteBits b ++ bytesBits x := rfl

theorem bytesBits_concat (x : List Byte) (b : Byte) : bytesBits (x ++ [b]) = bytesBits x ++ byteBits b := by
  simp [bytesBits]

@[simp] theorem bytesBits_length (x : List Byte) : (bytesBits x).length = 8 * x.length := by
  induction x with
  | nil => rfl
  | cons b x ih =>
    rw [bytesBits_cons, List.length_append, byteBits_length, ih, List.length_cons]
    omega

/-- Bit `i` of a byte sequence is bit `7 − (i mod 8)` of its byte `i div 8`. -/
theorem getElem?_bytesBits {x : List Byte} {i : Nat} {b : Byte} (h : x[i / 8]? = some b) :
    (bytesBits x)[i]? = some (b.getLsbD (7 - i % 8)) := by
  induction x generalizing i with
  | nil => cases h
  | cons c x ih =>
    rw [bytesBits_cons]
    by_cases hi : i < 8
    · rw [Nat.div_eq_of_lt hi] at h
      obtain rfl : c = b := Option.some_injective _ h
      rw [List.getElem?_append_left (by simpa using hi), getElem?_byteBits c hi, Nat.mod_eq_of_lt hi]
    · obtain ⟨j, rfl⟩ := Nat.exists_eq_add_of_le' (Nat.le_of_not_lt hi)
      rw [Nat.add_div_right j (by decide)] at h
      rw [List.getElem?_append_right (by simp), byteBits_length, Nat.add_sub_cancel, ih h, Nat.add_mod_right]

theorem packBytes_bytesBits (x : List Byte) : packBytes (bytesBits x) = x := by
  induction x with
  | nil => rfl
  | cons b x ih =>
    show bitsByte (byteBits b) :: packBytes (bytesBits x) = b :: x
    rw [bitsByte_byteBits, ih]

theorem bytesBits_packBytes {bs : Bits} (h : 8 ∣ bs.length) : bytesBits (packBytes bs) = bs := by
  induction bs using packBytes.induct with
  | case1 b0 b1 b2 b3 b4 b5 b6 b7 rest ih =>
    have hrest : 8 ∣ rest.length := (Nat.dvd_add_left (Nat.dvd_refl 8)).1 h
    rw [packBytes, bytesBits_cons, byteBits_bitsByte, ih hrest]
    rfl
  | case2 bs hshort =>
    have hlen : bs.length < 8 := by
      by_contra hlong
      exact hshort bs[0] bs[1] bs[2] bs[3] bs[4] bs[5] bs[6] bs[7] (bs.drop 8) (by simp [List.getElem_zero])
    rw [List.eq_nil_of_length_eq_zero (Nat.eq_zero_of_dvd_of_lt h hlen)]
    rfl

/-! ### Padding to whole bytes (R165, R166, R172) -/

theorem padOf_lt (t : Nat) : padOf t < 8 := Nat.mod_lt _ (by decide)

theorem dvd_add_padOf (t : Nat) : 8 ∣ t + padOf t := by
  unfold padOf
  omega

/-- The pad length is the only number of bits below 8 that fills up whole bytes. -/
theorem eq_padOf {t p n : Nat} (hp : p < 8) (h : 8 * n = t + p) : p = padOf t := by
  unfold padOf
  omega

theorem bytesBits_pack (bs : Bits) : bytesBits (pack bs) = bs ++ List.replicate (padOf bs.length) false :=
  bytesBits_packBytes (by simpa using dvd_add_padOf bs.length)

theorem pack_length (bs : Bits) : 8 * (pack bs).length = bs.length + padOf bs.length := by
  simpa using congrArg List.length (bytesBits_pack bs)

/-- The packer is the only way to write a bit-string in whole bytes with fewer than 8 zero bits after it. -/
theorem eq_pack_of_bytesBits {x : List Byte} {bs : Bits} {p : Nat} (hp : p < 8)
    (h : bytesBits x = bs ++ List.replicate p false) : x = pack bs ∧ p = padOf bs.length := by
  obtain rfl : p = padOf bs.length := eq_padOf hp (n := x.length) (by simpa using congrArg List.length h)
  exact ⟨by rw [pack, ← h, packBytes_bytesBits], rfl⟩

/-- Settles O34: the pad bits are the ones `unpack` drops. -/
theorem unpackInvertsPack : Obligations.UnpackInvertsPack := by
  intro b
  have hlen := pack_length b
  have hpad := padOf_lt b.length
  refine unpack_some_iff.2 ⟨by omega, by omega, ?_⟩
  rw [hlen, Nat.add_sub_cancel, bytesBits_pack, List.take_left]

/-! ### The phases -/

/-- BP_PACK under its precondition (R165, R184). -/
theorem exec_bpPack_of_bitCount {s : State} (hop : s.op = opCompress) (hbits : s.work.bits.length = s.work.t) :
    ∃ t, exec .bpPack s = .next t ∧ t.phase = phaseFrameEmit ∧ t.work.pad = padOf s.work.bits.length ∧
      t.work.payload = pack s.work.bits := by
  show ∃ t, execBpPack s = .next t ∧ _
  rw [execBpPack, underOp_of_mem (by simp [Instr.opValues, hop]), if_neg (not_not.2 hbits), hbits]
  exact ⟨_, rfl, rfl, rfl, rfl⟩

/-- Settles O32: the bits of the payload are the padded bit-string. -/
theorem packerPadsToWholeBytes : Obligations.PackerPadsToWholeBytes := by
  intro s hop hbits
  obtain ⟨t, hexec, hphase, hpad, hpayload⟩ := exec_bpPack_of_bitCount hop hbits
  obtain ⟨hcont, hframe⟩ := execBpPack_next hexec
  refine ⟨t, hexec, hpad ▸ padOf_lt _, ?_, fun i b hb => ?_, hphase, hcont.keepsHostSide, hframe⟩
  · rw [hpayload, hpad, pack_length, hbits]
  · rw [hpayload] at hb
    rw [hpad, ← bytesBits_pack]
    exact getElem?_bytesBits hb

/-- BP_UNPACK of a payload inside the input, where `unpack` is defined (R170, R202). -/
theorem exec_bpUnpack_of_unpack {s : State} {bs : Bits} (hop : s.op = opDecompress)
    (hinput : s.work.payOff + s.work.payLen ≤ s.inLen.toNat)
    (hcap : s.work.payOff + s.work.payLen ≤ s.params.ibufCap.val)
    (hunpack : unpack (s.ibufBytes s.work.payOff s.work.payLen) s.work.padf = some bs) :
    ∃ t, exec .bpUnpack s = .next t ∧ t.phase = phaseDecWalk ∧ t.work.bits = bs := by
  show ∃ t, execBpUnpack s = .next t ∧ _
  rw [execBpUnpack, underOp_of_mem (by simp [Instr.opValues, hop]),
    State.memRead_ok_iff.2 ⟨hinput, hcap, rfl⟩]
  simp only [hunpack]
  exact ⟨_, rfl, rfl, rfl⟩

theorem State.getElem?_ibufBytes (s : State) (a : Nat) {n i : Nat} (hi : i < n) :
    (s.ibufBytes a n)[i]? = some (s.ibufByte (a + i)) := by
  simp [State.ibufBytes, hi]

/-- Settles O41: the bits before the last `PADF` are those of the payload's bytes. -/
theorem unpackerDropsThePadBits : Obligations.UnpackerDropsThePadBits := by
  intro s hop hpad hbits hinput hcap
  have hunpack : unpack (s.ibufBytes s.work.payOff s.work.payLen) s.work.padf = some
      ((bytesBits (s.ibufBytes s.work.payOff s.work.payLen)).take (8 * s.work.payLen - s.work.padf)) :=
    unpack_some_iff.2 (by simpa using ⟨hpad, hbits⟩)
  obtain ⟨t, hexec, hphase, htbits⟩ := exec_bpUnpack_of_unpack hop hinput hcap hunpack
  obtain ⟨hcont, hframe⟩ := execBpUnpack_next hexec
  refine ⟨t, hexec, by simp [htbits], fun i hi => ?_, hphase, hcont.keepsHostSide, hframe⟩
  rw [htbits, List.getElem?_take_of_lt hi]
  exact getElem?_bytesBits (State.getElem?_ibufBytes s _ (by omega))

/-! ### The packer that streams (R167) -/

/-- A shift from the right drops bit 7 and appends the new bit. -/
theorem byteBits_shiftIn (acc : Byte) (b : Bool) :
    byteBits ((acc <<< 1) ||| (BitVec.ofBool b).setWidth 8) = (byteBits acc).drop 1 ++ [b] := by
  cases b <;> simp [byteBits]

/-- The shift that fills up the last byte drops the bits that were emitted before and appends zeros. -/
theorem byteBits_shiftLeft (acc : Byte) {n : Nat} (hn : n ≤ 8) :
    byteBits (acc <<< n) = (byteBits acc).drop n ++ List.replicate n false := by
  interval_cases n <;> simp [byteBits]

/-- The loop's invariant: the bytes emitted and the last `BITCNT` bits of `BITACC` are the bits read. -/
structure Streams (bs : Bits) (st : List Byte × Byte × Nat) : Prop where
  count : st.2.2 < 8
  bits : bytesBits st.1 ++ (byteBits st.2.1).drop (8 - st.2.2) = bs

theorem Streams.shiftIn {bs : Bits} {st : List Byte × Byte × Nat} (h : Streams bs st) (b : Bool) :
    Streams (bs ++ [b]) (packBit st b) := by
  obtain ⟨out, acc, cnt⟩ := st
  obtain ⟨hcnt, hbits⟩ := h
  unfold packBit
  split
  · next hlast =>
    obtain rfl : cnt = 7 := hlast
    refine ⟨Nat.zero_lt_succ 7, ?_⟩
    rw [bytesBits_concat, byteBits_shiftIn, ← hbits]
    simp [byteBits]
  · next hlast =>
    have hlt : cnt < 7 := Nat.lt_of_le_of_ne (Nat.le_of_lt_succ hcnt) hlast
    have hkept : 1 + (8 - (cnt + 1)) = 8 - cnt := by omega
    refine ⟨Nat.succ_lt_succ hlt, ?_⟩
    rw [byteBits_shiftIn, List.drop_append_of_le_length (by simp), List.drop_drop, hkept,
      ← List.append_assoc, hbits]

theorem Streams.foldl_shiftIn {bs : Bits} {st : List Byte × Byte × Nat} (h : Streams bs st) (more : Bits) :
    Streams (bs ++ more) (more.foldl packBit st) := by
  induction more generalizing bs st with
  | nil => simpa using h
  | cons b more ih => simpa using ih (h.shiftIn b)

/-- Settles O33: the bytes streamed write the bit-string with fewer than 8 zero bits after it, as `pack` does. -/
theorem streamingPackerEqualsPack : Obligations.StreamingPackerEqualsPack := by
  intro bs
  have hstart : Streams [] ([], 0#8, 0) := ⟨by decide, rfl⟩
  obtain ⟨hcnt, hbits⟩ := hstart.foldl_shiftIn bs
  rw [List.nil_append] at hbits
  unfold packStream
  generalize bs.foldl packBit ([], 0#8, 0) = st at hcnt hbits ⊢
  obtain ⟨out, acc, cnt⟩ := st
  by_cases hzero : cnt = 0
  · obtain rfl := hzero
    obtain ⟨hpack, hpad⟩ := eq_pack_of_bytesBits (x := out) (p := 0) (by decide)
      (by simpa [byteBits] using hbits)
    exact Prod.ext hpack hpad
  · have hwhole : bytesBits (out ++ [acc <<< (8 - cnt)]) = bs ++ List.replicate (8 - cnt) false := by
      rw [bytesBits_concat, byteBits_shiftLeft acc (Nat.sub_le 8 cnt), ← List.append_assoc, hbits]
    obtain ⟨hpack, hpad⟩ := eq_pack_of_bytesBits (Nat.sub_lt (by decide) (Nat.pos_of_ne_zero hzero)) hwhole
    exact (if_neg hzero).trans (Prod.ext hpack hpad)

end Sys2Proof.Machine
end

section
/-! PROOFS. The codes of a table are uniquely decodable (R155, R193, R214): the walk over a concatenation of codes
cuts it where it was put together. -/
namespace Sys2Proof.Machine

/-- A code table that can be read bit by bit: one code a symbol, none empty, none the start of another (R154, R155). -/
structure PrefixCode (codes : List (Byte × Bits)) : Prop where
  symbols : (codes.map Prod.fst).Nodup
  nonempty : ∀ a ∈ codes, a.2 ≠ []
  prefixFree : ∀ a ∈ codes, ∀ b ∈ codes, a.2 <+: b.2 → a = b

/-- Distinct symbols have distinct, non-empty codes, none the start of another. -/
theorem prefixCode_codesOf {table : List (Byte × Nat)} (hnd : (table.map Prod.fst).Nodup) :
    PrefixCode (codesOf table) := by
  obtain ⟨hperm, hsingle, hlengths⟩ := codeLengthsAreBounded table hnd
  have hsymbols : ((codesOf table).map Prod.fst).Nodup := hperm.nodup_iff.2 hnd
  refine ⟨hsymbols, fun a ha => ?_, fun a ha b hb hab => ?_⟩
  · match table with
    | [] => cases ha
    | [p] =>
      rw [hsingle p rfl, List.mem_singleton] at ha
      simp [ha]
    | p :: q :: rest => exact List.ne_nil_of_length_pos ((hlengths (by simp)).1 a ha).1
  · refine List.inj_on_of_nodup_map hsymbols ha hb ?_
    by_contra hne
    exact codesArePrefixFree table a b ha hb hne hab

/-! ### The two lookups of a code table (R34, R154) -/

/-- The code of a symbol is its entry in the table. -/
theorem codeIn_of_mem {codes : List (Byte × Bits)} (hnd : (codes.map Prod.fst).Nodup) {a : Byte × Bits}
    (ha : a ∈ codes) : codeIn codes a.1 = a.2 := by
  unfold codeIn
  split
  · next c hc =>
    have hsym : c.1 = a.1 := by simpa using List.find?_some hc
    rw [List.inj_on_of_nodup_map hnd (List.mem_of_find?_eq_some hc) ha hsym]
  · next hnone => exact absurd (beq_self_eq_true _) (List.find?_eq_none.1 hnone a ha)

/-- The reverse lookup answers only with a symbol that has this code. -/
theorem mem_of_revIn {codes : List (Byte × Bits)} {p : Bits} {s : Byte} (h : revIn codes p = some s) :
    (s, p) ∈ codes := by
  unfold revIn at h
  split at h <;> cases h
  next c hc =>
  have hcode : c.2 = p := by simpa using List.find?_some hc
  exact hcode ▸ List.mem_of_find?_eq_some hc

theorem exists_revIn_of_mem {codes : List (Byte × Bits)} {a : Byte × Bits} (ha : a ∈ codes) :
    ∃ s, revIn codes a.2 = some s := by
  unfold revIn
  split
  · exact ⟨_, rfl⟩
  · next hnone => exact absurd (beq_self_eq_true _) (List.find?_eq_none.1 hnone a ha)

/-- The reverse lookup of a symbol's code is the symbol. -/
theorem PrefixCode.revIn_code {codes : List (Byte × Bits)} (h : PrefixCode codes) {a : Byte × Bits}
    (ha : a ∈ codes) : revIn codes a.2 = some a.1 := by
  obtain ⟨s, hs⟩ := exists_revIn_of_mem ha
  rw [hs, ← h.prefixFree _ (mem_of_revIn hs) a ha List.prefix_rfl]

/-- No shorter start of a code is a code. -/
theorem PrefixCode.revIn_of_prefix {codes : List (Byte × Bits)} (h : PrefixCode codes) {a : Byte × Bits}
    (ha : a ∈ codes) {p : Bits} (hp : p <+: a.2) (hne : p ≠ a.2) : revIn codes p = none := by
  refine Option.eq_none_iff_forall_ne_some.2 fun s hs => hne ?_
  exact congrArg Prod.snd (h.prefixFree _ (mem_of_revIn hs) a ha hp)

/-! ### The walk over codes (R214) -/

/-- The walk emits a symbol at the end of its code, when no shorter start of the code is one. -/
theorem walk_append_code {rev : Bits → Option Byte} {acc p : Bits} {s : Byte} (hp : p ≠ [])
    (hs : rev (acc ++ p) = some s) (hnone : ∀ q, q <+: p → q ≠ [] → q ≠ p → rev (acc ++ q) = none)
    (rest : Bits) : walk rev acc (p ++ rest) =
      (s :: (walk rev [] rest).1, (walk rev [] rest).2) := by
  induction p generalizing acc with
  | nil => exact absurd rfl hp
  | cons b p ih =>
    by_cases hlast : p = []
    · subst hlast
      simp only [List.cons_append, List.nil_append, walk, hs]
    · have hfirst : rev (acc ++ [b]) = none := hnone [b] (by simp) (by simp) (by simpa using Ne.symm hlast)
      simp only [List.cons_append, walk, hfirst]
      refine ih hlast (by simpa using hs) fun q hq hq0 hqp => ?_
      simpa using hnone (b :: q) (by simpa using hq) (by simp) (by simpa using hqp)

theorem PrefixCode.walk_code {codes : List (Byte × Bits)} (h : PrefixCode codes) {a : Byte × Bits}
    (ha : a ∈ codes) (rest : Bits) : walk (revIn codes) [] (a.2 ++ rest) =
      (a.1 :: (walk (revIn codes) [] rest).1, (walk (revIn codes) [] rest).2) :=
  walk_append_code (acc := []) (h.nonempty a ha) (h.revIn_code ha) (fun _ hq _ hne => h.revIn_of_prefix ha hq hne) rest

/-- The walk over the codes of a sequence of symbols emits the sequence and leaves nothing over. -/
theorem PrefixCode.walk_encodeBits {codes : List (Byte × Bits)} (h : PrefixCode codes) {y : List Byte}
    (hy : ∀ b ∈ y, b ∈ codes.map Prod.fst) : walk (revIn codes) [] (encodeBits codes y) = (y, []) := by
  induction y with
  | nil => rfl
  | cons b y ih =>
    obtain ⟨a, ha, rfl⟩ := List.mem_map.1 (hy b List.mem_cons_self)
    have hcode : encodeBits codes (a.1 :: y) = a.2 ++ encodeBits codes y := by
      rw [encodeBits, List.flatMap_cons, codeIn_of_mem h.symbols ha, encodeBits]
    rw [hcode, h.walk_code ha, ih fun c hc => hy c (List.mem_cons_of_mem _ hc)]

/-- The symbols of a table are those of its codes. -/
theorem mem_symbols_codesOf {table : List (Byte × Nat)} (hnd : (table.map Prod.fst).Nodup) {b : Byte} :
    b ∈ (codesOf table).map Prod.fst ↔ b ∈ table.map Prod.fst :=
  (codeLengthsAreBounded table hnd).1.mem_iff

/-- Settles O44: no code of a table of distinct symbols starts another, and every symbol has one. -/
theorem walkInvertsTheCodes : Obligations.WalkInvertsTheCodes := by
  intro table y hnd hy
  exact (prefixCode_codesOf hnd).walk_encodeBits fun b hb => (mem_symbols_codesOf hnd).2 (hy b hb)

end Sys2Proof.Machine
end

section
/-! PROOFS. DECOMPRESS inverts COMPRESS as functions (R193): the table `compress` writes is read back from the
Frame, hence the same codes, and LEN_CHECK passes. -/
namespace Sys2Proof.Machine

/-! ### The frequency table of a sequence (R120, R121, R123) -/

/-- One more occurrence of `b` in the table of the keys `keys` with the counts `f`. -/
theorem bumpCount_map {keys : List Byte} (hnd : keys.Nodup) (f : Byte → Nat) (b : Byte) :
    bumpCount (keys.map fun a => (a, f a)) b =
      if b ∈ keys then keys.map fun a => (a, if a = b then f a + 1 else f a)
      else (keys.map fun a => (a, f a)) ++ [(b, 1)] := by
  induction keys with
  | nil => rfl
  | cons a keys ih =>
    obtain ⟨ha, hnd⟩ := List.nodup_cons.1 hnd
    by_cases hab : a = b
    · subst hab
      have hrest : keys.map (fun c => (c, if c = a then f c + 1 else f c)) = keys.map fun c => (c, f c) :=
        List.map_congr_left fun c hc => by rw [if_neg fun h : c = a => ha (h ▸ hc)]
      simp [bumpCount, hrest]
    · by_cases hb : b ∈ keys <;> simp [bumpCount, hab, Ne.symm hab, ih hnd, hb]

/-- The table holds the distinct bytes in order of first occurrence, each with its count. -/
theorem countSymbols_eq (x : List Byte) : countSymbols x = x.eraseDups.map fun b => (b, x.count b) := by
  induction x using List.reverseRecOn with
  | nil => rfl
  | append_singleton x b ih =>
    have hcons : countSymbols (x ++ [b]) = bumpCount (countSymbols x) b := List.foldl_append
    have hcount : ∀ a, (x ++ [b]).count a = if a = b then x.count a + 1 else x.count a := by
      intro a
      by_cases hab : a = b <;> simp [hab, Ne.symm]
    rw [hcons, ih, bumpCount_map (nodup_eraseDups x), eraseDups_concat]
    simp only [List.mem_eraseDups, hcount]
    by_cases hb : b ∈ x
    · rw [if_pos hb, if_pos hb]
    · rw [if_neg hb, if_neg hb, List.map_append, List.map_singleton, if_pos rfl, List.count_eq_zero.2 hb]
      refine congrArg (· ++ _) (List.map_congr_left fun a ha => ?_)
      rw [if_neg fun h : a = b => hb (h ▸ List.mem_eraseDups.1 ha)]

@[simp] theorem symbols_countSymbols (x : List Byte) : (countSymbols x).map Prod.fst = x.eraseDups := by
  rw [countSymbols_eq, List.map_map]
  exact List.map_id _

theorem countSymbols_nodup (x : List Byte) : ((countSymbols x).map Prod.fst).Nodup := by
  rw [symbols_countSymbols]
  exact nodup_eraseDups x

theorem countSymbols_eq_nil_iff (x : List Byte) : countSymbols x = [] ↔ x = [] := by
  rw [countSymbols_eq, List.map_eq_nil_iff, eraseDups_eq_nil_iff]

/-- There are no more than 256 symbols (R17, R94). -/
theorem length_le_of_nodup_bytes {x : List Byte} (hnd : x.Nodup) : x.length ≤ 256 := by
  have hall : x ⊆ allSymbols := fun b _ => List.mem_map.2 ⟨b.toNat, by simpa using b.isLt, by simp⟩
  simpa [allSymbols] using hnd.length_le_of_subset hall

theorem countSymbols_length_le (x : List Byte) : (countSymbols x).length ≤ 256 := by
  rw [← List.length_map Prod.fst]
  exact length_le_of_nodup_bytes (countSymbols_nodup x)

/-- A count is at most the length of the input, so it has room in 4 bytes when R182 holds. -/
theorem count_le_of_mem_countSymbols {x : List Byte} {p : Byte × Nat} (hp : p ∈ countSymbols x) :
    p.2 ≤ x.length := by
  rw [countSymbols_eq] at hp
  obtain ⟨b, -, rfl⟩ := List.mem_map.1 hp
  exact List.count_le_length

/-- The number of encoded bits is the sum over the table of count times code length (R187, R210). -/
theorem encodeBits_length (codes : List (Byte × Bits)) (x : List Byte) :
    (encodeBits codes x).length = impliedLength codes (countSymbols x) := by
  have hsame : x.toFinset = x.eraseDups.toFinset := by ext; simp
  rw [encodeBits, List.length_flatMap, Finset.sum_list_map_count, hsame, List.sum_toFinset _ (nodup_eraseDups x),
    impliedLength, countSymbols_eq, List.map_map]
  rfl

/-! ### Big-endian fields (R13, R64) -/

theorem be16_be16Bytes {v : Nat} (hv : v < 2 ^ 16) :
    be16 (BitVec.ofNat 8 (v / 2 ^ 8)) (BitVec.ofNat 8 v) = v := by
  simp only [be16, BitVec.toNat_ofNat]
  omega

theorem be32_be32Bytes {v : Nat} (hv : v < 2 ^ 32) :
    be32 (BitVec.ofNat 8 (v / 2 ^ 24)) (BitVec.ofNat 8 (v / 2 ^ 16)) (BitVec.ofNat 8 (v / 2 ^ 8))
      (BitVec.ofNat 8 v) = v := by
  simp only [be32, BitVec.toNat_ofNat]
  omega

/-! ### Reading a Frame back (R92 to R97) -/

/-- A symbol table whose counts fit in their 4 bytes is read back entry by entry. -/
theorem tableEntries_flatMap_entryBytes {table : List (Byte × Nat)} (hcount : ∀ p ∈ table, p.2 < 2 ^ 32) :
    tableEntries (table.flatMap entryBytes) = table := by
  induction table with
  | nil => rfl
  | cons p table ih =>
    obtain ⟨hp, hrest⟩ := List.forall_mem_cons.1 hcount
    simp only [List.flatMap_cons, entryBytes, be32Bytes, List.cons_append, List.nil_append, tableEntries,
      be32_be32Bytes hp, ih hrest]

theorem flatMap_entryBytes_length (table : List (Byte × Nat)) :
    (table.flatMap entryBytes).length = 5 * table.length := by
  have hentry : ∀ p : Byte × Nat, (entryBytes p).length = 5 := fun _ => rfl
  simp [List.length_flatMap, hentry, Nat.mul_comm]

/-- The header bytes stand before the table and the payload. -/
theorem frameBytes_eq_cons (table : List (Byte × Nat)) (pad : Nat) (payload : List Byte) :
    frameBytes table pad payload = BitVec.ofNat 8 (table.length / 2 ^ 8) :: BitVec.ofNat 8 table.length ::
      BitVec.ofNat 8 pad :: (table.flatMap entryBytes ++ payload) := by
  simp [frameBytes, be16Bytes]

/-- A Frame whose fields have room in their bytes is taken apart into them. -/
theorem parseFrame_frameBytes {table : List (Byte × Nat)} {pad : Nat} (hlen : table.length ≤ 256)
    (hcount : ∀ p ∈ table, p.2 < 2 ^ 32) (hnd : (table.map Prod.fst).Nodup) (hpad : pad < 256)
    (payload : List Byte) : parseFrame (frameBytes table pad payload) = .ok ⟨table, pad, payload⟩ := by
  have hentries := flatMap_entryBytes_length table
  rw [frameBytes_eq_cons, parseFrame, be16_be16Bytes (by omega), if_neg (by omega),
    if_neg (by simp [hentries]), ← hentries]
  simp [tableEntries_flatMap_entryBytes hcount, hnd, Nat.mod_eq_of_lt hpad]

/-! ### The round trip -/

/-- `compress` of a sequence that is not empty. -/
theorem compress_of_ne_nil {x : List Byte} (hx : x ≠ []) : compress x =
    frameBytes (countSymbols x) (padOf (encodeBits (codesOf (countSymbols x)) x).length)
      (pack (encodeBits (codesOf (countSymbols x)) x)) :=
  if_neg (mt (countSymbols_eq_nil_iff x).1 hx)

/-- A Frame whose fields pass LEN_CHECK opens to the bits of its payload (R200). -/
theorem openFrame_of_parseFrame {f : List Byte} {h : Parsed} {bs : Bits} (hparse : parseFrame f = .ok h)
    (hpad : h.padf ≤ 7) (hlen : 8 * h.payload.length = impliedLength (codesOf h.table) h.table + h.padf)
    (hbits : unpack h.payload h.padf = some bs) : openFrame f = .ok (codesOf h.table, bs) := by
  have hpass : ¬ (h.padf > 7 ∨ 8 * h.payload.length ≠ impliedLength (codesOf h.table) h.table + h.padf) := by
    omega
  simp only [openFrame, hparse, if_neg hpass, hbits]

/-- The Frame of a sequence opens to the codes and the bits it was made of (R193). -/
theorem openFrame_compress {x : List Byte} (hx : x ≠ []) (hlen : x.length ≤ inLenMaxCompress) :
    openFrame (compress x) = .ok (codesOf (countSymbols x), encodeBits (codesOf (countSymbols x)) x) := by
  have hcount : ∀ p ∈ countSymbols x, p.2 < 2 ^ 32 := fun p hp =>
    Nat.lt_succ_of_le ((count_le_of_mem_countSymbols hp).trans hlen)
  have hpad := padOf_lt (encodeBits (codesOf (countSymbols x)) x).length
  rw [compress_of_ne_nil hx]
  refine openFrame_of_parseFrame (parseFrame_frameBytes (countSymbols_length_le x) hcount (countSymbols_nodup x)
    (hpad.trans (by decide)) _) (Nat.le_of_lt_succ hpad) ?_ (unpackInvertsPack _)
  rw [← encodeBits_length]
  exact pack_length _

/-- Settles O54: the Frame opens to the bits of the input, and the walk over them emits it. -/
theorem decompressInvertsCompress : Obligations.DecompressInvertsCompress := by
  intro x hlen
  by_cases hx : x = []
  · rw [hx]
    exact decompress_emptyFrame
  · have hwalk := walkInvertsTheCodes (countSymbols x) x (countSymbols_nodup x) (by simp)
    simp [decompress, openFrame_compress hx hlen, hwalk]

end Sys2Proof.Machine
end

section
/-! PROOFS. The encoder's own phases (R186 to R189): ENC_MAP concatenates codes, FRAME_EMIT leaves the Frame in
OBUF. -/
namespace Sys2Proof.Machine

/-! ### ENC_MAP (R186) -/

/-- ENC_MAP of an input whose bytes all have a code (R186, R184). -/
theorem exec_encMap_of_valid {s : State} (hop : s.op = opCompress) (hlen : s.inLen.toNat ≤ s.params.ibufCap.val)
    (hvalid : ∀ b ∈ s.input, SymTable.at s.work.codeValid b = true) :
    ∃ t, exec .encMap s = .next t ∧ t.phase = phaseBpPack ∧
      t.work.bits = s.input.flatMap (fun b => SymTable.at s.work.code b) ∧
      t.work.t = (s.input.map (fun b => SymTable.at s.work.codeLen b)).sum := by
  show ∃ t, execEncMap s = .next t ∧ _
  rw [execEncMap, underOp_of_mem (by simp [Instr.opValues, hop]), State.memRead_input hlen]
  simp only [Work.mapBytes_of_valid hvalid]
  exact ⟨_, rfl, rfl, rfl, rfl⟩

/-- Settles O30: the loop over the input, and the frame of the phase. -/
theorem encoderMapsBytesToCodes : Obligations.EncoderMapsBytesToCodes := by
  intro s hop hlen hvalid
  obtain ⟨t, hexec, hphase, hbits, ht⟩ := exec_encMap_of_valid hop hlen hvalid
  obtain ⟨hcont, hframe⟩ := execEncMap_next hexec
  exact ⟨t, hexec, hbits, ht, hphase, hcont.keepsHostSide, hframe⟩

/-! ### The result of an operation in OBUF (R62, R67, R189, R219) -/

/-- The end of an operation that wrote the result `x` to OBUF. -/
def State.endedWith (s : State) (x : List Byte) : State :=
  State.finish { s with obuf := s.obuf.write 0 x, work := { s.work with outPtr := x.length } }

theorem ends_endedWith {s : State} {x : List Byte} (hroom : x.length ≤ s.params.obufCap.val) :
    Ends s (s.endedWith x) := ⟨x, hroom, rfl⟩

/-- `OUT_LEN` is the length of the result: no capacity is above 2^60 (R9). -/
theorem State.endedWith_outLen {s : State} {x : List Byte} (hroom : x.length ≤ s.params.obufCap.val) :
    (s.endedWith x).outLen.toNat = x.length := by
  have hcap : s.params.obufCap.val ≤ 2 ^ 60 := Nat.le_of_lt_succ s.params.obufCap.isLt
  exact Nat.mod_eq_of_lt (by show x.length < 2 ^ 64; omega)

/-- Below `OUT_LEN` OBUF holds the result. -/
theorem State.endedWith_obufByte {s : State} (hs : s.obuf.wf) {x : List Byte} {a : Nat} {b : Byte}
    (hx : x[a]? = some b) : (s.endedWith x).obufByte a = b := by
  obtain ⟨ha, -⟩ := List.getElem?_eq_some_iff.1 hx
  simp only [State.obufByte, State.endedWith, State.finish_obuf, Memory.get?_below, Memory.get?_write hs,
    Nat.zero_le, Nat.zero_add, Nat.sub_zero, true_and, if_pos ha, hx]

theorem State.endedWith_output {s : State} (hs : s.obuf.wf) {x : List Byte}
    (hroom : x.length ≤ s.params.obufCap.val) : (s.endedWith x).output = x := by
  refine List.ext_getElem ?_ fun i _ hi => ?_
  · rw [State.output, State.obufBytes_length, State.endedWith_outLen hroom]
  · simpa [State.output, State.obufBytes] using State.endedWith_obufByte hs (List.getElem?_eq_getElem hi)

/-! ### FRAME_EMIT (R188) -/

/-- FRAME_EMIT of a Frame that has room in OBUF ends the operation with it. -/
theorem exec_frameEmit_of_room {s : State} {table : List (Byte × Nat)} (hop : s.op = opCompress)
    (htable : s.work.table = .ok table) (hpay : (s.work.t + 7) / 8 ≤ s.work.payload.length)
    (hroom : 3 + 5 * s.work.k + (s.work.t + 7) / 8 ≤ s.params.obufCap.val) :
    exec .frameEmit s =
      .next (s.endedWith (frameBytes table s.work.pad (s.work.payload.take ((s.work.t + 7) / 8)))) := by
  have hlen := Work.frame_length htable hpay
  have hwrite := State.memWrite_some_iff.2 ⟨by rwa [hlen, Nat.zero_add], rfl⟩
  show execFrameEmit s = _
  rw [execFrameEmit, underOp_of_mem (by simp [Instr.opValues, hop]), htable]
  simp only [if_neg (Nat.not_lt.2 hpay), hwrite, State.endedWith, hlen]

/-- Byte `i` of entry `j` of a symbol table (R95). -/
theorem getElem?_flatMap_entryBytes {table : List (Byte × Nat)} {j i : Nat} {p : Byte × Nat}
    (hj : table[j]? = some p) (hi : i < 5) : (table.flatMap entryBytes)[5 * j + i]? = (entryBytes p)[i]? := by
  have hlen : ∀ q : Byte × Nat, (entryBytes q).length = 5 := fun _ => rfl
  induction table generalizing j with
  | nil => cases hj
  | cons q table ih =>
    rw [List.flatMap_cons]
    cases j with
    | zero =>
      obtain rfl : q = p := Option.some_injective _ hj
      rw [Nat.mul_zero, Nat.zero_add, List.getElem?_append_left (by rwa [hlen])]
    | succ j =>
      have hskip : 5 * (j + 1) + i = 5 + (5 * j + i) := by omega
      rw [hskip, List.getElem?_append_right (by simp [hlen]), hlen, Nat.add_sub_cancel_left]
      exact ih hj

/-- Byte `i` of entry `j` of a Frame (R95). -/
theorem getElem?_frameBytes_entry {table : List (Byte × Nat)} {j a i : Nat} {p : Byte × Nat}
    (hj : table[j]? = some p) (ha : a = 3 + 5 * j + i) (hi : i < 5) (pad : Nat) (payload : List Byte) :
    (frameBytes table pad payload)[a]? = (entryBytes p)[i]? := by
  obtain ⟨hlt, -⟩ := List.getElem?_eq_some_iff.1 hj
  obtain rfl : a = 5 * j + i + 3 := by omega
  rw [frameBytes_eq_cons]
  simp only [List.getElem?_cons_succ]
  rw [List.getElem?_append_left (by rw [flatMap_entryBytes_length]; omega), getElem?_flatMap_entryBytes hj hi]

/-- Byte `j` of the payload of a Frame (R92). -/
theorem getElem?_frameBytes_payload (table : List (Byte × Nat)) (pad : Nat) (payload : List Byte) (j : Nat) :
    (frameBytes table pad payload)[3 + 5 * table.length + j]? = payload[j]? := by
  have hskip : 3 + 5 * table.length + j = (table.flatMap entryBytes).length + j + 3 := by
    rw [flatMap_entryBytes_length]
    omega
  rw [frameBytes_eq_cons, hskip]
  simp only [List.getElem?_cons_succ]
  rw [List.getElem?_append_right (Nat.le_add_right ..), Nat.add_sub_cancel_left]

/-- Settles O35: the bytes of OBUF below `OUT_LEN` are those of the Frame, field by field. -/
theorem frameEmitWritesTheFrame : Obligations.FrameEmitWritesTheFrame := by
  intro s table hop htable hk hcount hpad hpay hroom hwf
  have hlen := Work.frame_length htable hpay
  have hfits : (frameBytes table s.work.pad (s.work.payload.take ((s.work.t + 7) / 8))).length ≤
      s.params.obufCap.val := by rwa [hlen]
  have hrows : table.length = s.work.k := Work.table_length htable
  have hbyte {a : Nat} {b : Byte} := State.endedWith_obufByte (a := a) (b := b) hwf
    (x := frameBytes table s.work.pad (s.work.payload.take ((s.work.t + 7) / 8)))
  refine ⟨_, exec_frameEmit_of_room hop htable hpay hroom, (ends_endedWith hfits).endedWell, ?_, ?_, ?_,
    fun j p hj => ?_, fun j hj => ?_, (ends_endedWith hfits).keepsInput⟩
  · rw [State.endedWith_outLen hfits, hlen]
  · rw [hbyte rfl, hbyte rfl, hrows]
    exact be16_be16Bytes (by omega)
  · rw [hbyte rfl, BitVec.toNat_ofNat]
    omega
  · have hentry {a i : Nat} (ha : a = 3 + 5 * j + i) (hi : i < 5) {b : Byte} (hb : (entryBytes p)[i]? = some b) :=
      hbyte ((getElem?_frameBytes_entry hj ha hi _ _).trans hb)
    refine ⟨hentry (i := 0) rfl (by decide) rfl, ?_⟩
    rw [hentry (i := 1) (by omega) (by decide) rfl, hentry (i := 2) (by omega) (by decide) rfl,
      hentry (i := 3) (by omega) (by decide) rfl, hentry (i := 4) (by omega) (by decide) rfl]
    exact be32_be32Bytes (hcount p (List.mem_of_getElem? hj))
  · have hpayload := List.getElem?_eq_getElem (hj.trans_le hpay)
    rw [hpayload, hbyte]
    rw [← hrows, getElem?_frameBytes_payload, List.getElem?_take_of_lt hj, hpayload]

end Sys2Proof.Machine
end

section
/-! PROOFS. A COMPRESS that may start runs to its result (R180, R184, R189, R232): runs of the sequencer, and what
each phase of the encoder leaves for the next. -/
namespace Sys2Proof.Machine

/-! ### Runs of the sequencer (R184, R202, R237) -/

/-- The sequencer runs through the phases of the list, busy all the time, and then the block is idle in a state of
which `P` holds. -/
inductive RunsThrough (P : State → Prop) : List (BitVec 4) → State → Prop
  | ended {s : State} : IdleState s → P s → RunsThrough P [] s
  | phase {s t : State} {ps : List (BitVec 4)} : BusyState s → sequencerMove s = .next t → RunsThrough P ps t →
      RunsThrough P (s.phase :: ps) s

theorem KeepsInput.refl (s : State) : KeepsInput s s := ⟨rfl, fun _ => rfl, rfl, rfl, rfl⟩

theorem KeepsInput.trans {s t u : State} (h : KeepsInput s t) (h' : KeepsInput t u) : KeepsInput s u := by
  obtain ⟨hlen, hbytes, hparams, hqueue, hdata⟩ := h
  obtain ⟨hlen', hbytes', hparams', hqueue', hdata'⟩ := h'
  exact ⟨hlen'.trans hlen, fun a => (hbytes' a).trans (hbytes a), hparams'.trans hparams,
    hqueue'.trans hqueue, hdata'.trans hdata⟩

theorem KeepsInput.input {s t : State} (h : KeepsInput s t) : t.input = s.input := by
  obtain ⟨hlen, hbytes, -⟩ := h
  simp only [State.input, State.ibufBytes, hlen, hbytes]

/-- An idle block with no host action pending stays as it is (R230). -/
theorem runSteps_of_idle {s : State} (hb : s.busy = false) (hq : s.hostQueue = []) (n : Nat) :
    runSteps n s = .next s := by
  have hstep : step s = .next s := (step_of_queue_nil hq).trans (sequencerMove_of_idle hb)
  induction n with
  | zero => rfl
  | succ n ih => rw [runSteps_succ_of_next hstep, ih]

/-- No phase of an operation is IDLE (R27). -/
theorem phase_ne_idle_of_busyState {s : State} (h : BusyState s) : s.phase ≠ phaseIdle := by
  obtain ⟨-, -, -, -, -, hphase⟩ := h
  intro hidle
  rw [hidle] at hphase
  simp [PhaseLegal, phaseIdle] at hphase

/-- What the host sees of such a run, step by step, when it has no action pending (log entry 17). -/
theorem RunsThrough.runSteps {P : State → Prop} {ps : List (BitVec 4)} {s : State} (h : RunsThrough P ps s)
    (hq : s.hostQueue = []) (n : Nat) : ∃ t, runSteps n s = .next t ∧ t.phase = ps.getD n 0#4 ∧
      KeepsInput s t ∧ (t.phase ≠ phaseIdle → t.status = 0x01#8) ∧ (t.phase = phaseIdle → P t) := by
  induction h generalizing n with
  | @ended s hidle hP =>
    exact ⟨s, runSteps_of_idle (busy_of_idleState hidle) hq n, hidle.1, .refl s, fun hne => absurd hidle.1 hne,
      fun _ => hP⟩
  | @phase s t ps hbusy hmove _ ih =>
    cases n with
    | zero =>
      exact ⟨s, rfl, rfl, .refl s, fun _ => hbusy.1, fun hidle => absurd hidle (phase_ne_idle_of_busyState hbusy)⟩
    | succ n =>
      obtain ⟨-, -, -, hqueue, -⟩ := sequencerMove_keepsInput hmove
      obtain ⟨u, hrun, hphase, hkeeps', hbusy', hP⟩ := ih (hqueue.trans hq) n
      exact ⟨u, (runSteps_succ_of_next ((step_of_queue_nil hq).trans hmove) n).trans hrun, hphase,
        (sequencerMove_keepsInput hmove).trans hkeeps', hbusy', hP⟩

/-! ### The tables the phases hand on (R29, R34) -/

/-- The table reads the same in a working state with the same frequency registers (R29). -/
theorem Work.table_of_same {w w' : Work} {table : List (Byte × Nat)} (h : w.table = .ok table) (hk : w'.k = w.k)
    (ho : w'.order = w.order) (hp : w'.present = w.present) (hc : w'.count = w.count) : w'.table = .ok table := by
  rw [Work.table_ok_iff] at *
  rwa [hk, ho, hp, hc]

/-- A table that counts `x` reads as the table of `x` (R29, R120). -/
theorem Work.Counts.table {w : Work} {x : List Byte} (h : w.Counts x) : w.table = .ok (countSymbols x) := by
  obtain ⟨hk, horder, hpresent, hcount⟩ := h
  refine Work.table_ok_iff.2 ⟨?_, fun b hb => ?_, ?_⟩
  · have hlen := congrArg List.length horder
    rw [List.length_take] at hlen
    omega
  · rw [horder, List.mem_eraseDups] at hb
    simp [hpresent, hb]
  · rw [horder, countSymbols_eq]
    exact List.map_congr_left fun b hb => by rw [hcount b (List.mem_eraseDups.1 hb)]

/-- The code table holds the codes of the list for the bytes of `x` (R34). -/
structure Work.HasCodes (w : Work) (codes : List (Byte × Bits)) (x : List Byte) : Prop where
  valid : ∀ b ∈ x, SymTable.at w.codeValid b = true
  code : ∀ b ∈ x, SymTable.at w.code b = codeIn codes b
  length : ∀ b ∈ x, SymTable.at w.codeLen b = (codeIn codes b).length

/-- CB_DERIVE's loop leaves the codes of the list in the table (R150, R154). -/
theorem Work.hasCodes_foldl_assign {codes : List (Byte × Bits)} (hnd : (codes.map Prod.fst).Nodup) (w : Work)
    {x : List Byte} (hx : ∀ b ∈ x, b ∈ codes.map Prod.fst) : (codes.foldl Work.assign w).HasCodes codes x := by
  have hassigned : ∀ b ∈ x, SymTable.at (codes.foldl Work.assign w).code b = codeIn codes b ∧
      SymTable.at (codes.foldl Work.assign w).codeLen b = (codeIn codes b).length := by
    intro b hb
    obtain ⟨a, ha, rfl⟩ := List.mem_map.1 (hx b hb)
    rw [codeIn_of_mem hnd ha]
    exact Work.foldl_assign_of_mem hnd w ha
  exact ⟨fun b hb => (Work.foldl_assign_codeValid codes w b).2 (.inr (hx b hb)),
    fun b hb => (hassigned b hb).1, fun b hb => (hassigned b hb).2⟩

/-- The codes derived from the tree of a table are the codes of the table (R150, R180). -/
theorem deriveCodes_of_buildTree {table : List (Byte × Nat)} (hne : table ≠ []) {arena : List Node} {root : Nat}
    (hbuild : buildTree table = (arena, [root])) : deriveCodes arena root = .ok (codesOf table) := by
  obtain ⟨arena', root', codes, hbuild', -, hderive, -⟩ := buildTree_treeCodes hne
  obtain ⟨rfl, hroot⟩ := Prod.mk.inj (hbuild'.symm.trans hbuild)
  obtain rfl := List.singleton_inj.1 hroot
  simp only [codesOf, hbuild', hderive]

/-! ### A COMPRESS in progress -/

/-- The host's side of a COMPRESS of `x` in progress, in the phase `p` (R232). -/
structure Compressing (x : List Byte) (p : BitVec 4) (s : State) : Prop where
  busy : BusyState s
  op : s.op = opCompress
  phase : s.phase = p
  input : s.input = x
  inLen : s.inLen.toNat ≤ s.params.ibufCap.val
  obuf : s.obuf.wf
  room : (compress x).length ≤ s.params.obufCap.val

/-- The phases of a COMPRESS of `x` (R184). -/
abbrev compressPhases (x : List Byte) : List (BitVec 4) :=
  if x = [] then [1#4, 6#4] else [1#4, 2#4, 3#4, 4#4, 5#4, 6#4]

/-- What the host sees at the end of a COMPRESS of `x` (R189). -/
def Compressed (x : List Byte) (t : State) : Prop :=
  t.status = 0x02#8 ∧ t.errKind = 0x00#8 ∧ t.errCause = 0x00#8 ∧ t.op = 0x00#8 ∧
    t.outLen.toNat = (compress x).length ∧ t.output = compress x

section Compressing

variable {x : List Byte} {s t : State} {p : BitVec 4}

theorem Compressing.continues (h : Compressing x p s) (hc : Continues s t) : Compressing x t.phase t := by
  have hkeeps := hc.keepsHostSide.1.input
  have hbusy := hc.busyState h.busy
  obtain ⟨w, q, n, -, rfl⟩ := hc
  exact ⟨hbusy, h.op, rfl, hkeeps.trans h.input, h.inLen, h.obuf, h.room⟩

/-- A phase that goes on, and the run from there. -/
theorem Compressing.runsThrough_of_exec (h : Compressing x p s) {i : Instr} (hi : decodePhase p = .ok i)
    (hexec : exec i s = .next t) {P : State → Prop} {ps : List (BitVec 4)} (hrun : RunsThrough P ps t) :
    RunsThrough P (p :: ps) s := by
  obtain rfl := h.phase
  exact .phase h.busy ((sequencerMove_of_busy (busy_of_busyState h.busy) hi).trans hexec) hrun

/-! ### The phases, from the last to the first (R184) -/

/-- FRAME_EMIT, where the Frame it writes is that of `x`, ends the operation with it (R188, R189). -/
theorem Compressing.runsThrough_frameEmit (h : Compressing x phaseFrameEmit s) {table : List (Byte × Nat)}
    (htable : s.work.table = .ok table) (hpay : (s.work.t + 7) / 8 ≤ s.work.payload.length)
    (hframe : frameBytes table s.work.pad (s.work.payload.take ((s.work.t + 7) / 8)) = compress x) :
    RunsThrough (Compressed x) [phaseFrameEmit] s := by
  have hroom := h.room
  have hlen := Work.frame_length htable hpay
  rw [hframe] at hlen
  have hexec := exec_frameEmit_of_room h.op htable hpay (hlen ▸ hroom)
  rw [hframe] at hexec
  have hidle := (ends_endedWith hroom).idleState h.busy
  obtain ⟨hstatus, -⟩ := h.busy
  refine h.runsThrough_of_exec rfl hexec (.ended hidle ⟨?_, rfl, rfl, rfl, ?_, ?_⟩)
  · simp [State.endedWith, hstatus, putBit]
  · exact State.endedWith_outLen hroom
  · exact State.endedWith_output h.obuf hroom

/-- BP_PACK of the encoded input leaves its payload and pad length (R165). -/
theorem Compressing.runsThrough_bpPack (h : Compressing x phaseBpPack s) (hx : x ≠ [])
    (htable : s.work.table = .ok (countSymbols x))
    (hbits : s.work.bits = encodeBits (codesOf (countSymbols x)) x) (ht : s.work.bits.length = s.work.t) :
    RunsThrough (Compressed x) [phaseBpPack, phaseFrameEmit] s := by
  obtain ⟨t, hexec, hphase, hpad, hpayload⟩ := exec_bpPack_of_bitCount h.op ht
  obtain ⟨hcont, hframe⟩ := execBpPack_next hexec
  have htable' : t.work.table = .ok (countSymbols x) := by
    rw [hframe]
    exact Work.table_of_same htable rfl rfl rfl rfl
  have ht' : t.work.t = s.work.t := by rw [hframe]
  have hbytes : (t.work.t + 7) / 8 = t.work.payload.length := by
    have hlen := pack_length s.work.bits
    have hlt := padOf_lt s.work.bits.length
    rw [hpayload, ht', ← ht]
    omega
  refine h.runsThrough_of_exec rfl hexec (Compressing.runsThrough_frameEmit (hphase ▸ h.continues hcont) htable'
    hbytes.le ?_)
  rw [hbytes, List.take_length, hpad, hpayload, hbits, compress_of_ne_nil hx]

/-- ENC_MAP encodes the input (R186). -/
theorem Compressing.runsThrough_encMap (h : Compressing x phaseEncMap s) (hx : x ≠ [])
    (htable : s.work.table = .ok (countSymbols x)) (hcodes : s.work.HasCodes (codesOf (countSymbols x)) x) :
    RunsThrough (Compressed x) [phaseEncMap, phaseBpPack, phaseFrameEmit] s := by
  obtain ⟨t, hexec, hphase, hbits, ht⟩ := exec_encMap_of_valid h.op h.inLen (h.input ▸ hcodes.valid)
  obtain ⟨hcont, hframe⟩ := execEncMap_next hexec
  have htable' : t.work.table = .ok (countSymbols x) := by
    rw [hframe]
    exact Work.table_of_same htable rfl rfl rfl rfl
  rw [h.input] at hbits ht
  rw [List.flatMap_congr hcodes.code] at hbits
  rw [List.map_congr_left hcodes.length] at ht
  refine h.runsThrough_of_exec rfl hexec (Compressing.runsThrough_bpPack (hphase ▸ h.continues hcont) hx htable'
    hbits ?_)
  rw [hbits, ht, List.length_flatMap]

/-- CB_DERIVE on the tree of the table derives the codes of the input (R150). -/
theorem Compressing.runsThrough_cbDerive (h : Compressing x phaseCbDerive s) (hx : x ≠ [])
    (htable : s.work.table = .ok (countSymbols x))
    (hbuild : buildTree (countSymbols x) = (s.work.arena, [s.work.root])) :
    RunsThrough (Compressed x) [phaseCbDerive, phaseEncMap, phaseBpPack, phaseFrameEmit] s := by
  have hderive := deriveCodes_of_buildTree (mt (countSymbols_eq_nil_iff x).1 hx) hbuild
  have hexec := exec_cbDerive_of_deriveCodes (.inl h.op) hderive
  rw [if_pos h.op] at hexec
  obtain ⟨hcont, hframe⟩ := execCbDerive_next hexec
  have hnd := countSymbols_nodup x
  refine h.runsThrough_of_exec rfl hexec (Compressing.runsThrough_encMap (h.continues hcont) hx ?_ ?_)
  · rw [hframe]
    exact Work.table_of_same htable rfl rfl rfl rfl
  · exact Work.hasCodes_foldl_assign (prefixCode_codesOf hnd).symbols _ fun b hb =>
      (mem_symbols_codesOf hnd).2 (by simpa using hb)

/-- TREE_BUILD builds the tree of the table (R130). -/
theorem Compressing.runsThrough_treeBuild (h : Compressing x phaseTreeBuild s) (hx : x ≠ [])
    (htable : s.work.table = .ok (countSymbols x)) (hn : s.work.n = 0) (hpq : s.work.pq = []) :
    RunsThrough (Compressed x) [phaseTreeBuild, phaseCbDerive, phaseEncMap, phaseBpPack, phaseFrameEmit] s := by
  have hne := mt (countSymbols_eq_nil_iff x).1 hx
  obtain ⟨arena, hbuild, -⟩ := buildTree_forest hne
  have hk : s.work.k ≠ 0 := by
    rw [← Work.table_length htable]
    exact mt List.length_eq_zero_iff.1 hne
  have hexec := exec_treeBuild_of_buildTree (.inl h.op) hk hn hpq htable hbuild
  obtain ⟨hcont, hframe⟩ := execTreeBuild_next hexec
  refine h.runsThrough_of_exec rfl hexec (Compressing.runsThrough_cbDerive (h.continues hcont) hx ?_ ?_)
  · rw [hframe]
    exact Work.table_of_same htable rfl rfl rfl rfl
  · simpa [Work.arena] using hbuild

/-- FT_BUILD counts the input; an empty one skips to its Frame (R122, R184). -/
theorem Compressing.runsThrough_ftBuild (h : Compressing x phaseFtBuild s) (hwork : WorkEmpty s.work) :
    RunsThrough (Compressed x) (compressPhases x) s := by
  obtain ⟨hk, hn, hpq, -, -, -, -, hpresent, -⟩ := hwork
  obtain ⟨t, hexec, hcounts, hphase, hpad, ht⟩ := exec_ftBuild_of_empty_table h.op h.inLen hk hpresent
  obtain ⟨hcont, hframe⟩ := execFtBuild_next hexec
  rw [h.input] at hcounts hphase hpad ht
  have h' := h.continues hcont
  rw [hphase] at h'
  by_cases hx : x = []
  · rw [if_pos hx] at h' hpad ht
    rw [compressPhases, if_pos hx]
    refine h.runsThrough_of_exec rfl hexec (h'.runsThrough_frameEmit hcounts.table ?_ ?_)
    · simp [ht]
    · rw [ht, hpad, hx]
      rfl
  · rw [if_neg hx] at h'
    rw [compressPhases, if_neg hx]
    refine h.runsThrough_of_exec rfl hexec (h'.runsThrough_treeBuild hx hcounts.table ?_ ?_)
    · rw [hframe]
      exact hn
    · rw [hframe]
      exact hpq

end Compressing

/-! ### The start (R232) -/

theorem exec_compress_of_allowed {s : State} (h : CompressAllowed s) :
    exec .compress s = .next (s.start opCompress phaseFtBuild) := by
  obtain ⟨hb, hlen, hlimit, hroom⟩ := h
  show execCompress s = _
  rw [execCompress, whenIdle_of_idle hb, if_neg (Nat.not_lt.2 hlen), if_neg (Nat.not_lt.2 hlimit),
    if_neg (Nat.not_lt.2 hroom)]

/-- Every start empties the working state (R51). -/
theorem workEmpty_emptied (w : Work) : WorkEmpty w.emptied :=
  ⟨rfl, rfl, rfl, rfl, rfl, rfl, rfl, SymTable.at_replicate false, SymTable.at_replicate false⟩

/-- Settles O52: the start enters FT_BUILD with an empty working state, and the phases of R184 run from there. -/
theorem compressRunsToItsResult : Obligations.CompressRunsToItsResult := by
  intro s hidle ⟨_, _, hobuf, _⟩ hq hallowed
  have hstart : Compressing s.input phaseFtBuild (s.start opCompress phaseFtBuild) := by
    obtain ⟨-, hlen, -, hroom⟩ := hallowed
    exact ⟨busyState_start hidle (by decide), rfl, rfl, rfl, hlen, hobuf, hroom⟩
  refine ⟨_, exec_compress_of_allowed hallowed, fun n => ?_⟩
  obtain ⟨t, hrun, hphase, hkeeps, hresult⟩ :=
    (hstart.runsThrough_ftBuild (workEmpty_emptied s.work)).runSteps hq n
  exact ⟨t, hrun, hphase, hkeeps, hresult⟩

end Sys2Proof.Machine
end

section
/-! PROOFS. The walk of DEC_WALK over any bits (R214): it cuts them at the shortest matches, and walking the tree
instead emits the same (R216). -/
namespace Sys2Proof.Machine

/-! ### The pieces of the walk (R214) -/

/-- No start of the bits is a match, the empty one, which the walk never looks up, aside. -/
def NoMatch (rev : Bits → Option Byte) (bs : Bits) : Prop := ∀ q, q <+: bs → q ≠ [] → rev q = none

theorem noMatch_nil (rev : Bits → Option Byte) : NoMatch rev [] :=
  fun _ hq hne => absurd (List.prefix_nil.1 hq) hne

theorem NoMatch.concat {rev : Bits → Option Byte} {acc : Bits} {b : Bool} (h : NoMatch rev acc)
    (hb : rev (acc ++ [b]) = none) : NoMatch rev (acc ++ [b]) := by
  intro q hq hne
  obtain rfl | hq := List.prefix_concat_iff.1 hq
  · exact hb
  · exact h q hq hne

/-- The walk from an accumulator without a match: its first piece begins with the accumulator. -/
theorem walk_pieces (rev : Bits → Option Byte) {acc : Bits} (hacc : NoMatch rev acc) (bits : Bits) :
    ∃ pieces : List (Bits × Byte),
      acc ++ bits = pieces.flatMap Prod.fst ++ (walk rev acc bits).2 ∧
      (walk rev acc bits).1 = pieces.map Prod.snd ∧
      (∀ p ∈ pieces, p.1 ≠ [] ∧ rev p.1 = some p.2 ∧ ∀ q, q <+: p.1 → q ≠ [] → q ≠ p.1 → rev q = none) ∧
      NoMatch rev (walk rev acc bits).2 := by
  induction bits generalizing acc with
  | nil => exact ⟨[], by simp [walk], rfl, by simp, hacc⟩
  | cons b rest ih =>
    cases hb : rev (acc ++ [b]) with
    | none => simpa [walk, hb] using ih (hacc.concat hb)
    | some s =>
      obtain ⟨pieces, hcut, hout, hshortest, hleft⟩ := ih (noMatch_nil rev)
      have hfirst : ∀ q, q <+: acc ++ [b] → q ≠ [] → q ≠ acc ++ [b] → rev q = none := fun q hq hne hshort =>
        hacc q ((List.prefix_concat_iff.1 hq).resolve_left hshort) hne
      simp only [walk, hb]
      refine ⟨(acc ++ [b], s) :: pieces, ?_, ?_, List.forall_mem_cons.2 ⟨⟨by simp, hb, hfirst⟩, hshortest⟩, hleft⟩
      · simpa using hcut
      · simpa using hout

/-- Settles O43: the walk that starts with nothing accumulated. -/
theorem walkCutsAtTheShortestMatch : Obligations.WalkCutsAtTheShortestMatch :=
  fun rev bits => walk_pieces rev (noMatch_nil rev) bits

/-! ### The walk over the tree (R216) -/

theorem PrefixCode.revIn_eq_some_iff {codes : List (Byte × Bits)} (h : PrefixCode codes) {p : Bits} {s : Byte} :
    revIn codes p = some s ↔ (s, p) ∈ codes :=
  ⟨mem_of_revIn, fun hmem => h.revIn_code hmem⟩

/-- The two walks between two bits: the tree's is at the node `n`, the lookup's has accumulated the path to `n`,
and the codes that begin with this path are those of the leaves below `n`. -/
structure WalksAgree (codes : List (Byte × Bits)) (arena : List Node) (root n : Nat) (acc : Bits)
    (paths : List (Byte × Bits)) : Prop where
  tree : LeafPaths arena n paths
  lookup : ∀ (q : Bits) (s : Byte), revIn codes (acc ++ q) = some s ↔ (s, q) ∈ paths
  le : n ≤ root
  start : (n == root) = acc.isEmpty

section WalksAgree

variable {codes : List (Byte × Bits)} {arena : List Node} {root n : Nat} {acc : Bits} {paths : List (Byte × Bits)}

theorem walksAgree_root (h : PrefixCode codes) (hpaths : LeafPaths arena root codes) :
    WalksAgree codes arena root root [] codes where
  tree := hpaths
  lookup _ _ := h.revIn_eq_some_iff
  le := le_rfl
  start := by simp

/-- One bit from a node that is no leaf: the walks are at its child on the bit's side. -/
theorem WalksAgree.child (h : WalksAgree codes arena root n acc paths) {w l r : Nat}
    (hn : arena[n]? = some (.internal w l r)) (b : Bool) :
    ∃ below, WalksAgree codes arena root (if b then r else l) (acc ++ [b]) below := by
  obtain ⟨hpaths, hlookup, hle, -⟩ := h
  cases hpaths with
  | leaf hn' => cases hn.symm.trans hn'
  | @internal _ _ _ _ left right hn' hl hr hleft hright =>
    cases hn.symm.trans hn'
    have hlt : (if b then r else l) < n := by cases b <;> assumption
    refine ⟨bif b then right else left, by cases b <;> assumption, fun q s => ?_, (hlt.trans_le hle).le, ?_⟩
    · rw [List.append_assoc, List.singleton_append, hlookup, mem_branches]
      simp
    · rw [beq_eq_false_iff_ne.2 (hlt.trans_le hle).ne]
      simp

/-- At a leaf the lookup of the accumulated bits answers with the leaf's symbol. -/
theorem WalksAgree.revIn_of_leaf (h : WalksAgree codes arena root n acc paths) {sym : Byte} {w : Nat}
    (hn : arena[n]? = some (.leaf sym w)) : revIn codes acc = some sym := by
  obtain ⟨hpaths, hlookup, -, -⟩ := h
  cases hpaths with
  | leaf hn' =>
    cases hn.symm.trans hn'
    simpa using hlookup [] sym
  | internal hn' => cases hn.symm.trans hn'

/-- At a node that is no leaf it does not answer. -/
theorem WalksAgree.revIn_of_internal (h : WalksAgree codes arena root n acc paths) {w l r : Nat}
    (hn : arena[n]? = some (.internal w l r)) : revIn codes acc = none := by
  obtain ⟨hpaths, hlookup, -, -⟩ := h
  cases hpaths with
  | leaf hn' => cases hn.symm.trans hn'
  | internal =>
    refine Option.eq_none_iff_forall_ne_some.2 fun s hs => ?_
    obtain ⟨side, q, -, hcode⟩ := mem_branches.1 ((hlookup [] s).1 (by simpa using hs))
    cases hcode

theorem LeafPaths.exists_getElem? (h : LeafPaths arena n paths) : ∃ nd, arena[n]? = some nd := by
  cases h with
  | leaf hn => exact ⟨_, hn⟩
  | internal hn => exact ⟨_, hn⟩

/-- Both walks emit the same and end in the same way, from any node above the leaves. -/
theorem WalksAgree.treeWalk_eq (h : WalksAgree codes arena root n acc paths)
    (hroot : WalksAgree codes arena root root [] codes) {wr lr rr : Nat}
    (hinner : arena[root]? = some (.internal wr lr rr)) {w l r : Nat} (hn : arena[n]? = some (.internal w l r))
    (bits : Bits) : treeWalk arena root n bits =
      ((walk (revIn codes) acc bits).1, (walk (revIn codes) acc bits).2.isEmpty) := by
  induction bits generalizing n acc paths w l r with
  | nil => simp [treeWalk, walk, h.start]
  | cons b rest ih =>
    obtain ⟨below, hchild⟩ := h.child hn b
    obtain ⟨nd, hnd⟩ := hchild.tree.exists_getElem?
    cases nd with
    | leaf sym wt =>
      have hemit := hchild.revIn_of_leaf hnd
      have hrest := ih hroot hinner
      simp only [treeWalk, hn, hnd, walk, hemit, hrest]
    | internal w' l' r' =>
      have hnone := hchild.revIn_of_internal hnd
      have hrest := ih hchild hnd
      simp only [treeWalk, hn, hnd, walk, hnone, hrest]

end WalksAgree

/-! ### A tree of one leaf (R152, R216) -/

/-- Once no continuation of the accumulated bits is a code, nothing more is emitted. -/
theorem walk_of_dead {rev : Bits → Option Byte} {acc : Bits} (hdead : ∀ q, rev (acc ++ q) = none) (bits : Bits) :
    walk rev acc bits = ([], acc ++ bits) := by
  induction bits generalizing acc with
  | nil => simp [walk]
  | cons b rest ih =>
    have hnext : ∀ q, rev (acc ++ [b] ++ q) = none := fun q => by rw [List.append_assoc]; exact hdead _
    simp [walk, hdead [b], ih hnext]

theorem treeWalk_of_root_leaf {arena : List Node} {root : Nat} {sym : Byte} {w : Nat}
    (hn : arena[root]? = some (.leaf sym w)) (bits : Bits) : treeWalk arena root root bits =
      ((walk (revIn [(sym, [false])]) [] bits).1, (walk (revIn [(sym, [false])]) [] bits).2.isEmpty) := by
  induction bits with
  | nil => simp [treeWalk, walk]
  | cons b rest ih =>
    cases b with
    | false =>
      have hemit : revIn [(sym, [false])] ([] ++ [false]) = some sym := rfl
      simp only [treeWalk, hn, walk, hemit, ih, if_neg Bool.false_ne_true]
    | true =>
      have hdead : ∀ q, revIn [(sym, [false])] ([true] ++ q) = none := fun _ => rfl
      have hnone : revIn [(sym, [false])] [true] = none := rfl
      simp [treeWalk, hn, walk, hnone, walk_of_dead hdead]

/-- Settles O45: one leaf has the code "0"; of two or more, the root is no leaf and the codes are the paths. -/
theorem treeWalkEqualsTheLookup : Obligations.TreeWalkEqualsTheLookup := by
  intro table arena root bits hnd hne hbuild
  obtain ⟨arena', root', codes, hbuild', hforest, hderive, hcodes⟩ := buildTree_treeCodes hne
  obtain ⟨rfl, hroots⟩ := Prod.mk.inj (hbuild'.symm.trans hbuild)
  obtain rfl := List.singleton_inj.1 hroots
  obtain rfl : codes = codesOf table := Except.ok.inj (hderive.symm.trans (deriveCodes_of_buildTree hne hbuild))
  by_cases htwo : 2 ≤ table.length
  · have hpaths := hcodes.paths htwo
    have hlen : (codesOf table).length = table.length := by simpa using hcodes.symbols.length_eq
    obtain ⟨w, l, r, hn⟩ := hpaths.exists_internal (hlen ▸ htwo)
    have hroot := walksAgree_root (prefixCode_codesOf hnd) hpaths
    exact hroot.treeWalk_eq hroot hn hn bits
  · have hpos := List.length_pos_iff.2 hne
    obtain ⟨p, rfl⟩ := List.length_eq_one_iff.1 (show table.length = 1 by omega)
    obtain ⟨-, hroot⟩ := Prod.mk.inj hbuild'
    obtain rfl : 0 = root' := List.singleton_inj.1 hroot
    exact treeWalk_of_root_leaf (hforest.getElem?_leaf (j := 0) rfl) bits

end Sys2Proof.Machine
end

section
/-! PROOFS. A byte sequence taken apart as a Frame (R92 to R97, R200): the checks of R203 in their order, what each
outcome of `decompress` comes from (R258), and a Frame that lost the last byte of its payload (R211). -/
namespace Sys2Proof.Machine

/-! ### The symbol table (R95, R97) -/

/-- Entry `j` of the table of a Frame given as bytes. -/
abbrev entryAt (f : List Byte) (j : Nat) : Byte × Nat :=
  (f.getD (3 + 5 * j) 0#8,
    be32 (f.getD (4 + 5 * j) 0#8) (f.getD (5 + 5 * j) 0#8) (f.getD (6 + 5 * j) 0#8) (f.getD (7 + 5 * j) 0#8))

/-- The table of a Frame given as bytes, in the order of its entries. -/
abbrev entriesIn (f : List Byte) : List (Byte × Nat) := (List.range (scOf f)).map (entryAt f)

theorem map_fst_entriesIn (f : List Byte) : (entriesIn f).map Prod.fst = symbolsOf f := List.map_map ..

/-- Three bytes or more begin with the three bytes of a header (R92). -/
theorem exists_eq_cons_of_length {f : List Byte} (hlen : 3 ≤ f.length) :
    ∃ h0 h1 h2 rest, f = h0 :: h1 :: h2 :: rest := by
  match f with
  | [] | [_] | [_, _] => simp at hlen
  | h0 :: h1 :: h2 :: rest => exact ⟨h0, h1, h2, rest, rfl⟩

/-- A table of `n` entries is read entry by entry. -/
theorem tableEntries_take_cons {rest : List Byte} {n : Nat} (hlen : 5 * n ≤ rest.length) (h0 h1 h2 : Byte) :
    tableEntries (rest.take (5 * n)) = (List.range n).map (entryAt (h0 :: h1 :: h2 :: rest)) := by
  induction n generalizing rest h0 h1 h2 with
  | zero => rfl
  | succ n ih =>
    match rest, hlen with
    | s :: c0 :: c1 :: c2 :: c3 :: rest, hlen =>
      have hrest : 5 * n ≤ rest.length := by
        simp only [List.length_cons] at hlen
        omega
      have htake : (s :: c0 :: c1 :: c2 :: c3 :: rest).take (5 * (n + 1)) =
          s :: c0 :: c1 :: c2 :: c3 :: rest.take (5 * n) := rfl
      rw [htake, tableEntries, ih hrest c1 c2 c3, List.range_succ_eq_map, List.map_cons, List.map_map]
      rfl

/-- The table after the header of a Frame given as bytes. -/
theorem tableEntries_drop_take {f : List Byte} {n : Nat} (hlen : 3 + 5 * n ≤ f.length) :
    tableEntries ((f.drop 3).take (5 * n)) = (List.range n).map (entryAt f) := by
  obtain ⟨h0, h1, h2, rest, rfl⟩ := exists_eq_cons_of_length (Nat.le_of_add_right_le hlen)
  simp only [List.length_cons] at hlen
  have hrest : 5 * n ≤ rest.length := by omega
  exact tableEntries_take_cons hrest h0 h1 h2

/-! ### The header and table checks (R203) -/

/-- The fields of a Frame with a whole table (R92). -/
abbrev fieldsOf (f : List Byte) : Parsed := ⟨entriesIn f, (f.getD 2 0#8).toNat, f.drop (3 + 5 * scOf f)⟩

/-- A header and a table that pass the four checks (R203). -/
def SoundFrame (f : List Byte) : Prop :=
  3 ≤ f.length ∧ scOf f ≤ 256 ∧ 3 + 5 * scOf f ≤ f.length ∧ (symbolsOf f).Nodup

/-- The four checks in their order. -/
theorem parseFrame_eq (f : List Byte) : parseFrame f =
    if f.length < 3 then .error .hdrTrunc
    else if 256 < scOf f then .error .symcountRange
    else if f.length < 3 + 5 * scOf f then .error .tableTrunc
    else if (symbolsOf f).Nodup then .ok (fieldsOf f)
    else .error .dupSymbol := by
  match f with
  | [] | [_] | [_, _] => rfl
  | h0 :: h1 :: h2 :: rest =>
    have hsc : be16 h0 h1 = scOf (h0 :: h1 :: h2 :: rest) := rfl
    have htable : (h0 :: h1 :: h2 :: rest).length < 3 + 5 * scOf (h0 :: h1 :: h2 :: rest) ↔
        rest.length < 5 * scOf (h0 :: h1 :: h2 :: rest) := by
      simp only [List.length_cons]
      omega
    rw [parseFrame, hsc, if_neg (show ¬ (h0 :: h1 :: h2 :: rest).length < 3 by simp)]
    simp only [htable, gt_iff_lt]
    split
    · rfl
    split
    · rfl
    next hlen =>
    rw [tableEntries_take_cons (Nat.le_of_not_lt hlen) h0 h1 h2, map_fst_entriesIn, fieldsOf,
      Nat.add_comm 3]
    rfl

theorem parseFrame_ok_iff {f : List Byte} {h : Parsed} :
    parseFrame f = .ok h ↔ SoundFrame f ∧ h = fieldsOf f := by
  rw [parseFrame_eq, SoundFrame]
  split
  · next hhdr => simp [Nat.not_le.2 hhdr]
  split
  · next hsc => simp [Nat.not_le.2 hsc]
  split
  · next htab => simp [Nat.not_le.2 htab]
  next hhdr hsc htab =>
  split
  · next hnd =>
    simp [Nat.le_of_not_lt hhdr, Nat.le_of_not_lt hsc, Nat.le_of_not_lt htab, hnd, eq_comm]
  · next hdup => simp [hdup]

/-- Which check fails (R203, R258). -/
theorem parseFrame_error_iff (f : List Byte) :
    (parseFrame f = .error .hdrTrunc ↔ f.length < 3) ∧
    (parseFrame f = .error .symcountRange ↔ 3 ≤ f.length ∧ 256 < scOf f) ∧
    (parseFrame f = .error .tableTrunc ↔ 3 ≤ f.length ∧ scOf f ≤ 256 ∧ f.length < 3 + 5 * scOf f) ∧
    (parseFrame f = .error .dupSymbol ↔
      3 ≤ f.length ∧ scOf f ≤ 256 ∧ 3 + 5 * scOf f ≤ f.length ∧ ¬ (symbolsOf f).Nodup) := by
  rw [parseFrame_eq]
  by_cases hhdr : f.length < 3
  · simp [hhdr]
  have hlen := Nat.le_of_not_lt hhdr
  by_cases hsc : 256 < scOf f
  · simp [hhdr, hlen, hsc]
  have hle := Nat.le_of_not_lt hsc
  by_cases htab : f.length < 3 + 5 * scOf f
  · simp [hhdr, hlen, hsc, hle, htab]
  · have hwhole := Nat.le_of_not_lt htab
    by_cases hnd : (symbolsOf f).Nodup
    · simp [hhdr, hsc, htab, hnd]
    · simp [hhdr, hlen, hsc, hle, htab, hwhole, hnd]

/-- Bytes after a whole table are bytes of the payload (R92). -/
theorem parseFrame_append {f : List Byte} (hlen : 3 ≤ f.length) (htable : 3 + 5 * scOf f ≤ f.length)
    (more : List Byte) :
    parseFrame (f ++ more) = (parseFrame f).map fun h => { h with payload := h.payload ++ more } := by
  obtain ⟨h0, h1, h2, rest, rfl⟩ := exists_eq_cons_of_length hlen
  have hsc : scOf (h0 :: h1 :: h2 :: rest) = be16 h0 h1 := rfl
  have hrest : 5 * be16 h0 h1 ≤ rest.length := by
    rw [hsc] at htable
    simp only [List.length_cons] at htable
    omega
  simp only [List.cons_append, parseFrame, List.take_append_of_le_length hrest,
    List.drop_append_of_le_length hrest, List.length_append, if_neg (Nat.not_lt.2 hrest),
    if_neg (Nat.not_lt.2 (hrest.trans (Nat.le_add_right ..)))]
  split
  · rfl
  split <;> rfl

/-! ### LEN_CHECK and the walk (R200, R210) -/

/-- LEN_CHECK passes the fields of a Frame (R210). -/
def Parsed.LengthsMatch (h : Parsed) : Prop :=
  h.padf ≤ 7 ∧ 8 * h.payload.length = impliedLength (codesOf h.table) h.table + h.padf

/-- The bits of the payload without the pad bits (R170). -/
def Parsed.bits (h : Parsed) : Bits := (bytesBits h.payload).take (8 * h.payload.length - h.padf)

theorem Parsed.LengthsMatch.unpack {h : Parsed} (hm : h.LengthsMatch) : unpack h.payload h.padf = some h.bits := by
  obtain ⟨hpad, hlen⟩ := hm
  exact unpack_some_iff.2 ⟨hpad, by omega, rfl⟩

theorem openFrame_of_lengthsMatch {f : List Byte} {h : Parsed} (hf : parseFrame f = .ok h)
    (hm : h.LengthsMatch) : openFrame f = .ok (codesOf h.table, h.bits) := by
  have hbits := hm.unpack
  obtain ⟨hpad, hlen⟩ := hm
  exact openFrame_of_parseFrame hf hpad hlen hbits

theorem openFrame_of_not_lengthsMatch {f : List Byte} {h : Parsed} (hf : parseFrame f = .ok h)
    (hm : ¬ h.LengthsMatch) : openFrame f = .error .lenMismatch := by
  have hfail : h.padf > 7 ∨ 8 * h.payload.length ≠ impliedLength (codesOf h.table) h.table + h.padf := by
    rw [Parsed.LengthsMatch] at hm
    omega
  simp only [openFrame, hf, if_pos hfail]

theorem decompress_of_openFrame_error {f : List Byte} {c : ErrCause} (hf : openFrame f = .error c) :
    decompress f = .error c := by
  simp only [decompress, hf]

theorem decompress_of_parseFrame_error {f : List Byte} {c : ErrCause} (hf : parseFrame f = .error c) :
    decompress f = .error c :=
  decompress_of_openFrame_error (by simp only [openFrame, hf])

theorem decompress_of_not_lengthsMatch {f : List Byte} {h : Parsed} (hf : parseFrame f = .ok h)
    (hm : ¬ h.LengthsMatch) : decompress f = .error .lenMismatch :=
  decompress_of_openFrame_error (openFrame_of_not_lengthsMatch hf hm)

/-- A Frame that passes all checks decodes to what the walk emits, or has bits left over (R200). -/
theorem decompress_of_lengthsMatch {f : List Byte} {h : Parsed} (hf : parseFrame f = .ok h)
    (hm : h.LengthsMatch) : decompress f =
      if (walk (revIn (codesOf h.table)) [] h.bits).2 = [] then .ok (walk (revIn (codesOf h.table)) [] h.bits).1
      else .error .trailingBits := by
  simp only [decompress, openFrame_of_lengthsMatch hf hm, ne_eq, ite_not]

/-- A cause that is neither LEN_CHECK's nor the walk's is one of the header and the table. -/
theorem decompress_error_iff_parseFrame {f : List Byte} {c : ErrCause} (hlen : c ≠ .lenMismatch)
    (hwalk : c ≠ .trailingBits) : decompress f = .error c ↔ parseFrame f = .error c := by
  refine ⟨fun hdec => ?_, decompress_of_parseFrame_error⟩
  cases hf : parseFrame f with
  | error e =>
    rw [decompress_of_parseFrame_error hf] at hdec
    cases hdec
    rfl
  | ok h =>
    by_cases hm : h.LengthsMatch
    · rw [decompress_of_lengthsMatch hf hm] at hdec
      split at hdec <;> cases hdec
      exact absurd rfl hwalk
    · rw [decompress_of_not_lengthsMatch hf hm] at hdec
      cases hdec
      exact absurd rfl hlen

/-- Settles O60: each of the four causes is the outcome of one branch of the checks. -/
theorem decompressChecksInOrder : Obligations.DecompressChecksInOrder := by
  intro f
  rw [decompress_error_iff_parseFrame (c := .hdrTrunc) (by decide) (by decide),
    decompress_error_iff_parseFrame (c := .symcountRange) (by decide) (by decide),
    decompress_error_iff_parseFrame (c := .tableTrunc) (by decide) (by decide),
    decompress_error_iff_parseFrame (c := .dupSymbol) (by decide) (by decide)]
  exact parseFrame_error_iff f

/-- A Frame of which a whole table is left has the fields of what is left, with a longer payload. -/
theorem parseFrame_of_append {f more : List Byte} {h : Parsed} (hlen : 3 ≤ f.length)
    (htable : 3 + 5 * scOf f ≤ f.length) (hf : parseFrame (f ++ more) = .ok h) :
    ∃ h', parseFrame f = .ok h' ∧ h = { h' with payload := h'.payload ++ more } := by
  rw [parseFrame_append hlen htable] at hf
  cases hparse : parseFrame f with
  | error e =>
    rw [hparse] at hf
    cases hf
  | ok h' =>
    rw [hparse] at hf
    cases hf
    exact ⟨h', rfl, rfl⟩

theorem scOf_append {f : List Byte} (hlen : 3 ≤ f.length) (more : List Byte) : scOf (f ++ more) = scOf f := by
  rw [scOf, scOf, List.getD_append _ _ _ _ (by omega), List.getD_append _ _ _ _ (by omega)]

/-- Settles O55: the shorter Frame has the same header and table, and its payload is 8 bits too short. -/
theorem truncatedPayloadIsDetected : Obligations.TruncatedPayloadIsDetected := by
  intro f y hdec hpay
  have hne : f ≠ [] := List.ne_nil_of_length_pos (Nat.zero_lt_of_lt hpay)
  obtain ⟨r, hopen⟩ := openFrame_of_decompress hdec
  obtain ⟨h, hparse, hcodes, -, hmatch, -⟩ := openFrame_ok (codes := r.1) (bs := r.2) hopen
  rw [← List.dropLast_append_getLast hne] at hparse hpay
  have hlen : 3 + 5 * scOf (f.dropLast ++ [f.getLast hne]) ≤ f.dropLast.length := by
    simpa [Nat.lt_succ_iff] using hpay
  have hsc := scOf_append (f := f.dropLast) (by omega) [f.getLast hne]
  obtain ⟨h', hparse', rfl⟩ := parseFrame_of_append (by omega) (hsc ▸ hlen) hparse
  refine decompress_of_not_lengthsMatch hparse' fun ⟨hpad, hlen'⟩ => ?_
  simp only [hcodes, List.length_append, List.length_singleton] at hmatch
  omega

end Sys2Proof.Machine
end

section
/-! PROOFS. The decoder's own phases (R204 to R219): FRAME_PARSE reads what `parseFrame` does, LEN_CHECK compares the
lengths, DEC_WALK leaves the symbols in OBUF. -/
namespace Sys2Proof.Machine

theorem raises_raise {s : State} (hop : s.op = opDecompress) (c : ErrCause) : Raises c s (s.raise c) := ⟨hop, rfl⟩

/-- What the host sees of the error entry from a phase of DECOMPRESS (R262). -/
theorem exists_raise {s : State} {r : Result} {c : ErrCause} (hop : s.op = opDecompress) (h : r = .next (s.raise c)) :
    ∃ t, r = .next t ∧ EndedInError c t ∧ KeepsInput s t :=
  ⟨_, h, (raises_raise hop c).endedInError, (raises_raise hop c).keepsInput.1⟩

/-! ### LEN_CHECK (R210) -/

/-- Settles O40: the pad length is the only number below 8 that fills up whole bytes, and then their number is
fixed. -/
theorem lenCheckMeansTheEncodersLengths : Obligations.LenCheckMeansTheEncodersLengths := by
  intro payLen padf tExp
  constructor
  · rintro ⟨hpad, hlen⟩
    exact ⟨by omega, eq_padOf (Nat.lt_succ_of_le hpad) hlen⟩
  · rintro ⟨hpay, rfl⟩
    have hlt := padOf_lt tExp
    obtain ⟨n, hn⟩ := dvd_add_padOf tExp
    omega

theorem exec_lenCheck_of_match {s : State} {table : List (Byte × Nat)} {tExp : Nat} (hop : s.op = opDecompress)
    (htable : s.work.table = .ok table) (hbits : s.work.impliedBits table = .ok tExp)
    (hmatch : s.work.padf ≤ 7 ∧ 8 * s.work.payLen = tExp + s.work.padf) :
    exec .lenCheck s = .next (s.advance { s.work with tExp := tExp } phaseBpUnpack) := by
  obtain ⟨hpad, hlen⟩ := hmatch
  show execLenCheck s = _
  rw [execLenCheck, underOp_of_mem (by simp [Instr.opValues, hop]), htable]
  simp only [hbits, if_neg (Nat.not_lt.2 hpad), if_neg (not_not.2 hlen)]

theorem exec_lenCheck_of_not_match {s : State} {table : List (Byte × Nat)} {tExp : Nat} (hop : s.op = opDecompress)
    (htable : s.work.table = .ok table) (hbits : s.work.impliedBits table = .ok tExp)
    (hmatch : ¬ (s.work.padf ≤ 7 ∧ 8 * s.work.payLen = tExp + s.work.padf)) :
    exec .lenCheck s = .next (s.raise .lenMismatch) := by
  show execLenCheck s = _
  rw [execLenCheck, underOp_of_mem (by simp [Instr.opValues, hop]), htable]
  simp only [hbits]
  split
  · rfl
  next hpad => exact if_pos fun hlen => hmatch ⟨Nat.le_of_not_lt hpad, hlen⟩

/-- Settles O39: the sum over the table is `T_EXP`, and the two comparisons decide. -/
theorem lenCheckComparesTheLengths : Obligations.LenCheckComparesTheLengths := by
  intro s table tExp hop htable hvalid htExp
  have hbits : s.work.impliedBits table = .ok tExp := htExp ▸ Work.impliedBits_of_valid hvalid
  refine ⟨fun hmatch => ?_, fun hmatch => exists_raise hop (exec_lenCheck_of_not_match hop htable hbits hmatch)⟩
  have hcont := continues_advance (s := s) (p := phaseBpUnpack) (by rw [hop]; decide) { s.work with tExp := tExp }
  exact ⟨_, exec_lenCheck_of_match hop htable hbits hmatch, rfl, rfl, hcont.keepsHostSide⟩

/-! ### DEC_WALK (R214, R219) -/

theorem exec_decWalk_of_clean {s : State} {out : List Byte} (hop : s.op = opDecompress)
    (hwalk : walk s.work.rev [] s.work.bits = (out, [])) (hroom : out.length ≤ s.params.obufCap.val) :
    exec .decWalk s = .next (s.endedWith out) := by
  have hwrite := State.memWrite_some_iff.2 ⟨(Nat.zero_add out.length).trans_le hroom, rfl⟩
  show execDecWalk s = _
  rw [execDecWalk, underOp_of_mem (by simp [Instr.opValues, hop]), hwalk]
  simp only [hwrite]
  rfl

theorem exec_decWalk_of_trailing {s : State} {out : List Byte} {acc : Bits} (hop : s.op = opDecompress)
    (hwalk : walk s.work.rev [] s.work.bits = (out, acc)) (hroom : out.length ≤ s.params.obufCap.val)
    (hacc : acc ≠ []) : exec .decWalk s = .next (s.raise .trailingBits) := by
  have hwrite := State.memWrite_some_iff.2 ⟨(Nat.zero_add out.length).trans_le hroom, rfl⟩
  show execDecWalk s = _
  rw [execDecWalk, underOp_of_mem (by simp [Instr.opValues, hop]), hwalk]
  simp only [hwrite, if_pos hacc]
  rfl

/-- Settles O42: a walk that leaves nothing over ends the operation with what it emitted, any other raises. -/
theorem decWalkEmitsOrRaises : Obligations.DecWalkEmitsOrRaises := by
  intro s out acc hop hwalk hroom hwf
  refine ⟨?_, fun hacc => ?_⟩
  · rintro rfl
    have hends := ends_endedWith hroom
    exact ⟨_, exec_decWalk_of_clean hop hwalk hroom, hends.endedWell, State.endedWith_outLen hroom,
      State.endedWith_output hwf hroom, hends.keepsInput⟩
  · have hraises := raises_raise hop .trailingBits
    exact ⟨_, exec_decWalk_of_trailing hop hwalk hroom hacc, hraises.endedInError, hraises.keepsInput⟩

/-! ### The table FRAME_PARSE reads (R204, R206) -/

/-- The frequency registers hold the entries `es` of a Frame's table (R29, R204). -/
structure Work.Lists (order : List Byte) (present : SymTable Bool) (count : SymTable Nat) (es : List (Byte × Nat)) :
    Prop where
  order : order.take es.length = es.map Prod.fst
  present : ∀ b : Byte, SymTable.at present b = decide (b ∈ es.map Prod.fst)
  count : ∀ p ∈ es, SymTable.at count p.1 = p.2

/-- One iteration of the loop, for a symbol not seen before. -/
theorem Work.Lists.concat {w : Work} {es : List (Byte × Nat)} (h : Work.Lists w.order w.present w.count es)
    {p : Byte × Nat} (hp : p.1 ∉ es.map Prod.fst) : Work.Lists (w.setOrder es.length p.1).order
      (SymTable.put w.present p.1 true) (SymTable.put w.count p.1 p.2) (es ++ [p]) := by
  obtain ⟨horder, hpresent, hcount⟩ := h
  refine ⟨?_, fun b => ?_, fun q hq => ?_⟩
  · rw [Work.setOrder_order, horder, List.map_append, List.map_singleton]
    exact List.take_of_length_le (by simp)
  · rw [SymTable.at_put, hpresent]
    by_cases hb : p.1 = b <;> simp [hb, Ne.symm]
  · rw [SymTable.at_put]
    obtain hq | hq := List.mem_append.1 hq
    · rw [if_neg fun heq : p.1 = q.1 => hp (heq ▸ List.mem_map_of_mem hq), hcount q hq]
    · rw [List.mem_singleton.1 hq, if_pos rfl]

/-- The registers after one iteration of the loop, for the entry `p` as entry `j` (R204). -/
def Work.withEntry (w : Work) (j : Nat) (p : Byte × Nat) : Work :=
  { w.setOrder j p.1 with present := SymTable.put w.present p.1 true, count := SymTable.put w.count p.1 p.2 }

theorem Work.addEntries_cons (w : Work) (j : Nat) (p : Byte × Nat) (rest : List (Byte × Nat)) :
    w.addEntries j (p :: rest) =
      if SymTable.at w.present p.1 then none else (w.withEntry j p).addEntries (j + 1) rest := rfl

/-- The loop from a table that holds the entries `es`, when no symbol occurs twice. -/
theorem Work.Lists.addEntries_of_nodup {w : Work} {es : List (Byte × Nat)}
    (h : Work.Lists w.order w.present w.count es) {more : List (Byte × Nat)}
    (hnd : ((es ++ more).map Prod.fst).Nodup) : ∃ w', w.addEntries es.length more = some w' ∧
      Work.Lists w'.order w'.present w'.count (es ++ more) := by
  induction more generalizing w es with
  | nil => exact ⟨w, rfl, by simpa using h⟩
  | cons p more ih =>
    have hp : p.1 ∉ es.map Prod.fst := fun hmem => by
      rw [List.map_append, List.map_cons] at hnd
      exact List.disjoint_of_nodup_append hnd hmem List.mem_cons_self
    rw [List.append_cons] at hnd ⊢
    obtain ⟨w', hadd, hlists⟩ := ih (w := w.withEntry es.length p) (h.concat hp) hnd
    rw [List.length_append] at hadd
    exact ⟨w', by rwa [Work.addEntries_cons, if_neg (by simpa [h.present] using hp)], hlists⟩

/-- It stops at the first symbol seen before (R207). -/
theorem Work.Lists.addEntries_of_dup {w : Work} {es : List (Byte × Nat)}
    (h : Work.Lists w.order w.present w.count es) (hnd : (es.map Prod.fst).Nodup) {more : List (Byte × Nat)}
    (hdup : ¬ ((es ++ more).map Prod.fst).Nodup) : w.addEntries es.length more = none := by
  induction more generalizing w es with
  | nil => exact absurd (by simpa using hnd) hdup
  | cons p more ih =>
    rw [Work.addEntries_cons, h.present]
    by_cases hp : p.1 ∈ es.map Prod.fst
    · exact if_pos (decide_eq_true hp)
    · rw [List.append_cons] at hdup
      have hrest := ih (w := w.withEntry es.length p) (h.concat hp)
        (by simpa using hnd.concat hp) hdup
      rw [List.length_append] at hrest
      rwa [if_neg (by simpa using hp)]

theorem Work.lists_nil {w : Work} (hp : ∀ b : Byte, SymTable.at w.present b = false) :
    Work.Lists w.order w.present w.count [] where
  order := rfl
  present := by simpa using hp
  count := by simp

/-! ### The Frame in IBUF (R66, R92, R95) -/

/-- A part of the input as the block reads it (R26, R66). -/
theorem State.ibufBytes_eq_drop_take {s : State} {a n : Nat} (h : a + n ≤ s.inLen.toNat) :
    s.ibufBytes a n = (s.input.drop a).take n := by
  refine List.ext_getElem (by simp [State.input]; omega) fun i hi _ => ?_
  simp [State.input, State.ibufBytes]

theorem State.input_length (s : State) : s.input.length = s.inLen.toNat := State.ibufBytes_length s 0 _

theorem State.getD_input {s : State} {a : Nat} (ha : a < s.inLen.toNat) : s.input.getD a 0#8 = s.ibufByte a := by
  simp [State.input, State.ibufBytes, ha]

theorem State.scOf_input {s : State} (h : 3 ≤ s.inLen.toNat) : scOf s.input = s.frameSc := by
  rw [scOf, State.getD_input (by omega), State.getD_input (by omega)]

theorem State.entryAt_input {s : State} {j : Nat} (hj : 7 + 5 * j < s.inLen.toNat) :
    entryAt s.input j = (s.frameSymbol j, s.frameCount j) := by
  have hbyte {a : Nat} (ha : a ≤ 7 + 5 * j) := State.getD_input (ha.trans_lt hj)
  rw [entryAt, hbyte (a := 3 + 5 * j) (by omega), hbyte (a := 4 + 5 * j) (by omega),
    hbyte (a := 5 + 5 * j) (by omega), hbyte (a := 6 + 5 * j) (by omega), hbyte le_rfl]

/-- The entries of the Frame in IBUF (R95). -/
theorem State.entriesIn_input {s : State} (h : 3 + 5 * s.frameSc ≤ s.inLen.toNat) :
    entriesIn s.input = (List.range s.frameSc).map fun j => (s.frameSymbol j, s.frameCount j) := by
  rw [entriesIn, State.scOf_input (by omega)]
  refine List.map_congr_left fun j hj => State.entryAt_input ?_
  have hlt := List.mem_range.1 hj
  omega

theorem State.entriesIn_input_length {s : State} (h : 3 ≤ s.inLen.toNat) :
    (entriesIn s.input).length = s.frameSc := by
  rw [entriesIn, List.length_map, List.length_range, State.scOf_input h]

theorem State.entriesIn_input_eq_nil_iff {s : State} (h : 3 ≤ s.inLen.toNat) :
    entriesIn s.input = [] ↔ s.frameSc = 0 := by
  rw [← List.length_eq_zero_iff, State.entriesIn_input_length h]

theorem State.symbolsOf_input {s : State} (h : 3 + 5 * s.frameSc ≤ s.inLen.toNat) :
    symbolsOf s.input = s.frameSymbols := by
  rw [← map_fst_entriesIn, State.entriesIn_input h, List.map_map]
  rfl

/-- The two reads of the header (R66, R204). -/
theorem State.memRead_header {s : State} (hlen : s.inLen.toNat ≤ s.params.ibufCap.val) (h : 3 ≤ s.inLen.toNat) :
    s.memRead 0 2 = .ok [s.ibufByte 0, s.ibufByte 1] ∧ s.memRead 2 1 = .ok [s.ibufByte 2] :=
  ⟨State.memRead_ok_iff.2 ⟨by omega, by omega, rfl⟩, State.memRead_ok_iff.2 ⟨by omega, by omega, rfl⟩⟩

/-- The read of the table (R66, R204). -/
theorem State.memRead_table {s : State} (hlen : s.inLen.toNat ≤ s.params.ibufCap.val)
    (h : 3 + 5 * s.frameSc ≤ s.inLen.toNat) :
    ∃ tab, s.memRead 3 (5 * s.frameSc) = .ok tab ∧ tableEntries tab = entriesIn s.input := by
  refine ⟨_, State.memRead_ok_iff.2 ⟨h, h.trans hlen, rfl⟩, ?_⟩
  rw [State.ibufBytes_eq_drop_take h, tableEntries_drop_take (by rwa [State.input_length]), entriesIn,
    State.scOf_input (by omega)]

/-! ### FRAME_PARSE (R203, R204) -/

/-- The working registers hold the fields of the Frame `h` (R204). -/
structure Work.HoldsFrame (w : Work) (h : Parsed) : Prop where
  sc : w.sc = h.table.length
  k : w.k = h.table.length
  padf : w.padf = h.padf
  payOff : w.payOff = 3 + 5 * h.table.length
  payLen : w.payLen = h.payload.length
  lists : Work.Lists w.order w.present w.count h.table

/-- The table reads as the Frame's (R29). -/
theorem Work.HoldsFrame.table {w : Work} {h : Parsed} (hw : w.HoldsFrame h) : w.table = .ok h.table := by
  obtain ⟨-, hk, -, -, -, horder, hpresent, hcount⟩ := hw
  refine Work.table_ok_iff.2 ⟨?_, fun b hb => ?_, ?_⟩
  · have hlen := congrArg List.length horder
    rw [List.length_take, List.length_map] at hlen
    omega
  · rw [hk, horder] at hb
    rw [hpresent, decide_eq_true hb]
  · rw [hk, horder, List.map_map]
    exact (List.map_id _).symm.trans (List.map_congr_left fun p hp => Prod.ext rfl (hcount p hp).symm)

/-- FRAME_PARSE raises the cause `parseFrame` reports (R203). -/
theorem exec_frameParse_of_error {s : State} {c : ErrCause} (hop : s.op = opDecompress)
    (hlen : s.inLen.toNat ≤ s.params.ibufCap.val) (hpresent : ∀ b : Byte, SymTable.at s.work.present b = false)
    (hparse : parseFrame s.input = .error c) : exec .frameParse s = .next (s.raise c) := by
  show execFrameParse s = _
  rw [execFrameParse, underOp_of_mem (by simp [Instr.opValues, hop])]
  rw [parseFrame_eq, State.input_length] at hparse
  by_cases hhdr : s.inLen.toNat < 3
  · rw [if_pos hhdr] at hparse
    cases hparse
    exact if_pos hhdr
  obtain ⟨hread, hread'⟩ := State.memRead_header hlen (Nat.le_of_not_lt hhdr)
  rw [if_neg hhdr, State.scOf_input (Nat.le_of_not_lt hhdr)] at hparse
  rw [if_neg hhdr]
  simp only [hread, hread']
  split at hparse
  · next hsc =>
    cases hparse
    exact if_pos hsc
  next hsc =>
  rw [if_neg hsc]
  split at hparse
  · next htab =>
    cases hparse
    exact if_pos htab
  next htab =>
  rw [if_neg htab]
  split at hparse <;> cases hparse
  next hdup =>
  obtain ⟨tab, hread, hentries⟩ := State.memRead_table hlen (Nat.le_of_not_lt htab)
  have hadd := (Work.lists_nil hpresent).addEntries_of_dup .nil (more := entriesIn s.input)
    (by rwa [List.nil_append, map_fst_entriesIn])
  rw [List.length_nil] at hadd
  simp only [hread, hentries, hadd]

/-- FRAME_PARSE reads the fields `parseFrame` takes apart; an empty table skips to LEN_CHECK with `T_EXP = 0`
(R204, R209). -/
theorem exec_frameParse_of_ok {s : State} {h : Parsed} (hop : s.op = opDecompress)
    (hlen : s.inLen.toNat ≤ s.params.ibufCap.val) (hpresent : ∀ b : Byte, SymTable.at s.work.present b = false)
    (hparse : parseFrame s.input = .ok h) : ∃ t, exec .frameParse s = .next t ∧ t.work.HoldsFrame h ∧
      t.phase = (if h.table = [] then phaseLenCheck else phaseTreeBuild) ∧
      t.work.tExp = (if h.table = [] then 0 else s.work.tExp) := by
  obtain ⟨⟨hhdr, hsc, hwhole, hnd⟩, rfl⟩ := parseFrame_ok_iff.1 hparse
  rw [State.input_length] at hhdr hwhole
  rw [State.scOf_input hhdr] at hsc hwhole
  have hrows := State.entriesIn_input_length hhdr
  have hpadf := State.getD_input hhdr
  obtain ⟨hread, hread'⟩ := State.memRead_header hlen hhdr
  obtain ⟨tab, htab, hentries⟩ := State.memRead_table hlen hwhole
  obtain ⟨w, hadd, hlists⟩ := (Work.lists_nil hpresent).addEntries_of_nodup (more := entriesIn s.input)
    (by rwa [List.nil_append, map_fst_entriesIn])
  rw [List.length_nil] at hadd
  rw [List.nil_append] at hlists
  have hempty := State.entriesIn_input_eq_nil_iff hhdr
  have hpay : s.inLen.toNat - (3 + 5 * s.frameSc) = (fieldsOf s.input).payload.length := by
    simp [State.input_length, State.scOf_input hhdr]
  have htExp : w.tExp = s.work.tExp := by
    obtain ⟨order, present, count, rfl⟩ := Work.addEntries_frame hadd
    rfl
  show ∃ t, execFrameParse s = _ ∧ _
  rw [execFrameParse, underOp_of_mem (by simp [Instr.opValues, hop]), if_neg (Nat.not_lt.2 hhdr)]
  simp only [hread, hread', if_neg (Nat.not_lt.2 hsc), if_neg (Nat.not_lt.2 hwhole), htab, hentries, hadd, hempty]
  by_cases hzero : s.frameSc = 0
  · simp only [if_pos hzero]
    exact ⟨_, rfl, ⟨hrows.symm, hrows.symm, hpadf.symm ▸ rfl, hrows.symm ▸ rfl, hpay, hlists⟩, rfl, rfl⟩
  · simp only [if_neg hzero]
    exact ⟨_, rfl, ⟨hrows.symm, hrows.symm, hpadf.symm ▸ rfl, hrows.symm ▸ rfl, hpay, hlists⟩, rfl, htExp⟩

/-- Settles O38: each failing check of `parseFrame` is raised by the phase. -/
theorem frameParseRaisesTheFirstFailure : Obligations.FrameParseRaisesTheFirstFailure := by
  intro s hop hlen hpresent
  have hraise {c : ErrCause} (hc : parseFrame s.input = .error c) :=
    exists_raise hop (exec_frameParse_of_error hop hlen hpresent hc)
  obtain ⟨hhdr, hsc, htab, hdup⟩ := parseFrame_error_iff s.input
  rw [State.input_length] at hhdr hsc htab hdup
  refine ⟨fun h => hraise (hhdr.2 h), fun h3 h => hraise (hsc.2 ⟨h3, ?_⟩), fun h3 hle h => hraise (htab.2 ⟨h3, ?_⟩),
    fun h3 hle hwhole h => hraise (hdup.2 ⟨h3, ?_⟩)⟩
  · rwa [State.scOf_input h3]
  · rw [State.scOf_input h3]
    exact ⟨hle, h⟩
  · rw [State.scOf_input h3, State.symbolsOf_input hwhole]
    exact ⟨hle, hwhole, h⟩

/-- Settles O37: the fields `parseFrame` takes apart are those of the Frame in IBUF. -/
theorem frameParseReadsHeaderAndTable : Obligations.FrameParseReadsHeaderAndTable := by
  intro s hop hlen hhdr hsc hwhole hnd hpresent
  have hscIn := State.scOf_input hhdr
  have hentries := State.entriesIn_input hwhole
  have hsymbols := State.symbolsOf_input hwhole
  have hsound : SoundFrame s.input := by
    rw [SoundFrame, State.input_length, hscIn, hsymbols]
    exact ⟨hhdr, hsc, hwhole, hnd⟩
  obtain ⟨t, hexec, ⟨htsc, htk, htpadf, htoff, htlen, horder, hpresent', hcount⟩, hphase, htExp⟩ :=
    exec_frameParse_of_ok hop hlen hpresent (parseFrame_ok_iff.2 ⟨hsound, rfl⟩)
  have hrows := State.entriesIn_input_length hhdr
  have hempty := State.entriesIn_input_eq_nil_iff hhdr
  simp only [hrows, hempty, map_fst_entriesIn, hsymbols] at htsc htk htoff horder hpresent' hphase htExp
  have hbusy : t.phase ≠ phaseIdle := by
    rw [hphase]
    split <;> decide
  obtain ⟨hcont, hframe⟩ := (execFrameParse_next hexec).resolve_right fun ⟨_, hc⟩ => not_raises_of_phase hbusy hc
  refine ⟨t, hexec, htsc, htk, ?_, htoff, ?_, horder, hpresent', fun j hj => ?_, fun hzero => ?_, fun hpos => ?_,
    hcont.keepsHostSide, hframe⟩
  · exact htpadf.trans (congrArg BitVec.toNat (State.getD_input hhdr))
  · rw [htlen, List.length_drop, State.input_length, hscIn]
  · have hentry : (s.frameSymbol j, s.frameCount j) ∈ entriesIn s.input := by
      rw [hentries]
      exact List.mem_map.2 ⟨j, List.mem_range.2 hj, rfl⟩
    exact hcount _ hentry
  · rw [htExp, hphase, if_pos hzero, if_pos hzero]
    exact ⟨rfl, rfl⟩
  · rw [htExp, hphase, if_neg hpos, if_neg hpos]
    exact ⟨rfl, rfl⟩

end Sys2Proof.Machine
end

section
/-! PROOFS. A DECOMPRESS that may start runs to its result or to its error (R200, R202, R219, R233, R237, R262): what
each phase of the decoder leaves for the next. -/
namespace Sys2Proof.Machine

/-! ### The tables the phases hand on (R29, R34) -/

/-- The code table holds exactly the codes of a frequency table (R34, R150). -/
structure Work.HoldsCodes (w : Work) (table : List (Byte × Nat)) : Prop where
  codes : w.HasCodes (codesOf table) (table.map Prod.fst)
  only : ∀ b : Byte, SymTable.at w.codeValid b = true → b ∈ table.map Prod.fst

theorem Work.HoldsFrame.of_same {w w' : Work} {h : Parsed} (hw : w.HoldsFrame h) (hsc : w'.sc = w.sc)
    (hk : w'.k = w.k) (hpadf : w'.padf = w.padf) (hoff : w'.payOff = w.payOff) (hlen : w'.payLen = w.payLen)
    (horder : w'.order = w.order) (hpresent : w'.present = w.present) (hcount : w'.count = w.count) :
    w'.HoldsFrame h := by
  obtain ⟨hwsc, hwk, hwpadf, hwoff, hwlen, hlists⟩ := hw
  refine ⟨hsc.trans hwsc, hk.trans hwk, hpadf.trans hwpadf, hoff.trans hwoff, hlen.trans hwlen, ?_⟩
  rwa [horder, hpresent, hcount]

theorem table_nodup_of_parseFrame {f : List Byte} {h : Parsed} (hparse : parseFrame f = .ok h) :
    (h.table.map Prod.fst).Nodup := by
  obtain ⟨⟨-, -, -, hnd⟩, rfl⟩ := parseFrame_ok_iff.1 hparse
  rwa [map_fst_entriesIn]

/-- CB_DERIVE's loop, from a table with no code valid (R51, R150). -/
theorem Work.holdsCodes_foldl_assign {table : List (Byte × Nat)} (hnd : (table.map Prod.fst).Nodup) {w : Work}
    (hvalid : ∀ b : Byte, SymTable.at w.codeValid b = false) :
    ((codesOf table).foldl Work.assign w).HoldsCodes table where
  codes := Work.hasCodes_foldl_assign (prefixCode_codesOf hnd).symbols w fun _ hb => (mem_symbols_codesOf hnd).2 hb
  only b hb := by
    rw [Work.foldl_assign_codeValid, hvalid] at hb
    exact (mem_symbols_codesOf hnd).1 (hb.resolve_left Bool.false_ne_true)

/-- An empty table has no codes (R209). -/
theorem Work.holdsCodes_nil {w : Work} (hvalid : ∀ b : Byte, SymTable.at w.codeValid b = false) :
    w.HoldsCodes [] :=
  Work.holdsCodes_foldl_assign (table := []) .nil hvalid

/-- The sum of LEN_CHECK (R210). -/
theorem Work.HoldsCodes.impliedBits {w : Work} {table : List (Byte × Nat)} (hw : w.HoldsCodes table) :
    w.impliedBits table = .ok (impliedLength (codesOf table) table) := by
  obtain ⟨hvalid, -, hlength⟩ := hw.codes
  have hsum : table.map (fun p => p.2 * SymTable.at w.codeLen p.1) =
      table.map fun p => p.2 * (codeIn (codesOf table) p.1).length :=
    List.map_congr_left fun p hp => by rw [hlength p.1 (List.mem_map_of_mem hp)]
  rw [Work.impliedBits_of_valid fun p hp => hvalid p.1 (List.mem_map_of_mem hp), hsum, impliedLength]

/-- The codes are the same in a working state with the same code registers (R34). -/
theorem Work.HoldsCodes.of_same {w w' : Work} {table : List (Byte × Nat)} (hw : w.HoldsCodes table)
    (hvalid : w'.codeValid = w.codeValid) (hlen : w'.codeLen = w.codeLen) (hcode : w'.code = w.code) :
    w'.HoldsCodes table := by
  obtain ⟨⟨hv, hc, hl⟩, honly⟩ := hw
  exact ⟨⟨hvalid ▸ hv, hcode ▸ hc, hlen ▸ hl⟩, hvalid ▸ honly⟩

theorem mem_allSymbols (b : Byte) : b ∈ allSymbols :=
  List.mem_map.2 ⟨b.toNat, List.mem_range.2 b.isLt, by simp⟩

/-- `REV` answers only with a symbol whose valid code this is (R34). -/
theorem Work.valid_of_rev {w : Work} {p : Bits} {b : Byte} (h : w.rev p = some b) :
    SymTable.at w.codeValid b = true ∧ SymTable.at w.code b = p := by
  simpa using List.find?_some (p := fun b => SymTable.at w.codeValid b && SymTable.at w.code b == p) h

theorem Work.exists_rev_of_valid {w : Work} {b : Byte} (h : SymTable.at w.codeValid b = true) :
    ∃ c, w.rev (SymTable.at w.code b) = some c :=
  Option.isSome_iff_exists.1 (List.find?_isSome.2 ⟨b, mem_allSymbols b, by simp [h]⟩)

/-- The valid codes are those of the table. -/
theorem Work.HoldsCodes.mem_codesOf {w : Work} {table : List (Byte × Nat)} (hw : w.HoldsCodes table)
    (hnd : (table.map Prod.fst).Nodup) {p : Bits} {b : Byte} :
    (b, p) ∈ codesOf table ↔ SymTable.at w.codeValid b = true ∧ SymTable.at w.code b = p := by
  obtain ⟨⟨hvalid, hcode, -⟩, honly⟩ := hw
  have hsymbols := (prefixCode_codesOf hnd).symbols
  constructor
  · intro hmem
    have hb := (mem_symbols_codesOf hnd).1 (List.mem_map_of_mem hmem)
    exact ⟨hvalid b hb, (hcode b hb).trans (codeIn_of_mem hsymbols hmem)⟩
  · rintro ⟨hb, rfl⟩
    obtain ⟨a, ha, rfl⟩ := List.mem_map.1 ((mem_symbols_codesOf hnd).2 (honly b hb))
    rwa [hcode _ (honly _ hb), codeIn_of_mem hsymbols ha]

/-- `REV` answers exactly with the symbols of the table, at their codes (R34). -/
theorem Work.HoldsCodes.rev_eq_some_iff {w : Work} {table : List (Byte × Nat)} (hw : w.HoldsCodes table)
    (hnd : (table.map Prod.fst).Nodup) {p : Bits} {b : Byte} : w.rev p = some b ↔ (b, p) ∈ codesOf table := by
  refine ⟨fun hb => (hw.mem_codesOf hnd).2 (Work.valid_of_rev hb), fun hmem => ?_⟩
  obtain ⟨hb, rfl⟩ := (hw.mem_codesOf hnd).1 hmem
  obtain ⟨c, hc⟩ := Work.exists_rev_of_valid hb
  have hmem' := (hw.mem_codesOf hnd).2 (Work.valid_of_rev hc)
  cases (prefixCode_codesOf hnd).prefixFree _ hmem' _ hmem List.prefix_rfl
  exact hc

theorem Work.HoldsCodes.rev {w : Work} {table : List (Byte × Nat)} (hw : w.HoldsCodes table)
    (hnd : (table.map Prod.fst).Nodup) : w.rev = revIn (codesOf table) := by
  funext p
  ext b
  rw [hw.rev_eq_some_iff hnd, (prefixCode_codesOf hnd).revIn_eq_some_iff]

/-! ### Runs that may end early in an error (R202, R262) -/

/-- What the host sees at the end of an operation with the result `r`: the bytes (R219) or the error (R262). -/
def Decompressed : Except ErrCause (List Byte) → State → Prop
  | .ok y, t => t.status = 0x02#8 ∧ t.errKind = 0x00#8 ∧ t.errCause = 0x00#8 ∧ t.op = 0x00#8 ∧
      t.outLen.toNat = y.length ∧ t.output = y
  | .error c, t => t.status = 0x06#8 ∧ t.errKind = c.kind.code ∧ t.errCause = c.code ∧ t.op = 0x00#8 ∧
      t.outLen = 0#64

/-- The sequencer runs through the phases of the list to the result `r`; an error may end the run earlier. -/
def RunsTo (r : Except ErrCause (List Byte)) (ps : List (BitVec 4)) (s : State) : Prop :=
  ∃ qs, RunsThrough (Decompressed r) qs s ∧ qs.length ≤ ps.length ∧ ∀ y, r = .ok y → qs = ps

/-! ### A DECOMPRESS in progress -/

/-- The host's side of a DECOMPRESS of `f` in progress, in the phase `p` (R233). -/
structure Decompressing (f : List Byte) (p : BitVec 4) (s : State) : Prop where
  busy : BusyState s
  op : s.op = opDecompress
  phase : s.phase = p
  input : s.input = f
  inLen : s.inLen.toNat ≤ s.params.ibufCap.val
  obuf : s.obuf.wf
  room : (emittedSymbols f).length ≤ s.params.obufCap.val

/-- The phases of a DECOMPRESS of the Frame in IBUF that decodes (R202). -/
abbrev decompressPhases (s : State) : List (BitVec 4) :=
  if s.frameSc = 0 then [8#4, 9#4, 10#4, 11#4] else [8#4, 2#4, 3#4, 9#4, 10#4, 11#4]

theorem decompressPhases_length_le (s : State) : (decompressPhases s).length ≤ 6 := by
  unfold decompressPhases
  split <;> decide

section Decompressing

variable {f : List Byte} {s t : State} {p : BitVec 4} {h : Parsed}

theorem Decompressing.continues (hd : Decompressing f p s) (hc : Continues s t) : Decompressing f t.phase t := by
  have hkeeps := hc.keepsHostSide.1.input
  have hbusy := hc.busyState hd.busy
  obtain ⟨w, q, n, -, rfl⟩ := hc
  exact ⟨hbusy, hd.op, rfl, hkeeps.trans hd.input, hd.inLen, hd.obuf, hd.room⟩

/-- The sequencer runs the phase it is in (R27). -/
theorem Decompressing.sequencerMove (hd : Decompressing f p s) {i : Instr} (hi : decodePhase p = .ok i) :
    sequencerMove s = exec i s :=
  sequencerMove_of_busy (busy_of_busyState hd.busy) (hd.phase ▸ hi)

/-- A phase that goes on, and the run from there. -/
theorem Decompressing.runsTo_of_exec (hd : Decompressing f p s) {i : Instr} (hi : decodePhase p = .ok i)
    (hexec : exec i s = .next t) {r : Except ErrCause (List Byte)} {ps : List (BitVec 4)} (hrun : RunsTo r ps t) :
    RunsTo r (p :: ps) s := by
  obtain ⟨qs, hqs, hlen, hok⟩ := hrun
  refine ⟨p :: qs, ?_, Nat.succ_le_succ hlen, fun y hy => by rw [hok y hy]⟩
  have hmove := (hd.sequencerMove hi).trans hexec
  obtain rfl := hd.phase
  exact .phase hd.busy hmove hqs

/-- A phase that raises ends the run (R262). -/
theorem Decompressing.runsTo_of_raise (hd : Decompressing f p s) {i : Instr} (hi : decodePhase p = .ok i)
    {c : ErrCause} (hexec : exec i s = .next (s.raise c)) (ps : List (BitVec 4)) :
    RunsTo (.error c) (p :: ps) s := by
  have hmove := (hd.sequencerMove hi).trans hexec
  have hidle := (raises_raise hd.op c).idleState hd.busy
  obtain ⟨hstatus, -⟩ := hd.busy
  obtain rfl := hd.phase
  refine ⟨[s.phase], .phase hd.busy hmove (.ended hidle ⟨?_, rfl, rfl, rfl, rfl⟩), by simp, fun y hy => by cases hy⟩
  simp [hstatus, putBit]

/-- A last phase that ends the operation with the result `y` (R219). -/
theorem Decompressing.runsTo_of_end (hd : Decompressing f p s) {i : Instr} (hi : decodePhase p = .ok i)
    {y : List Byte} (hexec : exec i s = .next (s.endedWith y)) (hroom : y.length ≤ s.params.obufCap.val) :
    RunsTo (.ok y) [p] s := by
  have hmove := (hd.sequencerMove hi).trans hexec
  have hidle := (ends_endedWith hroom).idleState hd.busy
  have houtput := State.endedWith_output hd.obuf hroom
  obtain ⟨hstatus, -⟩ := hd.busy
  obtain rfl := hd.phase
  refine ⟨[s.phase], .phase hd.busy hmove (.ended hidle ⟨?_, rfl, rfl, rfl, State.endedWith_outLen hroom, houtput⟩),
    le_rfl, fun _ _ => rfl⟩
  simp [State.endedWith, hstatus, putBit]

/-! ### The phases, from the last to the first (R202) -/

/-- DEC_WALK over the bits of the Frame (R214). -/
theorem Decompressing.runsTo_decWalk (hd : Decompressing f phaseDecWalk s) (hparse : parseFrame f = .ok h)
    (hm : h.LengthsMatch) (hcodes : s.work.HoldsCodes h.table) (hbits : s.work.bits = h.bits) :
    RunsTo (decompress f) [phaseDecWalk] s := by
  have hroom := hd.room
  have hresult := decompress_of_lengthsMatch hparse hm
  have hemitted : emittedSymbols f = (walk (revIn (codesOf h.table)) [] h.bits).1 := by
    simp only [emittedSymbols, openFrame_of_lengthsMatch hparse hm]
  have hwalk : walk s.work.rev [] s.work.bits = walk (revIn (codesOf h.table)) [] h.bits := by
    rw [hcodes.rev (table_nodup_of_parseFrame hparse), hbits]
  rw [hemitted] at hroom
  rw [hresult]
  by_cases hacc : (walk (revIn (codesOf h.table)) [] h.bits).2 = []
  · rw [if_pos hacc]
    exact hd.runsTo_of_end rfl (exec_decWalk_of_clean hd.op (hwalk.trans (Prod.ext rfl hacc)) hroom) hroom
  · rw [if_neg hacc]
    exact hd.runsTo_of_raise rfl (exec_decWalk_of_trailing hd.op hwalk hroom hacc) []

/-- The payload as BP_UNPACK reads it is that of the Frame (R92, R170). -/
theorem Decompressing.payload (hd : Decompressing f p s) (hparse : parseFrame f = .ok h)
    (hframe : s.work.HoldsFrame h) : s.work.payOff + s.work.payLen = s.inLen.toNat ∧
      s.ibufBytes s.work.payOff s.work.payLen = h.payload := by
  obtain ⟨⟨-, -, hwhole, -⟩, rfl⟩ := parseFrame_ok_iff.1 hparse
  have hoff : s.work.payOff = 3 + 5 * scOf f := by
    rw [hframe.payOff, List.length_map, List.length_range]
  have hlen : s.work.payLen = f.length - (3 + 5 * scOf f) := by
    rw [hframe.payLen, List.length_drop]
  have hinput : f.length = s.inLen.toNat := by rw [← hd.input, State.input_length]
  refine ⟨by omega, ?_⟩
  rw [State.ibufBytes_eq_drop_take (by omega), hd.input, hoff, hlen]
  exact List.take_of_length_le (by rw [List.length_drop])

/-- BP_UNPACK of the payload (R170). -/
theorem Decompressing.runsTo_bpUnpack (hd : Decompressing f phaseBpUnpack s) (hparse : parseFrame f = .ok h)
    (hm : h.LengthsMatch) (hframe : s.work.HoldsFrame h) (hcodes : s.work.HoldsCodes h.table) :
    RunsTo (decompress f) [phaseBpUnpack, phaseDecWalk] s := by
  obtain ⟨hend, hpayload⟩ := hd.payload hparse hframe
  obtain ⟨t, hexec, hphase, hbits⟩ := exec_bpUnpack_of_unpack hd.op hend.le (hend.le.trans hd.inLen)
    (by rw [hpayload, hframe.padf, hm.unpack])
  obtain ⟨hcont, hwork⟩ := execBpUnpack_next hexec
  refine hd.runsTo_of_exec rfl hexec (Decompressing.runsTo_decWalk (hphase ▸ hd.continues hcont) hparse hm ?_ hbits)
  rw [hwork]
  exact hcodes.of_same rfl rfl rfl

/-- LEN_CHECK of the fields of the Frame (R210). -/
theorem Decompressing.runsTo_lenCheck (hd : Decompressing f phaseLenCheck s) (hparse : parseFrame f = .ok h)
    (hframe : s.work.HoldsFrame h) (hcodes : s.work.HoldsCodes h.table) :
    RunsTo (decompress f) [phaseLenCheck, phaseBpUnpack, phaseDecWalk] s := by
  have htable := hframe.table
  have hbits := hcodes.impliedBits
  have hsame : (s.work.padf ≤ 7 ∧ 8 * s.work.payLen = impliedLength (codesOf h.table) h.table + s.work.padf) ↔
      h.LengthsMatch := by
    rw [hframe.padf, hframe.payLen, Parsed.LengthsMatch]
  by_cases hm : h.LengthsMatch
  · have hexec := exec_lenCheck_of_match hd.op htable hbits (hsame.2 hm)
    have hcont := continues_advance (s := s) (p := phaseBpUnpack) (by rw [hd.op]; decide)
      { s.work with tExp := impliedLength (codesOf h.table) h.table }
    exact hd.runsTo_of_exec rfl hexec (Decompressing.runsTo_bpUnpack (hd.continues hcont) hparse hm
      (hframe.of_same rfl rfl rfl rfl rfl rfl rfl rfl) (hcodes.of_same rfl rfl rfl))
  · rw [decompress_of_not_lengthsMatch hparse hm]
    exact hd.runsTo_of_raise rfl (exec_lenCheck_of_not_match hd.op htable hbits (mt hsame.1 hm)) _

/-- CB_DERIVE on the tree of the Frame's table (R150, R206). -/
theorem Decompressing.runsTo_cbDerive (hd : Decompressing f phaseCbDerive s) (hparse : parseFrame f = .ok h)
    (hne : h.table ≠ []) (hframe : s.work.HoldsFrame h)
    (hvalid : ∀ b : Byte, SymTable.at s.work.codeValid b = false)
    (hbuild : buildTree h.table = (s.work.arena, [s.work.root])) :
    RunsTo (decompress f) [phaseCbDerive, phaseLenCheck, phaseBpUnpack, phaseDecWalk] s := by
  have hexec := exec_cbDerive_of_deriveCodes (.inr hd.op) (deriveCodes_of_buildTree hne hbuild)
  rw [if_neg (by rw [hd.op]; decide)] at hexec
  obtain ⟨hcont, hwork⟩ := execCbDerive_next hexec
  refine hd.runsTo_of_exec rfl hexec (Decompressing.runsTo_lenCheck (hd.continues hcont) hparse ?_
    (Work.holdsCodes_foldl_assign (table_nodup_of_parseFrame hparse) hvalid))
  rw [hwork]
  exact hframe.of_same rfl rfl rfl rfl rfl rfl rfl rfl

/-- TREE_BUILD of the Frame's table (R130, R206). -/
theorem Decompressing.runsTo_treeBuild (hd : Decompressing f phaseTreeBuild s) (hparse : parseFrame f = .ok h)
    (hne : h.table ≠ []) (hframe : s.work.HoldsFrame h)
    (hvalid : ∀ b : Byte, SymTable.at s.work.codeValid b = false) (hn : s.work.n = 0) (hpq : s.work.pq = []) :
    RunsTo (decompress f) [phaseTreeBuild, phaseCbDerive, phaseLenCheck, phaseBpUnpack, phaseDecWalk] s := by
  obtain ⟨arena, hbuild, -⟩ := buildTree_forest hne
  have hk : s.work.k ≠ 0 := by
    rw [hframe.k]
    exact mt List.length_eq_zero_iff.1 hne
  have hexec := exec_treeBuild_of_buildTree (.inr hd.op) hk hn hpq hframe.table hbuild
  obtain ⟨hcont, hwork⟩ := execTreeBuild_next hexec
  refine hd.runsTo_of_exec rfl hexec (Decompressing.runsTo_cbDerive (hd.continues hcont) hparse hne ?_ hvalid ?_)
  · rw [hwork]
    exact hframe.of_same rfl rfl rfl rfl rfl rfl rfl rfl
  · simpa [Work.arena] using hbuild

/-- FRAME_PARSE of the Frame; an empty table skips to LEN_CHECK (R204, R209). -/
theorem Decompressing.runsTo_frameParse (hd : Decompressing f phaseFrameParse s) (hwork : WorkEmpty s.work) :
    RunsTo (decompress f) (decompressPhases s) s := by
  obtain ⟨-, hn, hpq, -, -, -, -, hpresent, hvalid⟩ := hwork
  cases hparse : parseFrame f with
  | error c =>
    have hexec := exec_frameParse_of_error hd.op hd.inLen hpresent (hd.input ▸ hparse)
    rw [decompress_of_parseFrame_error hparse, decompressPhases]
    split <;> exact hd.runsTo_of_raise rfl hexec _
  | ok h =>
    obtain ⟨t, hexec, hframe, hphase, -⟩ := exec_frameParse_of_ok hd.op hd.inLen hpresent (hd.input ▸ hparse)
    have hbusy : t.phase ≠ phaseIdle := by
      rw [hphase]
      split <;> decide
    obtain ⟨hcont, hwork⟩ := (execFrameParse_next hexec).resolve_right fun ⟨_, hc⟩ => not_raises_of_phase hbusy hc
    have hd' := hd.continues hcont
    have hvalid' : ∀ b : Byte, SymTable.at t.work.codeValid b = false := by
      rw [hwork]
      exact hvalid
    have hempty : h.table = [] ↔ s.frameSc = 0 := by
      obtain ⟨⟨hhdr, -⟩, rfl⟩ := parseFrame_ok_iff.1 hparse
      rw [← hd.input] at hhdr ⊢
      exact State.entriesIn_input_eq_nil_iff (s.input_length ▸ hhdr)
    by_cases hzero : h.table = []
    · rw [hphase, if_pos hzero] at hd'
      rw [decompressPhases, if_pos (hempty.1 hzero)]
      exact hd.runsTo_of_exec rfl hexec (hd'.runsTo_lenCheck hparse hframe (hzero ▸ Work.holdsCodes_nil hvalid'))
    · rw [hphase, if_neg hzero] at hd'
      rw [decompressPhases, if_neg (mt hempty.2 hzero)]
      refine hd.runsTo_of_exec rfl hexec (hd'.runsTo_treeBuild hparse hzero hframe hvalid' ?_ ?_)
      · rw [hwork]
        exact hn
      · rw [hwork]
        exact hpq

end Decompressing

/-! ### The start (R233) -/

theorem exec_decompress_of_allowed {s : State} (h : DecompressAllowed s) :
    exec .decompress s = .next (s.start opDecompress phaseFrameParse) := by
  obtain ⟨hb, hlen, hroom⟩ := h
  show execDecompress s = _
  rw [execDecompress, whenIdle_of_idle hb, if_neg (Nat.not_lt.2 hlen), if_pos ((decompressFits_iff s).2 hroom)]

/-- Settles O53: the start enters FRAME_PARSE with an empty working state, and the phases of R202 run from there. -/
theorem decompressRunsToItsResult : Obligations.DecompressRunsToItsResult := by
  intro s hidle ⟨_, _, hobuf, _⟩ hq hallowed
  have hstart : Decompressing s.input phaseFrameParse (s.start opDecompress phaseFrameParse) := by
    obtain ⟨-, hlen, hroom⟩ := hallowed
    exact ⟨busyState_start hidle (by decide), rfl, rfl, rfl, hlen, hobuf, hroom⟩
  obtain ⟨qs, hruns, hlen, hok⟩ := hstart.runsTo_frameParse (workEmpty_emptied s.work)
  refine ⟨_, exec_decompress_of_allowed hallowed, fun y hy n => ?_, fun c hc n => ?_⟩
  · obtain ⟨t, hrun, hphase, hkeeps, hbusy, hend⟩ := hruns.runSteps hq n
    rw [hy] at hend
    rw [hok y hy] at hphase
    exact ⟨t, hrun, hphase, hkeeps, hbusy, hend⟩
  · obtain ⟨t, hrun, hphase, hkeeps, hbusy, hend⟩ := hruns.runSteps hq n
    rw [hc] at hend
    refine ⟨t, hrun, hkeeps, hbusy, fun hn => ?_, hend⟩
    rw [hphase]
    exact List.getD_eq_default _ _ ((hlen.trans (decompressPhases_length_le _)).trans hn)

end Sys2Proof.Machine
end

section
/-! PROOFS. The host's accesses (R60, R74, R235, R285), the idle block (R230) and the four commands (R231 to R234). -/
namespace Sys2Proof.Machine

/-! ### A `CMD` write, and no action at all, in an idle block (R230) -/

/-- The counterpart of `sequencerMove_of_busy` for the bytes the host writes to `CMD`. -/
theorem writeCmd_of_idle {s : State} {c : Byte} {i : Instr} (hb : s.busy = false) (hd : decodeCmd c = .ok i) :
    writeCmd c s = exec i s := by
  simp [writeCmd, hb, hd]

/-- Settles O5: the host's next action is the write, and the byte decodes to a command. -/
theorem stepRunsTheWrittenCommand : Obligations.StepRunsTheWrittenCommand := by
  intro s c rest i hq hb hd
  rw [step_of_queue_cons hq]
  exact writeCmd_of_idle (s := { s with hostQueue := rest }) hb hd

/-- Settles O7: it is the sequencer that moves, and in an idle block it does nothing. -/
theorem idleBlockChangesNothing : Obligations.IdleBlockChangesNothing := by
  intro s hb
  refine ⟨fun hq => ?_, fun rest hq => ?_⟩
  · rw [step_of_queue_nil hq, sequencerMove_of_idle hb]
  · rw [step_of_queue_cons hq]
    exact sequencerMove_of_idle (s := { s with hostQueue := rest }) hb

/-! ### Accesses the hand-off shuts out (R74 (c), R235, R285) -/

theorem afterHandoff_of_busy {s : State} (hb : s.busy = true) (r : Result) :
    afterHandoff s r = .refused .accessWhileBusy := if_pos hb

theorem afterHandoff_of_pending {s : State} (hb : s.busy = false) (hh : s.handoff = true) (r : Result) :
    afterHandoff s r = .refused .accessBeforeDoneRead := by
  simp [afterHandoff, hb, hh]

/-- The accesses the host may make only while idle and with no hand-off pending (R74 (c), R285; `IN_LEN` reads
by log entry 9). `hostMove_of_awaitsHandoff` ties it to the model. -/
def HostAction.awaitsHandoff : HostAction → Bool
  | .readReg .inLen | .readReg .errKind | .readReg .errCause | .readReg .outLen | .readObuf _
  | .writeInLen _ | .writeIbuf _ _ | .load _ | .copy => true
  | .readReg .cmd | .readReg .status | .writeCmd _ | .writeStatus _ | .writeErrKind _ | .writeErrCause _
  | .writeOutLen _ | .readIbuf _ | .writeObuf _ _ | .waitDone | .tick | .reset => false

/-- Each of these accesses stands behind the guard of the hand-off. -/
theorem hostMove_of_awaitsHandoff {a : HostAction} (ha : HostAction.awaitsHandoff a = true) (held s : State) :
    ∃ r, hostMove a held s = afterHandoff s r := by
  cases a with
  | readReg r =>
    cases r with
    | inLen | errKind | errCause | outLen => exact ⟨_, rfl⟩
    | cmd | status => cases ha
  | readObuf | writeInLen | writeIbuf | load | copy => exact ⟨_, rfl⟩
  | writeCmd | writeStatus | writeErrKind | writeErrCause | writeOutLen | readIbuf | writeObuf | waitDone | tick
  | reset => cases ha

section
variable {s : State} {a : HostAction} {rest : List HostAction}

theorem step_of_awaitsHandoff_busy (hq : s.hostQueue = a :: rest) (ha : HostAction.awaitsHandoff a = true)
    (hb : s.busy = true) : step s = .refused .accessWhileBusy := by
  obtain ⟨r, hr⟩ := hostMove_of_awaitsHandoff ha s { s with hostQueue := rest }
  rw [step_of_queue_cons hq, hr]
  exact afterHandoff_of_busy hb r

theorem step_of_awaitsHandoff_pending (hq : s.hostQueue = a :: rest) (ha : HostAction.awaitsHandoff a = true)
    (hb : s.busy = false) (hh : s.handoff = true) : step s = .refused .accessBeforeDoneRead := by
  obtain ⟨r, hr⟩ := hostMove_of_awaitsHandoff ha s { s with hostQueue := rest }
  rw [step_of_queue_cons hq, hr]
  exact afterHandoff_of_pending hb hh r

theorem step_of_awaitsHandoff_over {r : Result} (hq : s.hostQueue = a :: rest) (hb : s.busy = false)
    (hh : s.handoff = false)
    (ha : hostMove a s { s with hostQueue := rest } = afterHandoff { s with hostQueue := rest } r) : step s = r := by
  rw [step_of_queue_cons hq, ha]
  exact afterHandoff_of_idle hb hh r

end

/-- Settles O12: five kinds of access the model gives to no one, and the accesses that await the hand-off. -/
theorem hostMisuseIsRefused : Obligations.HostMisuseIsRefused := by
  intro s a rest hq
  have hstep := step_of_queue_cons hq
  refine ⟨?_, ?_, ?_, ?_, ?_, fun ha => ?_⟩
  · rintro rfl
    exact hstep
  · rintro v (rfl | rfl | rfl) <;> exact hstep
  · rintro v rfl
    exact hstep
  · rintro off b rfl
    exact hstep
  · rintro off rfl
    exact hstep
  · have hawaits : HostAction.awaitsHandoff a = true := by
      obtain rfl | rfl | rfl | rfl | rfl | ⟨v, rfl⟩ | ⟨x, rfl⟩ | ⟨off, rfl⟩ | ⟨off, b, rfl⟩ := ha <;> rfl
    exact ⟨step_of_awaitsHandoff_busy hq hawaits, step_of_awaitsHandoff_pending hq hawaits⟩

/-! ### Reads (R235) -/

/-- Settles O13: the read of `STATUS` has no guard. -/
theorem statusReadHasNoSideEffect : Obligations.StatusReadHasNoSideEffect :=
  fun _ _ hq => step_of_queue_cons hq

/-- Settles O14: the reads await the hand-off, and then the value is all that they change. -/
theorem idleReadsReturnTheValue : Obligations.IdleReadsReturnTheValue := by
  refine ⟨fun s a rest hb hh hq ha => ?_, fun s rest hb hh => ?_⟩
  · have hawaits : HostAction.awaitsHandoff a = true := by
      obtain rfl | rfl | rfl | rfl | ⟨off, rfl⟩ := ha <;> rfl
    exact step_of_awaitsHandoff_pending hq hawaits hb hh
  · refine ⟨fun hq => step_of_awaitsHandoff_over hq hb hh rfl, fun hq => step_of_awaitsHandoff_over hq hb hh rfl,
      fun hq => step_of_awaitsHandoff_over hq hb hh rfl, fun hq => step_of_awaitsHandoff_over hq hb hh rfl,
      fun off hq => ?_⟩
    have hread := step_of_awaitsHandoff_over hq hb hh rfl
    exact ⟨fun hoff => hread.trans (if_pos hoff), fun hoff => hread.trans (if_neg (Nat.not_lt.2 hoff))⟩

/-! ### NOP and CLEAR (R231, R234) -/

/-- Settles O18: the guard of every command is all that NOP has. -/
theorem nopChangesNothing : Obligations.NopChangesNothing :=
  ⟨rfl, fun _ => ⟨fun hb => whenIdle_of_idle hb _, fun hb => if_pos hb⟩⟩

/-- A write of one bit of a register leaves its other bits. -/
theorem putBit_getLsbD_of_ne (v : BitVec 8) {i j : Nat} (h : j ≠ i) (b : Bool) :
    (putBit v i b).getLsbD j = v.getLsbD j := by
  have hbit : ((1#8) <<< i).getLsbD j = false := by
    have hapart : i ≤ j → ¬ j - i = 0 := by omega
    simpa using fun _ => hapart
  cases b with
  | true => rw [putBit, if_pos rfl, BitVec.getLsbD_or, hbit, Bool.or_false]
  | false =>
    rw [putBit, if_neg Bool.false_ne_true, BitVec.getLsbD_and, BitVec.getLsbD_not, hbit, Bool.not_false,
      Bool.and_true]
    by_cases hj : j < 8
    · rw [decide_eq_true hj, Bool.and_true]
    · rw [BitVec.getLsbD_of_ge v j (Nat.not_lt.1 hj), Bool.false_and]

@[simp] theorem State.acknowledge_done (s : State) : s.acknowledge.done = false :=
  (putBit_getLsbD_of_ne _ (by decide) _).trans (putBit_getLsbD_self s.status 1 false)

@[simp] theorem State.acknowledge_err (s : State) : s.acknowledge.err = false :=
  putBit_getLsbD_self _ 2 false

/-- Settles O19: DONE and ERR are the two bits of `STATUS` written, and each write keeps the other bits. -/
theorem clearAcknowledgesTheResult : Obligations.ClearAcknowledgesTheResult := by
  refine ⟨rfl, fun s hb => ⟨s.acknowledge, whenIdle_of_idle hb _, s.acknowledge_done, s.acknowledge_err,
    fun i hdone herr => ?_, rfl⟩⟩
  rw [State.acknowledge_status, putBit_getLsbD_of_ne _ herr, putBit_getLsbD_of_ne _ hdone]

/-! ### The two starts (R51, R232, R233) -/

section
variable (s : State) (op : Byte) (phase : BitVec 4)

@[simp] theorem State.start_busy : (s.start op phase).busy = true := s.withFlags_busy true false false
@[simp] theorem State.start_done : (s.start op phase).done = false := s.withFlags_done true false false
@[simp] theorem State.start_err : (s.start op phase).err = false := s.withFlags_err true false false

end

/-- Settles O20: the start of COMPRESS sets the flags and empties the working state. -/
theorem compressStartsTheEncoder : Obligations.CompressStartsTheEncoder := by
  intro s hallowed
  obtain ⟨hinput, hobuf⟩ := (CommandMove.startCompress (s := s)).keepsInput
  exact ⟨_, exec_compress_of_allowed hallowed, State.start_busy .., State.start_done .., State.start_err ..,
    rfl, rfl, rfl, rfl, rfl, workEmpty_emptied s.work, hinput, hobuf⟩

/-- Settles O21: the bound on the walk is the bound on a result, and the start has the shape of COMPRESS's. -/
theorem decompressStartsTheDecoder : Obligations.DecompressStartsTheDecoder := by
  refine ⟨fun _ _ => emittedSymbols_of_ok, fun s hallowed => ?_⟩
  obtain ⟨hinput, hobuf⟩ := (CommandMove.startDecompress (s := s)).keepsInput
  exact ⟨_, exec_decompress_of_allowed hallowed, State.start_busy .., State.start_done .., State.start_err ..,
    rfl, rfl, rfl, rfl, rfl, workEmpty_emptied s.work, hinput, hobuf⟩

end Sys2Proof.Machine
end

section
/-! PROOFS. Errors: what the error entry leaves (R251, R252, R262), and that only a phase of DECOMPRESS takes it
(R250). -/
namespace Sys2Proof.Machine

/-! ### The error entry (R262) -/

section
variable (s : State) (c : ErrCause)

@[simp] theorem State.raise_busy : (s.raise c).busy = false := s.withFlags_busy false true true
@[simp] theorem State.raise_done : (s.raise c).done = true := s.withFlags_done false true true
@[simp] theorem State.raise_err : (s.raise c).err = true := s.withFlags_err false true true

/-- OBUF lists no byte after the error entry, so each reads as the free value of its offset (R62, R262). -/
theorem State.raise_obufByte (a : Nat) :
    (s.raise c).obufByte a = Config.freeObufByte (s.raise c).obufEpoch a := rfl

end

/-- Settles O46: the entry writes the cause's codes, whatever the state it is taken from; the codes are read off
cause by cause. -/
theorem errorEntryReportsTheCause : Obligations.ErrorEntryReportsTheCause := by
  intro s c
  refine ⟨⟨s.raise_busy c, s.raise_done c, s.raise_err c, rfl, rfl, rfl, rfl, rfl⟩,
    ⟨rfl, fun _ => rfl, rfl, rfl, rfl⟩, s.raise_obufByte c, rfl, ?_⟩
  cases c <;> rfl

/-! ### Where ERR can be set (R250) -/

theorem Continues.err {s t : State} (h : Continues s t) : t.err = s.err := by
  obtain ⟨-, hstatus, -⟩ := h.keepsHostSide
  rw [State.err, hstatus, State.err]

theorem Ends.err {s t : State} (h : Ends s t) : t.err = false := by
  obtain ⟨-, -, herr, -⟩ := h.endedWell
  exact herr

@[simp] theorem State.onReset_err (s : State) : s.onReset.err = false :=
  show (0x00#8).getLsbD 2 = false by decide

/-- A phase that goes on keeps ERR and one that ends its operation clears it, so a phase that sets it raises. -/
theorem PhaseMove.raises_of_err {s t : State} (h : PhaseMove s t) (hs : s.err = false) (ht : t.err = true) :
    ∃ c, Raises c s t := by
  obtain hgoesOn | hends | hraises := h
  · exact absurd (hgoesOn.err.trans hs) (ne_false_of_eq_true ht)
  · exact absurd hends.err (ne_false_of_eq_true ht)
  · exact hraises

/-- A command leaves ERR as it is or clears it (R231 to R234). -/
theorem CommandMove.err {s t : State} (h : CommandMove s t) (hs : s.err = false) : t.err = false := by
  cases h with
  | nothing => exact hs
  | startCompress | startDecompress => exact State.start_err ..
  | acknowledge => exact s.acknowledge_err

/-- The idle block does nothing of its own accord, so a move that sets ERR is a phase that raises (R250). -/
theorem sequencerMove_of_err {s t : State} (h : sequencerMove s = .next t) (hs : s.err = false)
    (ht : t.err = true) : s.op = opDecompress ∧ s.busy = true ∧ ErrCodesLegal t.errKind t.errCause := by
  obtain ⟨-, rfl⟩ | ⟨hb, hphase⟩ := sequencerMove_next h
  · exact absurd hs (ne_false_of_eq_true ht)
  · obtain ⟨c, hop, rfl⟩ := hphase.raises_of_err hs ht
    exact ⟨hop, hb, errCodesLegal_of_cause c⟩

/-- Of the host's actions only those that let the sequencer move, a TICK and a WAIT, can set ERR (R250). -/
theorem HostMove.of_err {a : HostAction} {s t : State} {rest : List HostAction}
    (h : HostMove s { s with hostQueue := rest } a t) (hs : s.err = false) (ht : t.err = true) :
    s.op = opDecompress ∧ s.busy = true ∧ ErrCodesLegal t.errKind t.errCause := by
  cases h with
  | tick h => exact sequencerMove_of_err (s := { s with hostQueue := rest }) h hs ht
  | wait _ h => exact sequencerMove_of_err h hs ht
  | command _ h => exact absurd (h.err hs) (ne_false_of_eq_true ht)
  | reset => exact absurd (State.onReset_err _) (ne_false_of_eq_true ht)
  | readStatus | read | writeInLen | writeIbuf | load => exact absurd hs (ne_false_of_eq_true ht)

/-- Settles O51: the sequencer's move and every host action. -/
theorem onlyDecompressRaises : Obligations.OnlyDecompressRaises := by
  intro s t h hs ht
  obtain ⟨-, h⟩ | ⟨a, rest, -, h⟩ := step_next h
  · exact sequencerMove_of_err h hs ht
  · exact h.of_err hs ht

end Sys2Proof.Machine
end

section
/-! PROOFS. Reset and hazards (R50, R108, R280, R284, R290): refused `CMD` writes, the state after reset, and the
result that stands while the block is idle. -/
namespace Sys2Proof.Machine

theorem writeCmd_of_busy {s : State} (hb : s.busy = true) (c : Byte) : writeCmd c s = .refused .commandWhileBusy := by
  rw [writeCmd, if_pos hb]

theorem writeCmd_of_reserved {s : State} {c : Byte} (hb : s.busy = false) (hc : 4 ≤ c.toNat) :
    writeCmd c s = .refused (.reservedCommand c) := by
  simp [writeCmd, hb, decodeCmd_of_reserved hc]

/-- Settles O6: the two guards of a `CMD` write. -/
theorem commandWriteIsRefused : Obligations.CommandWriteIsRefused := by
  intro s c rest hq
  rw [step_of_queue_cons hq]
  exact ⟨fun hb => writeCmd_of_busy (s := { s with hostQueue := rest }) hb c,
    fun hb hc => writeCmd_of_reserved (s := { s with hostQueue := rest }) hb hc⟩

/-- Settles O8: no byte of either buffer is listed after reset, so each reads as the free value of its offset. -/
theorem resetEntersTheResetState : Obligations.ResetEntersTheResetState := by
  intro s rest hq
  rw [step_of_queue_cons hq]
  exact ⟨_, rfl, rfl, rfl, rfl, rfl, rfl, rfl, rfl, fun _ => rfl, fun _ => rfl, rfl, rfl⟩

/-! ### The result of the last operation (R264, R290) -/

/-- The result registers, `PHASE`, `OP` and every byte of OBUF are the same. -/
def KeepsResult (s t : State) : Prop :=
  t.status = s.status ∧ t.errKind = s.errKind ∧ t.errCause = s.errCause ∧ t.outLen = s.outLen ∧
    t.phase = s.phase ∧ t.op = s.op ∧ ∀ a, t.obufByte a = s.obufByte a

theorem KeepsResult.refl (s : State) : KeepsResult s s := ⟨rfl, rfl, rfl, rfl, rfl, rfl, fun _ => rfl⟩

/-- An idle sequencer does nothing (R230). -/
theorem sequencerMove_keepsResult {s t : State} (hb : s.busy = false) (h : sequencerMove s = .next t) :
    KeepsResult s t := by
  rw [sequencerMove_of_idle hb] at h
  cases h
  exact .refl s

/-- In an idle block only a `CMD` write and reset change the result: the sequencer does nothing, and the host's
other accesses write IBUF, `IN_LEN` and the host's own fields. -/
theorem HostMove.keepsResult {a : HostAction} {s t : State} {rest : List HostAction}
    (h : HostMove s { s with hostQueue := rest } a t) (hb : s.busy = false)
    (ha : HostAction.endsResult a = false) : KeepsResult s t := by
  cases h with
  | command | reset => cases ha
  | tick h => exact sequencerMove_keepsResult (s := { s with hostQueue := rest }) hb h
  | wait _ h => exact sequencerMove_keepsResult hb h
  | readStatus | read | writeInLen | writeIbuf | load => exact .refl s

/-- Settles O50: an idle sequencer changes nothing, and no host action but a `CMD` write and reset touches a result. -/
theorem resultStandsWhileIdle : Obligations.ResultStandsWhileIdle := by
  intro s t hb h hq
  obtain ⟨-, h⟩ | ⟨a, rest, ha, h⟩ := step_next h
  · exact sequencerMove_keepsResult hb h
  · exact h.keepsResult hb (hq a rest ha)

end Sys2Proof.Machine
end

section
/-! PROOFS. The rules the spec derives of the codes and of sizes: the codes are complete (R157), the length of a
Frame (R91, R194) and its bounds. -/
namespace Sys2Proof.Machine

/-! ### Completeness of the codes (R157) -/

/-- `Σ 2^(−length)` over the codes of a list. -/
def kraftSum (codes : List (Byte × Bits)) : ℚ := (codes.map fun a => ((1 : ℚ) / 2) ^ a.2.length).sum

theorem kraftSum_append (a b : List (Byte × Bits)) : kraftSum (a ++ b) = kraftSum a + kraftSum b := by
  simp [kraftSum]

/-- One more bit in front of every code halves the sum. -/
theorem kraftSum_under_singleton (b : Bool) (codes : List (Byte × Bits)) :
    kraftSum (under [b] codes) = kraftSum codes / 2 := by
  simp only [kraftSum, under, List.map_map, Function.comp_def, List.length_append, List.length_singleton, pow_add,
    pow_one, List.sum_map_mul_left]
  ring

/-- The paths below a node are complete: each side of an internal node has half of the sum. -/
theorem LeafPaths.kraftSum_eq_one {arena : List Node} {n : Nat} {paths : List (Byte × Bits)}
    (h : LeafPaths arena n paths) : kraftSum paths = 1 := by
  induction h with
  | leaf => simp [kraftSum]
  | internal _ _ _ _ _ ihl ihr =>
    rw [kraftSum_append, kraftSum_under_singleton, kraftSum_under_singleton, ihl, ihr]
    norm_num

/-- Settles O29: the codes of two or more symbols are the paths to the leaves of a tree. -/
theorem codesAreComplete : Obligations.CodesAreComplete := by
  intro table htwo
  obtain ⟨_, _, hcodes⟩ := treeCodes_codesOf (List.ne_nil_of_length_pos (Nat.zero_lt_of_lt htwo))
  exact (hcodes.paths htwo).kraftSum_eq_one

/-! ### The length of a Frame (R91, R194) -/

@[simp] theorem countSymbols_length (x : List Byte) : (countSymbols x).length = x.eraseDups.length := by
  rw [← symbols_countSymbols, List.length_map]

/-- The payload takes the fewest whole bytes for the bits. -/
theorem pack_length_eq_ceil (bs : Bits) : (pack bs).length = (bs.length + 7) / 8 := by
  have hlen := pack_length bs
  have hpad := padOf_lt bs.length
  omega

theorem compress_length (x : List Byte) : (compress x).length =
    3 + 5 * x.eraseDups.length + ((encodeBits (codesOf (countSymbols x)) x).length + 7) / 8 := by
  by_cases hx : x = []
  · rw [hx]
    rfl
  · rw [compress_of_ne_nil hx, frameBytes_length, countSymbols_length, pack_length_eq_ceil]

/-- Settles O56: the Frame's fields one after another, with `T` the sum over the table. -/
theorem frameLengthFormula : Obligations.FrameLengthFormula := by
  rintro x _ rfl
  rw [← encodeBits_length]
  exact ⟨countSymbols_length x, rfl, compress_length x⟩

/-! ### The bounds on `T` and on a Frame (R156, R192, R194) -/

/-- Every symbol of a table has a code of at least one bit, and of at most `K − 1` unless that is none. -/
theorem codeIn_codesOf_length {table : List (Byte × Nat)} (hnd : (table.map Prod.fst).Nodup) {b : Byte}
    (hb : b ∈ table.map Prod.fst) :
    1 ≤ (codeIn (codesOf table) b).length ∧ (codeIn (codesOf table) b).length ≤ max 1 (table.length - 1) := by
  obtain ⟨hsymbols, hsingle, hmany⟩ := codeLengthsAreBounded table hnd
  obtain ⟨a, ha, rfl⟩ := List.mem_map.1 (hsymbols.mem_iff.2 hb)
  rw [codeIn_of_mem (hsymbols.nodup_iff.2 hnd) ha]
  obtain hone | htwo : table.length = 1 ∨ 2 ≤ table.length := by
    have hpos := List.length_pos_of_mem hb
    rw [List.length_map] at hpos
    omega
  · obtain ⟨p, hp⟩ := List.length_eq_one_iff.1 hone
    rw [hsingle p hp, List.mem_singleton] at ha
    simp [ha]
  · obtain ⟨hlow, hhigh⟩ := (hmany htwo).1 a ha
    exact ⟨hlow, hhigh.trans (le_max_right ..)⟩

/-- `T` lies between the length of the input and the longest code times it. -/
theorem encodeBits_codesOf_length (x : List Byte) :
    x.length ≤ (encodeBits (codesOf (countSymbols x)) x).length ∧
      (encodeBits (codesOf (countSymbols x)) x).length ≤ max 1 (x.eraseDups.length - 1) * x.length := by
  have hcode : ∀ n ∈ x.map fun b => (codeIn (codesOf (countSymbols x)) b).length,
      1 ≤ n ∧ n ≤ max 1 (x.eraseDups.length - 1) := by
    refine List.forall_mem_map.2 fun b hb => ?_
    simpa using codeIn_codesOf_length (countSymbols_nodup x) (b := b) (by simpa using hb)
  have hlow := List.card_nsmul_le_sum _ 1 fun n hn => (hcode n hn).1
  have hhigh := List.sum_le_card_nsmul _ _ fun n hn => (hcode n hn).2
  rw [List.length_map, smul_eq_mul] at hlow hhigh
  rw [encodeBits, List.length_flatMap, mul_comm (max _ _)]
  exact ⟨by simpa using hlow, hhigh⟩

/-- Settles O57: the bounds on `T`, and the length of a Frame grows with `T`. -/
theorem frameSizeIsBounded : Obligations.FrameSizeIsBounded := by
  rintro x _ t rfl ht
  obtain ⟨hlow, hhigh⟩ := encodeBits_codesOf_length x
  rw [← ht] at hlow hhigh
  refine ⟨hlow, fun hone => ?_, fun htwo => ?_⟩
  · rw [hone, Nat.sub_self, Nat.max_eq_left (Nat.zero_le 1), one_mul] at hhigh
    exact hhigh.antisymm hlow
  · rw [Nat.max_eq_right (Nat.le_sub_one_of_lt htwo)] at hhigh
    refine ⟨hhigh, ?_⟩
    rw [compress_length, ← ht]
    gcongr

end Sys2Proof.Machine
end
